-- ==== Sys2Proof/Word.lean ====
section
/-! DEFINITION. The plain widths of the block (R6, R7): 32-bit words, memory bytes, and symbols, whose width is a parameter. -/

namespace Sys2Proof

/-- A 32-bit register, input word or memory address (R6). -/
abbrev Word := BitVec 32

/-- One byte of IN or OUT (R60). -/
abbrev Byte := BitVec 8

/-- A symbol value: a number below 2^`SYM_BITS`, whose width is a parameter of the machine (R5, log 7). -/
abbrev Sym := Nat

end Sys2Proof
end

