-- ==== Sys2Proof/Syntax.lean ====
section
/-! DEFINITION. The instructions: one constructor per row of spec/opcode_table.json, and what a decoder reads. -/

namespace Sys2Proof

/-- The two-bit `TR` field (R90): a tree slot, or the reserved value 3. -/
inductive TreeSel
  | dict
  | sym
  | copy
  | rsv
  deriving DecidableEq, Repr

/-- The instructions of R2: the host commands (R92) and the syntax elements of the dat stream
(R104, R106, R108), one constructor per row of the opcode table. -/
inductive Instr
  /-- `NOP` (R304) -/
  | nop
  /-- `CUR_INIT` (R141) -/
  | curInit
  /-- `CUR_NEED n` (R143) -/
  | curNeed (nb : BitVec 6)
  /-- `CUR_READ n` (R144) -/
  | curRead (nb : BitVec 6)
  /-- `CUR_DROP n` (R148) -/
  | curDrop (nb : BitVec 6)
  /-- `BLD_CLEAR` (R170) -/
  | bldClear
  /-- `BLD_ADD sym, len` (R171); the command's SYM field has 16 bits (R90) -/
  | bldAdd (nb : BitVec 6) (sy : BitVec 16)
  /-- `BLD_BUILD t` (R172) -/
  | bldBuild (tr : TreeSel)
  /-- `DICT_INIT` (R180) -/
  | dictInit
  /-- `HUF_READ t` (R210) -/
  | hufRead (tr : TreeSel)
  /-- `DESC_READ t` (R220) -/
  | descRead (tr : TreeSel)
  /-- `DAT_DECODE` (R240) -/
  | datDecode
  /-- `SOFT_RESET` (R304) -/
  | softReset
  /-- `LIT`: the literal byte, bits 7:0 of the symbol (R250) -/
  | lit (b : Byte)
  /-- `CPY_B0` .. `CPY_B6`: the two low bits r of a copy symbol of that bucket (R106, R251) -/
  | cpyB0 (r : BitVec 2)
  | cpyB1 (r : BitVec 2)
  | cpyB2 (r : BitVec 2)
  | cpyB3 (r : BitVec 2)
  | cpyB4 (r : BitVec 2)
  | cpyB5 (r : BitVec 2)
  | cpyB6 (r : BitVec 2)
  /-- `CPY_FF`: symbol 0x11C (R106) -/
  | cpyFF
  /-- `CPY_RSV`: any token symbol no other row matches (R106) -/
  | cpyRsv (s : Sym)
  /-- `OFF_B0` .. `OFF_B16`: the low bit r2 of an offset symbol of that bucket (R108, R253) -/
  | offB0 (r : BitVec 1)
  | offB1 (r : BitVec 1)
  | offB2 (r : BitVec 1)
  | offB3 (r : BitVec 1)
  | offB4 (r : BitVec 1)
  | offB5 (r : BitVec 1)
  | offB6 (r : BitVec 1)
  | offB7 (r : BitVec 1)
  | offB8 (r : BitVec 1)
  | offB9 (r : BitVec 1)
  | offB10 (r : BitVec 1)
  | offB11 (r : BitVec 1)
  | offB12 (r : BitVec 1)
  | offB13 (r : BitVec 1)
  | offB14 (r : BitVec 1)
  | offB15 (r : BitVec 1)
  | offB16 (r : BitVec 1)
  /-- `OFF_RSV`: any offset symbol no other row matches (R108) -/
  | offRsv (t : Sym)
  /-- `DESC_SKIP`: run count minus one, a field of `SYM_BITS` - 5 bits (R104, R221) -/
  | descSkip (cm1 : Nat)
  /-- `DESC_RUN`: length 1 to 31 and run count minus one (R104, R220) -/
  | descRun (len : BitVec 5) (cm1 : Nat)
  deriving DecidableEq, Repr

/-- One decoded stream symbol and the format its place in the stream gives it (R109):
a symbol of the SYM tree, of the COPY tree, or of the DICT tree. -/
inductive StreamSymbol
  | token (s : Sym)
  | offset (t : Sym)
  | desc (c : Sym)
  deriving DecidableEq, Repr

/-- The symbol has `SYM_BITS` bits (R5). -/
def StreamSymbol.fits (symBits : Nat) : StreamSymbol → Bool
  | .token s => decide (s < 2 ^ symBits)
  | .offset t => decide (t < 2 ^ symBits)
  | .desc c => decide (c < 2 ^ symBits)

/-- What a decoder is given: a word written to `CMD`, or a stream symbol. -/
inductive Fetched
  | command (v : Word)
  | element (e : StreamSymbol)
  deriving DecidableEq, Repr

/-- Why a command word is reserved (R93). -/
inductive Reserved
  /-- `OPC` is not in the opcode map -/
  | unknownOpcode
  /-- a field the command does not use is not 0 -/
  | nonzeroField
  deriving DecidableEq, Repr

end Sys2Proof
end

