-- ==== Sys2Proof/WellFormed.lean ====
section
/-! DEFINITION. Which terms of `Instr` an encoding stands for: the three catch-all rows hold only what no row before them matches (R109). -/

namespace Sys2Proof

/-- A term is well formed when its symbol is one its row matches: `CPY_RSV` only from 0x11D on (R106),
`OFF_RSV` only from 34 on (R108), `DESC_RUN` only with a length of 1 to 31 (R104); and when the symbol or the count field
has the bits that `SYM_BITS` leaves it (R5, R104). Every other field fills its encoding's bits; operands the semantics
forbid are checked by the meaning (R95). -/
def Instr.wf (symBits : Nat) : Instr → Bool
  | .cpyRsv s => decide (0x11D ≤ s) && decide (s < 2 ^ symBits)
  | .offRsv t => decide (34 ≤ t) && decide (t < 2 ^ symBits)
  | .descSkip cm1 => decide (cm1 < 2 ^ (symBits - 5))
  | .descRun len cm1 => decide (len ≠ 0) && decide (cm1 < 2 ^ (symBits - 5))
  | .nop | .curInit | .curNeed _ | .curRead _ | .curDrop _ | .bldClear | .bldAdd _ _ | .bldBuild _
  | .dictInit | .hufRead _ | .descRead _ | .datDecode | .softReset | .lit _ | .cpyB0 _ | .cpyB1 _
  | .cpyB2 _ | .cpyB3 _ | .cpyB4 _ | .cpyB5 _ | .cpyB6 _ | .cpyFF | .offB0 _ | .offB1 _ | .offB2 _
  | .offB3 _ | .offB4 _ | .offB5 _ | .offB6 _ | .offB7 _ | .offB8 _ | .offB9 _ | .offB10 _ | .offB11 _
  | .offB12 _ | .offB13 _ | .offB14 _ | .offB15 _ | .offB16 _ => true

end Sys2Proof
end

