-- ==== Sys2Proof/Decode.lean ====
section
/-! DEFINITION. The decoder and the encoder of command words (R90 to R95) and of stream symbols (R104 to R109). -/

namespace Sys2Proof

/-- The `TR` field's value as a tree selector (R90). -/
def TreeSel.ofBits (b : BitVec 2) : TreeSel :=
  if b = 0 then .dict else if b = 1 then .sym else if b = 2 then .copy else .rsv

/-- The value of the `TR` field that selects a tree (R90). -/
def TreeSel.toBits : TreeSel → BitVec 2
  | .dict => 0
  | .sym => 1
  | .copy => 2
  | .rsv => 3

/-- `TR` = cmd[23:22] (R90). -/
def fieldTR (v : Word) : TreeSel := TreeSel.ofBits (v.extractLsb' 22 2)

/-- `NB` = cmd[21:16] (R90). -/
def fieldNB (v : Word) : BitVec 6 := v.extractLsb' 16 6

/-- `SYM` = cmd[15:0] (R90). -/
def fieldSYM (v : Word) : BitVec 16 := v.extractLsb' 0 16

/-- A row of the opcode map matches a value: `(v & mask) == match` (R94). -/
def rowHit {w : Nat} (v mask pat : BitVec w) : Bool := decide (v &&& mask = pat)

/-- One row of R92: mask and match of a command. -/
structure CommandRow where
  mask : Word
  pat : Word
  deriving DecidableEq, Repr

/-- The match and mask of each command, in the order of R92. -/
def commandRows : List CommandRow :=
  [⟨0xFFFFFFFF, 0x00000000⟩, ⟨0xFFFFFFFF, 0x01000000⟩, ⟨0xFFC0FFFF, 0x02000000⟩, ⟨0xFFC0FFFF, 0x03000000⟩,
   ⟨0xFFC0FFFF, 0x04000000⟩, ⟨0xFFFFFFFF, 0x10000000⟩, ⟨0xFFC00000, 0x11000000⟩, ⟨0xFF3FFFFF, 0x12000000⟩,
   ⟨0xFFFFFFFF, 0x13000000⟩, ⟨0xFF3FFFFF, 0x20000000⟩, ⟨0xFF3FFFFF, 0x21000000⟩, ⟨0xFFFFFFFF, 0x30000000⟩,
   ⟨0xFFFFFFFF, 0xFF000000⟩]

/-- The opcodes of R92. -/
def knownOpcodes : List (BitVec 8) :=
  [0x00, 0x01, 0x02, 0x03, 0x04, 0x10, 0x11, 0x12, 0x13, 0x20, 0x21, 0x30, 0xFF]

/-- Decode a command word by the rows of R92; a word no row matches is reserved (R93, R94). -/
def decodeCommand (v : Word) : Except Reserved Instr :=
  if rowHit v 0xFFFFFFFF 0x00000000 then .ok .nop
  else if rowHit v 0xFFFFFFFF 0x01000000 then .ok .curInit
  else if rowHit v 0xFFC0FFFF 0x02000000 then .ok (.curNeed (fieldNB v))
  else if rowHit v 0xFFC0FFFF 0x03000000 then .ok (.curRead (fieldNB v))
  else if rowHit v 0xFFC0FFFF 0x04000000 then .ok (.curDrop (fieldNB v))
  else if rowHit v 0xFFFFFFFF 0x10000000 then .ok .bldClear
  else if rowHit v 0xFFC00000 0x11000000 then .ok (.bldAdd (fieldNB v) (fieldSYM v))
  else if rowHit v 0xFF3FFFFF 0x12000000 then .ok (.bldBuild (fieldTR v))
  else if rowHit v 0xFFFFFFFF 0x13000000 then .ok .dictInit
  else if rowHit v 0xFF3FFFFF 0x20000000 then .ok (.hufRead (fieldTR v))
  else if rowHit v 0xFF3FFFFF 0x21000000 then .ok (.descRead (fieldTR v))
  else if rowHit v 0xFFFFFFFF 0x30000000 then .ok .datDecode
  else if rowHit v 0xFFFFFFFF 0xFF000000 then .ok .softReset
  else if (knownOpcodes.contains (v.extractLsb' 24 8)) then .error .nonzeroField
  else .error .unknownOpcode

/-- The class of a token symbol: the first row of R106 that contains it (R109). -/
def decodeToken (s : Sym) : Instr :=
  if s < 0x100 then .lit (BitVec.ofNat 8 s)
  else if s / 4 = 0x40 then .cpyB0 (BitVec.ofNat 2 s)
  else if s / 4 = 0x41 then .cpyB1 (BitVec.ofNat 2 s)
  else if s / 4 = 0x42 then .cpyB2 (BitVec.ofNat 2 s)
  else if s / 4 = 0x43 then .cpyB3 (BitVec.ofNat 2 s)
  else if s / 4 = 0x44 then .cpyB4 (BitVec.ofNat 2 s)
  else if s / 4 = 0x45 then .cpyB5 (BitVec.ofNat 2 s)
  else if s / 4 = 0x46 then .cpyB6 (BitVec.ofNat 2 s)
  else if s = 0x11C then .cpyFF
  else .cpyRsv s

/-- The class of an offset symbol (R108). -/
def decodeOffset (t : Sym) : Instr :=
  if t / 2 = 0 then .offB0 (BitVec.ofNat 1 t)
  else if t / 2 = 1 then .offB1 (BitVec.ofNat 1 t)
  else if t / 2 = 2 then .offB2 (BitVec.ofNat 1 t)
  else if t / 2 = 3 then .offB3 (BitVec.ofNat 1 t)
  else if t / 2 = 4 then .offB4 (BitVec.ofNat 1 t)
  else if t / 2 = 5 then .offB5 (BitVec.ofNat 1 t)
  else if t / 2 = 6 then .offB6 (BitVec.ofNat 1 t)
  else if t / 2 = 7 then .offB7 (BitVec.ofNat 1 t)
  else if t / 2 = 8 then .offB8 (BitVec.ofNat 1 t)
  else if t / 2 = 9 then .offB9 (BitVec.ofNat 1 t)
  else if t / 2 = 10 then .offB10 (BitVec.ofNat 1 t)
  else if t / 2 = 11 then .offB11 (BitVec.ofNat 1 t)
  else if t / 2 = 12 then .offB12 (BitVec.ofNat 1 t)
  else if t / 2 = 13 then .offB13 (BitVec.ofNat 1 t)
  else if t / 2 = 14 then .offB14 (BitVec.ofNat 1 t)
  else if t / 2 = 15 then .offB15 (BitVec.ofNat 1 t)
  else if t / 2 = 16 then .offB16 (BitVec.ofNat 1 t)
  else .offRsv t

/-- c[4:0] of a description code: the code length (R104). -/
def descLength (c : Sym) : Nat := c % 32

/-- c[`SYM_BITS` - 1 : 5] of a description code: the run count minus one (R104). -/
def descCountField (symBits : Nat) (c : Sym) : Nat := c % 2 ^ symBits / 32

/-- The class of a description code: `DESC_SKIP` when c[4:0] = 0, `DESC_RUN` otherwise (R104, R109). -/
def decodeDesc (symBits : Nat) (c : Sym) : Instr :=
  if descLength c = 0 then .descSkip (descCountField symBits c)
  else .descRun (BitVec.ofNat 5 c) (descCountField symBits c)

/-- Decode a stream symbol of `SYM_BITS` bits by the format its place in the stream gives it (R5, R109). -/
def decodeElement (symBits : Nat) : StreamSymbol → Instr
  | .token s => decodeToken (s % 2 ^ symBits)
  | .offset t => decodeOffset (t % 2 ^ symBits)
  | .desc c => decodeDesc symBits c

/-- Decode whatever the machine is given; only a command word can be rejected, by name (R93). -/
def decode (symBits : Nat) : Fetched → Except Reserved Instr
  | .command v => decodeCommand v
  | .element e => .ok (decodeElement symBits e)

/-! ### The encoder -/

/-- A command word from its four fields (R90). -/
def packCommand (opc : BitVec 8) (tr : BitVec 2) (nb : BitVec 6) (sy : BitVec 16) : Word := opc ++ tr ++ nb ++ sy

/-- The copy symbol of bucket q with low bits r (R106). -/
def packToken (q : Nat) (r : BitVec 2) : Fetched := .element (.token (0x100 + 4 * q + r.toNat))

/-- The offset symbol of bucket q2 with low bit r2 (R108). -/
def packOffset (q : Nat) (r : BitVec 1) : Fetched := .element (.offset (2 * q + r.toNat))

/-- The words of a well-formed instruction (R90, R92, R104, R106, R108). -/
def encode : Instr → Fetched
  | .nop => .command (packCommand 0x00 0 0 0)
  | .curInit => .command (packCommand 0x01 0 0 0)
  | .curNeed nb => .command (packCommand 0x02 0 nb 0)
  | .curRead nb => .command (packCommand 0x03 0 nb 0)
  | .curDrop nb => .command (packCommand 0x04 0 nb 0)
  | .bldClear => .command (packCommand 0x10 0 0 0)
  | .bldAdd nb sy => .command (packCommand 0x11 0 nb sy)
  | .bldBuild tr => .command (packCommand 0x12 tr.toBits 0 0)
  | .dictInit => .command (packCommand 0x13 0 0 0)
  | .hufRead tr => .command (packCommand 0x20 tr.toBits 0 0)
  | .descRead tr => .command (packCommand 0x21 tr.toBits 0 0)
  | .datDecode => .command (packCommand 0x30 0 0 0)
  | .softReset => .command (packCommand 0xFF 0 0 0)
  | .lit b => .element (.token b.toNat)
  | .cpyB0 r => packToken 0 r
  | .cpyB1 r => packToken 1 r
  | .cpyB2 r => packToken 2 r
  | .cpyB3 r => packToken 3 r
  | .cpyB4 r => packToken 4 r
  | .cpyB5 r => packToken 5 r
  | .cpyB6 r => packToken 6 r
  | .cpyFF => .element (.token 0x011C)
  | .cpyRsv s => .element (.token s)
  | .offB0 r => packOffset 0 r
  | .offB1 r => packOffset 1 r
  | .offB2 r => packOffset 2 r
  | .offB3 r => packOffset 3 r
  | .offB4 r => packOffset 4 r
  | .offB5 r => packOffset 5 r
  | .offB6 r => packOffset 6 r
  | .offB7 r => packOffset 7 r
  | .offB8 r => packOffset 8 r
  | .offB9 r => packOffset 9 r
  | .offB10 r => packOffset 10 r
  | .offB11 r => packOffset 11 r
  | .offB12 r => packOffset 12 r
  | .offB13 r => packOffset 13 r
  | .offB14 r => packOffset 14 r
  | .offB15 r => packOffset 15 r
  | .offB16 r => packOffset 16 r
  | .offRsv t => .element (.offset t)
  | .descSkip cm1 => .element (.desc (32 * cm1))
  | .descRun len cm1 => .element (.desc (32 * cm1 + len.toNat))

/-! ### Words of the opcode table -/

/-- The format taken for a table word of 16 bits or fewer, where the stream that would say it is missing: the three
formats overlap, so the row with the most fixed bits is taken, and `CPY_RSV` where only catch-all rows are left;
a word of 8 bits can only be `DESC_SKIP`'s. DESIGN CHOICE, log 3. -/
def elementOfTableWord (nbits w : Nat) : StreamSymbol :=
  let s : Sym := w % 2 ^ 16
  if nbits ≤ 8 then .desc s
  else if s < 34 then .offset s
  else if s < 0x11D then .token s
  else if descLength s = 0 then .desc s
  else .token s

/-- What a word of the opcode table is to the machine: a command, or a stream symbol (16 bits or fewer). -/
def fetchedOfTableWord (nbits w : Nat) : Fetched :=
  if 16 < nbits then .command (BitVec.ofNat 32 w) else .element (elementOfTableWord nbits w)

/-- The instruction the decoder reads from a word numbered as spec/opcode_table.json numbers it; the table is written for
`SYM_BITS` = 16 (log 7). -/
def decodeTableWord (nbits w : Nat) : Option Instr :=
  match decode 16 (fetchedOfTableWord nbits w) with
  | .ok i => some i
  | .error _ => none

end Sys2Proof
end

