-- ==== Sys2Proof/Config.lean ====
section
/-! DEFINITION. What an implementation fixes (the parameters of R5) and the values the spec leaves open. -/

namespace Sys2Proof

/-- `CODE_LAYOUT` (R5): which end of the code space long codes occupy. -/
inductive CodeLayout
  | longAtTop
  | shortAtTop
  deriving DecidableEq, Repr

/-- `CONST_ADD_SCOPE` (R5, R247): how often the const-add field is read. -/
inductive ConstAddScope
  | perBlock
  | perCall
  deriving DecidableEq, Repr

/-- `MAX_CODE_BITS` (R5): the longest code length, fixed by the source. -/
abbrev maxCodeBits : Nat := 32

/-- The implementation parameters of R5 with their default values, constant for one machine.
The defaults that R5 marks as general knowledge are listed in log 19. -/
structure Config where
  /-- `HASH_BITS` -/
  hashBits : Nat := 8
  /-- `MAX_SYMBOLS` -/
  maxSymbols : Nat := 285
  /-- `SYM_BITS`: how many bits a stored symbol and a description code have (log 7) -/
  symBits : Nat := 16
  /-- `SKIP_STRIDE`, in words -/
  skipStride : Nat := 0x4000
  /-- `CODE_LAYOUT` -/
  codeLayout : CodeLayout := .longAtTop
  /-- `CONST_ADD_SCOPE` -/
  constAddScope : ConstAddScope := .perBlock
  /-- `OFFSET_MAX_BUCKET` -/
  offsetMaxBucket : Nat := 16
  /-- `MAXCOUNT_BITS` -/
  maxCountBits : Nat := 4
  /-- `MAXCOUNT_SHIFT` -/
  maxCountShift : Nat := 12
  /-- `DAT_DICT_TABLE`: (symbol, code length) pairs in order -/
  dictTable : List (Sym × BitVec 6)
  deriving DecidableEq, Repr

/-- The width of `MAXCOUNT` and `COUNT` (R48): what the largest count of R248 needs, 17 bits at the defaults (log 23). -/
def Config.countBits (c : Config) : Nat := c.maxCountBits + c.maxCountShift + 1

/-- A value as `MAXCOUNT` or `COUNT` holds it (R48). -/
def Config.countReg (c : Config) (n : Nat) : Nat := n % 2 ^ c.countBits

/-- The ranges 93_implementation_defined.md gives the parameters; that every symbol below `MAX_SYMBOLS` has a `SYM_BITS`-bit
value is DEDUCED from R5, and that it fits `RESULT` from R25 (log 7). -/
abbrev Config.wf (c : Config) : Prop :=
  1 ≤ c.hashBits ∧ c.hashBits ≤ 32 ∧ 0x11D ≤ c.maxSymbols ∧ 9 ≤ c.symBits ∧ c.maxSymbols ≤ 2 ^ c.symBits ∧
  2 ≤ c.skipStride ∧ 2 * c.offsetMaxBucket + 1 < c.maxSymbols ∧ c.maxCountBits ≤ 32 ∧
  c.maxSymbols ≤ 2 ^ 32

/-- `DAT_DICT_TABLE` is OPEN (R5, D19): nothing is known of the list a real block is built with (log 6). -/
opaque Config.datDictTable : List (Sym × BitVec 6)

/-- The machine that reset starts: every parameter at its default, the dictionary table open. -/
def Config.machine : Config := { dictTable := Config.datDictTable }

/-- What an address of IN holds that the host has not written: unknown, but one value per address (R69, log 13). -/
opaque Config.inUnwritten : Nat → Byte

/-- An unspecified value (R293, U1): the draw's number, and which element of the state it is for (log 9). -/
opaque Config.freeNat : Nat → List Nat → Nat

end Sys2Proof
end

