-- ==== Sys2Proof/Machine/State.lean ====
section
/-! DEFINITION. The machine's state as plain data: every element R20 to R52 give it, and its value after reset (R50). -/

namespace Sys2Proof.Machine

/-- The error kinds of R290. -/
inductive ErrKind
  | invalidInput
  | corrupt
  | truncated
  /-- code 4, reserved: no rule raises it (R303) -/
  | unsupported
  deriving DecidableEq, Repr

/-- The BitCursor's registers (R34 to R38). -/
structure Cursor where
  /-- `HEAD`, the upper half of the window (R34) -/
  head : Word
  /-- `BUF`, the lower half of the window (R34) -/
  buf : Word
  /-- `BITS`, how many bits at the top of the window are valid (R35) -/
  bits : BitVec 6
  /-- `POS`, a word index into IN (R36) -/
  pos : Word
  /-- `LIMIT`, the number of whole input words (R37) -/
  limit : Word
  /-- `EXH`, the exhausted flag (R38) -/
  exh : Bool
  deriving DecidableEq, Repr

/-- The HuffmanBuilder (R40, R41). The entry of code length L is at index L - 1; a symbol has `SYM_BITS` bits (log 7). -/
structure Builder where
  /-- `BHEAD` -/
  bhead : List Sym
  /-- `BHV` -/
  bhv : List Bool
  /-- `BNEXT` -/
  bnext : List Sym
  /-- `BNV` -/
  bnv : List Bool
  /-- `BPRES` -/
  bpres : List Bool
  deriving DecidableEq, Repr

/-- A hash slot (R44): `HSYM` and `HLEN`; length 0 marks a miss. -/
structure HashEntry where
  sym : Sym
  len : Nat
  deriving DecidableEq, Repr

/-- A threshold entry (R45): `THR`, `TLEN`, `TOFF`, `TCNT`. -/
structure LongEntry where
  thr : Word
  len : Nat
  off : Nat
  cnt : Nat
  deriving DecidableEq, Repr

/-- A tree slot (R43 to R46). `NLONG` is the length of `long`; entries past the end of a list are 0 (log 15). -/
structure Slot where
  /-- `EMPTY` -/
  empty : Bool
  /-- `HSYM` and `HLEN`, by hash index -/
  hash : List HashEntry
  /-- the threshold entries -/
  long : List LongEntry
  /-- `SYMARR` -/
  symArr : List Sym
  deriving DecidableEq, Repr

/-- The DatBlockDecoder's registers (R48), and the two values a stream element needs from the command around it
(log 4, log 5). -/
structure Decoder where
  /-- `OUTPOS` -/
  outPos : Word
  /-- `EFF` -/
  eff : Word
  /-- `CONSTADD` -/
  constAdd : BitVec 5
  /-- `MAXCOUNT`, a register of `Config.countBits` bits: 17 at the defaults (log 23) -/
  maxCount : Nat
  /-- `COUNT`, of the same width (log 23) -/
  count : Nat
  /-- the size of the copy under way (R240, R252) -/
  copySize : Nat
  /-- `rem`, the signed remaining-symbol index of a description (R220) -/
  descRem : Int
  deriving DecidableEq, Repr

/-- IN or OUT: the bytes the model knows, addresses strictly rising; an address not listed has no known value (log 13). -/
abbrev Memory := List Host.Cell

/-- Which of the block's two memories (R60). -/
inductive MemSel
  | input
  | output
  deriving DecidableEq, Repr

/-- What can reach the block between commands (R20, R22, R73): the host's register and memory accesses and a hardware
reset (R320). `element` is the model's own: one stream element to run by itself (log 2). -/
inductive Input
  | regWrite (off v : Word)
  | regRead (off : Word)
  | memWrite (m : MemSel) (a : Word) (b : Byte)
  | memRead (m : MemSel) (a : Word)
  | hardReset
  | element (e : StreamSymbol)
  deriving DecidableEq, Repr

/-- The stops of a step. No instruction raises one: an error of the block is a next state with `ERR` set (R292), every
access of the block stays inside its memories (R65, R66), and every instruction has an effect. -/
inductive Fault
  /-- The host reads or writes a byte at or past the end of the OUT the block provided: that OUT has exactly `EFF` bytes
  (R67, R245), so the byte does not exist. Raised by `step` for a host access alone; safe (log 14). -/
  | noSuchOutByte
  deriving DecidableEq, Repr

/-- Refusals of a step. -/
inductive Refusal
  /-- An instruction without a meaning, raised by `exec` alone; safe. No arm of `exec` uses it: every row is modelled. -/
  | notModelled (mnemonic : String)
  deriving DecidableEq, Repr

/-- The whole machine. -/
structure State where
  /-- the parameters of R5, constant: no step writes them (log 6) -/
  cfg : Config
  /-- `ERR`: none is code 0 (R24, R49) -/
  err : Option ErrKind
  /-- `RESULT` (R25) -/
  result : Word
  /-- `IN_LEN` (R26) -/
  inLen : Word
  /-- `CTRL.IN_PRESENT` (R27) -/
  inPresent : Bool
  /-- `CTRL.OUT_PRESENT` (R27) -/
  outPresent : Bool
  /-- `OUT_SIZE` (R28) -/
  outSize : Word
  /-- the BitCursor -/
  cur : Cursor
  /-- the HuffmanBuilder -/
  bld : Builder
  /-- tree slot `DICT` -/
  dict : Slot
  /-- tree slot `SYM` -/
  sym : Slot
  /-- tree slot `COPY` -/
  copy : Slot
  /-- `DICT_VALID` (R47) -/
  dictValid : Bool
  /-- the DatBlockDecoder's registers -/
  dec : Decoder
  /-- IN (R61) -/
  inMem : Memory
  /-- OUT (R66) -/
  outMem : Memory
  /-- the length of OUT where the block provided it (R67, R245); `none` where OUT is the host's, whose length only the host
  knows (R68, log 14, log 20) -/
  outLen : Option Word
  /-- the model's own: how many draws of unspecified values were made (log 9) -/
  free : Nat
  /-- the model's own: inputs not yet served, oldest first (log 1) -/
  inputs : List Input
  /-- the model's own: what the last host read returned (log 18) -/
  hostData : Word
  deriving DecidableEq, Repr

/-- R50: the cursor at reset. -/
def Cursor.reset : Cursor := ⟨0, 0, 0, 0, 0, false⟩

/-- R50: the builder at reset, which is the builder R170 clears to. -/
def Builder.reset (cfg : Config) : Builder where
  bhead := List.replicate maxCodeBits 0
  bhv := List.replicate maxCodeBits false
  bnext := List.replicate cfg.maxSymbols 0
  bnv := List.replicate cfg.maxSymbols false
  bpres := List.replicate cfg.maxSymbols false

/-- R50: a tree slot at reset, which is the slot R179 builds from no symbols. -/
def Slot.reset (cfg : Config) : Slot where
  empty := true
  hash := List.replicate (2 ^ cfg.hashBits) ⟨0, 0⟩
  long := []
  symArr := []

/-- R50: the decoder's registers at reset; the last two fields are the model's (log 21). -/
def Decoder.reset : Decoder := ⟨0, 0, 0, 0, 0, 0, 0⟩

/-- R50 for a machine with parameters `cfg`, with nothing known of IN and OUT, no OUT provided and no input pending. -/
def State.resetOf (cfg : Config) : State where
  cfg := cfg
  err := none
  result := 0
  inLen := 0
  inPresent := false
  outPresent := false
  outSize := 0
  cur := Cursor.reset
  bld := Builder.reset cfg
  dict := Slot.reset cfg
  sym := Slot.reset cfg
  copy := Slot.reset cfg
  dictValid := false
  dec := Decoder.reset
  inMem := []
  outMem := []
  outLen := none
  free := 0
  inputs := []
  hostData := 0

/-- The machine right after reset (R50, R320). -/
def State.reset : State := State.resetOf Config.machine

/-! ### Updates of one element -/

def State.withErr (s : State) (x : Option ErrKind) : State := { s with err := x }
def State.withResult (s : State) (x : Word) : State := { s with result := x }
def State.withInLen (s : State) (x : Word) : State := { s with inLen := x }
def State.withPresent (s : State) (i o : Bool) : State := { s with inPresent := i, outPresent := o }
def State.withOutSize (s : State) (x : Word) : State := { s with outSize := x }
def State.withCur (s : State) (x : Cursor) : State := { s with cur := x }
def State.withBld (s : State) (x : Builder) : State := { s with bld := x }
def State.withDict (s : State) (x : Slot) : State := { s with dict := x }
def State.withSym (s : State) (x : Slot) : State := { s with sym := x }
def State.withCopy (s : State) (x : Slot) : State := { s with copy := x }
def State.withDictValid (s : State) (x : Bool) : State := { s with dictValid := x }
def State.withDec (s : State) (x : Decoder) : State := { s with dec := x }
def State.withInMem (s : State) (x : Memory) : State := { s with inMem := x }
def State.withOutMem (s : State) (x : Memory) : State := { s with outMem := x }
def State.withOutLen (s : State) (x : Option Word) : State := { s with outLen := x }
def State.withFree (s : State) (x : Nat) : State := { s with free := x }
def State.withInputs (s : State) (x : List Input) : State := { s with inputs := x }
def State.withHostData (s : State) (x : Word) : State := { s with hostData := x }

end Sys2Proof.Machine
end

