-- ==== Sys2Proof/Machine/Operands.lean ====
section
/-! DEFINITION. The operand forms of a command (R90, R91): the count NB, the symbol SYM, the tree selector TR. -/

namespace Sys2Proof.Machine

/-- The three tree slots (R43). -/
inductive SlotId
  | dict
  | sym
  | copy
  deriving DecidableEq, Repr

/-- `NB`, a count or a code length, read zero-extended (R91). -/
def operandNB (nb : BitVec 6) : Nat := nb.toNat

/-- `TR`, the slot it names; `none` for the reserved value 3 (R91). -/
def operandTR : TreeSel → Option SlotId
  | .dict => some .dict
  | .sym => some .sym
  | .copy => some .copy
  | .rsv => none

/-- Tree slot t (R43). -/
def State.slot (s : State) : SlotId → Slot
  | .dict => s.dict
  | .sym => s.sym
  | .copy => s.copy

/-- Write tree slot t (R43). -/
def State.withSlot (s : State) (t : SlotId) (x : Slot) : State :=
  match t with
  | .dict => s.withDict x
  | .sym => s.withSym x
  | .copy => s.withCopy x

/-- A value of `n` bits as it stands in a 32-bit result register, zero-extended (R8, R25). -/
def zext32 {n : Nat} (v : BitVec n) : Word := v.setWidth 32

/-- `SYM` as a symbol value, zero-extended (R91). -/
def operandSYM (sy : BitVec 16) : Sym := sy.toNat

/-- A symbol as it stands in a 32-bit result register, zero-extended (R25, log 7). -/
def symbolWord (sy : Sym) : Word := BitVec.ofNat 32 sy

/-- The copy symbol minus 0x100 of bucket q with low bits r (R106). -/
def copyCode (q : Nat) (r : BitVec 2) : Nat := 4 * q + r.toNat

/-- The offset symbol of bucket q2 with low bit r2 (R108). -/
def offsetCode (q : Nat) (r : BitVec 1) : Nat := 2 * q + r.toNat

/-- A run count from its count-minus-one field (R104). -/
def runCount (cm1 : Nat) : Nat := cm1 + 1

end Sys2Proof.Machine
end

