-- ==== Sys2Proof/Machine/Flags.lean ====
section
/-! DEFINITION. The status and control words a host sees (R24, R27, R32) and the error codes (R290). -/

namespace Sys2Proof.Machine

/-- The `ERR` code of an error kind (R290). -/
def ErrKind.code : ErrKind → BitVec 3
  | .invalidInput => 1
  | .corrupt => 2
  | .truncated => 3
  | .unsupported => 4

/-- `STATUS[2:0]` (R24). -/
def errCode : Option ErrKind → BitVec 3
  | none => 0
  | some e => e.code

/-- A one-bit field. -/
def bit1 (b : Bool) : BitVec 1 := if b then 1 else 0

/-- `STATUS` (R24). -/
def statusWord (s : State) : Word :=
  zext32 (bit1 s.copy.empty ++ bit1 s.sym.empty ++ bit1 s.dict.empty ++ bit1 s.dictValid ++ bit1 s.cur.exh ++
    errCode s.err)

/-- `CTRL` (R27). -/
def ctrlWord (s : State) : Word := zext32 (bit1 s.outPresent ++ bit1 s.inPresent)

/-- `CUR_BITS` (R32). -/
def curBitsWord (s : State) : Word := zext32 s.cur.bits

end Sys2Proof.Machine
end

