-- ==== Sys2Proof/Machine/Ops.lean ====
section
/-! DEFINITION. The named operations: the two memories, NEED/READ/DROP/PULL, the builder, table construction,
READCODE, DESC, the stream elements, and raising an error. -/

namespace Sys2Proof.Machine

/-! ### Memories (R60, log 13) -/

/-- The byte the model knows at an address; `none` where it knows none. -/
def Memory.read? : Memory → Nat → Option Byte
  | [], _ => none
  | (k, b) :: m, a => if k = a then some b else Memory.read? m a

/-- Write one byte. -/
def Memory.write : Memory → Nat → Byte → Memory
  | [], a, v => [(a, v)]
  | (k, b) :: m, a, v =>
    if a < k then (a, v) :: (k, b) :: m
    else if a = k then (a, v) :: m
    else (k, b) :: Memory.write m a v

/-- Forget the byte at one address. -/
def Memory.erase (m : Memory) (a : Nat) : Memory := m.filter fun c => decide (c.1 ≠ a)

/-- Forget every byte below an address. -/
def Memory.eraseBelow (m : Memory) (n : Nat) : Memory := m.filter fun c => decide (n ≤ c.1)

/-- Write what `v` says: a byte, or that the byte is not known. -/
def Memory.put (m : Memory) (a : Nat) : Option Byte → Memory
  | some b => m.write a b
  | none => m.erase a

/-- Every address lies in the 32-bit space and above `lo`, strictly rising. -/
def Memory.risingFrom : Nat → Memory → Bool
  | _, [] => true
  | lo, (k, _) :: m => decide (lo ≤ k) && decide (k < 2 ^ 32) && Memory.risingFrom (k + 1) m

/-- The canonical form: addresses strictly rising inside the 32-bit space, so equal memories are equal lists. -/
def Memory.wf (m : Memory) : Bool := Memory.risingFrom 0 m

/-- A byte of IN: what the host wrote, else the unknown but fixed byte of that address (R61, R69, log 13). -/
def inByte (m : Memory) (a : Nat) : Byte := (m.read? a).getD (Config.inUnwritten a)

/-- Byte k of input word p, at a 32-bit address (R60, R62, log 16). -/
def inWordByte (m : Memory) (p k : Nat) : Byte := inByte m ((4 * p + k) % 2 ^ 32)

/-- `word(p)` = MemRead(IN, 4p, 4), little-endian (R62). -/
def inWord (m : Memory) (p : Nat) : Word :=
  inWordByte m p 3 ++ inWordByte m p 2 ++ inWordByte m p 1 ++ inWordByte m p 0

/-! ### The cursor (R141 to R148) -/

/-- The window `HEAD ‖ BUF` (R34). -/
def Cursor.window (c : Cursor) : BitVec 64 := c.head ++ c.buf

/-- Put a window value back into `HEAD` and `BUF` (R34). -/
def Cursor.withWindow (c : Cursor) (w : BitVec 64) : Cursor :=
  { c with head := w.extractLsb' 32 32, buf := w.extractLsb' 0 32 }

/-- R141: the cursor at byte 0 of an input of `inLen` bytes. -/
def Cursor.init (inLen : Word) : Cursor := { Cursor.reset with limit := inLen >>> 2 }

/-- The index a pull tests and reads, after the skip rule (R146), for every stride, word 1 of the header with a stride of 2
included (DESIGN CHOICE, log 25). -/
def skipIndex (cfg : Config) (p : Nat) : Nat := if (p + 1) % cfg.skipStride = 0 then p + 1 else p

/-- Merge a pulled word directly below the valid bits and advance (R145). -/
def Cursor.merge (c : Cursor) (p : Nat) (v : Word) : Cursor :=
  let w := c.window ||| (v.setWidth 64 <<< (32 - c.bits.toNat))
  { c.withWindow w with bits := c.bits + 32, pos := BitVec.ofNat 32 (p + 1) }

/-- `PULL()` (R145, R146, R147). -/
def Cursor.pull (cfg : Config) (m : Memory) (c : Cursor) : Except ErrKind Cursor :=
  let p := skipIndex cfg c.pos.toNat
  if c.limit.toNat ≤ p then
    if c.exh then .error .truncated else .ok ({ c with exh := true }.merge p 0)
  else .ok (c.merge p (inWord m p))

/-- `NEED(n)` (R142). -/
def Cursor.need (cfg : Config) (m : Memory) (c : Cursor) (n : Nat) : Except ErrKind Cursor :=
  if 32 < n then .error .invalidInput
  else if c.bits.toNat < n then c.pull cfg m
  else .ok c

/-- `READ(n)` (R144). -/
def Cursor.read (c : Cursor) (n : Nat) : Except ErrKind Word :=
  if 32 < n then .error .invalidInput
  else if n = 0 then .ok 0
  else .ok (c.head >>> (32 - n))

/-- The cursor with the top n bits consumed (R148). -/
def Cursor.dropped (c : Cursor) (n : Nat) : Cursor :=
  { c.withWindow (c.window <<< n) with bits := c.bits - BitVec.ofNat 6 n }

/-- `DROP(n)` (R148). -/
def Cursor.drop (c : Cursor) (n : Nat) : Except ErrKind Cursor :=
  if 32 < n then .error .invalidInput
  else if c.bits.toNat < n then .error .invalidInput
  else .ok (c.dropped n)

/-! ### The builder (R170, R171, R42) -/

/-- `CLEAR()` (R170). -/
def Builder.clear (cfg : Config) : Builder := Builder.reset cfg

/-- `BHV[L]` -/
def Builder.valid (b : Builder) (len : Nat) : Bool := b.bhv.getD (len - 1) false

/-- `BHEAD[L]` -/
def Builder.headOf (b : Builder) (len : Nat) : Sym := b.bhead.getD (len - 1) 0

/-- `BPRES[s]` -/
def Builder.present (b : Builder) (sy : Sym) : Bool := b.bpres.getD sy false

/-- The builder with symbol s put at the head of bucket L (the writes of R171). -/
def Builder.insert (b : Builder) (sy : Sym) (len : Nat) : Builder :=
  { bhead := b.bhead.set (len - 1) sy
    bhv := b.bhv.set (len - 1) true
    bnext := if b.valid len then b.bnext.set sy (b.headOf len) else b.bnext
    bnv := b.bnv.set sy (b.valid len)
    bpres := b.bpres.set sy true }

/-- `ADD(s, L)` (R171). -/
def Builder.add (cfg : Config) (b : Builder) (sy len : Nat) : Except ErrKind Builder :=
  if len < 1 ∨ maxCodeBits < len then .error .invalidInput
  else if cfg.maxSymbols ≤ sy then .error .invalidInput
  else if b.present sy then .error .invalidInput
  else .ok (b.insert sy len)

/-- Follow `BNEXT` from a symbol while `BNV` holds (R42), at most `n` symbols (log 17). -/
def Builder.follow (b : Builder) : Nat → Sym → List Sym
  | 0, _ => []
  | n + 1, sy =>
    sy :: (if b.bnv.getD sy false then b.follow n (b.bnext.getD sy 0) else [])

/-- The bucket list of length L (R42): insertion order reversed. -/
def Builder.bucket (cfg : Config) (b : Builder) (len : Nat) : List Sym :=
  if b.valid len then b.follow cfg.maxSymbols (b.headOf len) else []

/-- Whether no bucket holds a symbol (R172). -/
def Builder.isEmpty (b : Builder) : Bool := (List.range maxCodeBits).all fun i => !b.valid (i + 1)

/-! ### Code assignment and tables (R172 to R177) -/

/-- The codes of one length: `syms[k]` has the `len`-bit code `base + k`, ascending (R182). -/
structure Group where
  len : Nat
  base : Nat
  syms : List Sym
  deriving DecidableEq, Repr

/-- The group of a bucket list whose first symbol gets the largest of the `f` free codes (R173, R174). -/
def Group.ofBucket (len f : Nat) (l : List Sym) : Group := ⟨len, f - l.length, l.reverse⟩

/-- How many codes of a length are free in `LongAtTop`: all of them until `started`, then half, rounded down, of those left
of the length above (R173). -/
def longFree (len : Nat) : Option Nat → Nat
  | none => 2 ^ len
  | some f => f / 2

/-- `ASSIGN()` for `LongAtTop` (R173), from length `len` down. `st` is `none` until `started`, then the pseudocode's
c + 1: how many codes of the length last handled are still free. `none` is over-subscription (R175). -/
def assignLong (bucket : Nat → List Sym) : Nat → Option Nat → Option (List Group)
  | 0, _ => some []
  | len + 1, st =>
    let l := bucket (len + 1)
    if l.isEmpty then assignLong bucket len (st.map (· / 2))
    else
      let f := longFree (len + 1) st
      if f < l.length then none
      else (assignLong bucket len (some (f - l.length))).map (Group.ofBucket (len + 1) f l :: ·)

/-- `ASSIGN()` for `ShortAtTop` (R174): `n` lengths are left, `f` is the pseudocode's c + 1 of the length before. -/
def assignShort (bucket : Nat → List Sym) : Nat → Nat → Option (List Group)
  | 0, _ => some []
  | n + 1, f =>
    let len := maxCodeBits - n
    let l := bucket len
    let f := 2 * f
    if l.isEmpty then assignShort bucket n f
    else if f < l.length then none
    else (assignShort bucket n (f - l.length)).map (Group.ofBucket len f l :: ·)

/-- `ASSIGN()` in the machine's layout (R173, R174). -/
def Builder.assign (cfg : Config) (b : Builder) : Option (List Group) :=
  match cfg.codeLayout with
  | .longAtTop => assignLong (b.bucket cfg) maxCodeBits none
  | .shortAtTop => assignShort (b.bucket cfg) maxCodeBits 1

/-- Whether hash index h of `hb` bits begins with a code of the group (R176). -/
def Group.covers (hb : Nat) (h : Nat) (g : Group) : Bool :=
  decide (g.len ≤ hb) && decide (g.base <<< (hb - g.len) ≤ h) && decide (h < (g.base + g.syms.length) <<< (hb - g.len))

/-- What `FILL_HASH` leaves at index h (R176). -/
def hashEntryAt (hb : Nat) (gs : List Group) (h : Nat) : HashEntry :=
  match gs.find? (Group.covers hb h) with
  | some g => ⟨g.syms.getD ((h >>> (hb - g.len)) - g.base) 0, g.len⟩
  | none => ⟨0, 0⟩

/-- `FILL_HASH` (R176). -/
def fillHash (hb : Nat) (gs : List Group) : List HashEntry := (List.range (2 ^ hb)).map (hashEntryAt hb gs)

/-- The threshold of a group: its smallest code, left-aligned to 32 bits (R177). -/
def Group.thr (g : Group) : Nat := g.base <<< (maxCodeBits - g.len)

/-- Insert a group before the first with a smaller threshold (R177: "largest first"). -/
def insertByThr (g : Group) : List Group → List Group
  | [] => [g]
  | x :: xs => if x.thr ≤ g.thr then g :: x :: xs else x :: insertByThr g xs

/-- Sort groups by threshold, largest first (R177). -/
def sortByThr : List Group → List Group
  | [] => []
  | g :: gs => insertByThr g (sortByThr gs)

/-- The groups `FILL_LONG` stores, in its order (R177). -/
def longGroups (hb : Nat) (gs : List Group) : List Group := sortByThr (gs.filter fun g => decide (hb < g.len))

/-- `FILL_LONG`'s threshold entries, `off` symbols being stored already (R177). -/
def longEntries : Nat → List Group → List LongEntry
  | _, [] => []
  | off, g :: gs => ⟨BitVec.ofNat 32 g.thr, g.len, off, g.syms.length⟩ :: longEntries (off + g.syms.length) gs

/-- The tables of a code assignment (R172, R176, R177). -/
def Slot.ofGroups (hb : Nat) (gs : List Group) : Slot where
  empty := false
  hash := fillHash hb gs
  long := longEntries 0 (longGroups hb gs)
  symArr := (longGroups hb gs).flatMap Group.syms

/-- What `BUILD` stores in a slot (R172, R179); `none` is over-subscription (R175). -/
def Builder.build (cfg : Config) (b : Builder) : Option Slot :=
  if b.isEmpty then some (Slot.reset cfg)
  else (b.assign cfg).map (Slot.ofGroups cfg.hashBits)

/-- `ADD` every pair of a table in order (R180). -/
def Builder.addAll (cfg : Config) : Builder → List (Sym × BitVec 6) → Except ErrKind Builder
  | b, [] => .ok b
  | b, (sy, len) :: rest =>
    match b.add cfg sy len.toNat with
    | .ok b' => b'.addAll cfg rest
    | .error e => .error e

/-- The builder `DICTINIT` leaves and the dictionary tree it builds (R180). -/
def dictTables (cfg : Config) : Except ErrKind (Builder × Slot) :=
  match (Builder.clear cfg).addAll cfg cfg.dictTable with
  | .error e => .error e
  | .ok b =>
    match b.build cfg with
    | none => .error .corrupt
    | some sl => .ok (b, sl)

/-! ### Raising an error (R292, R293) -/

/-- Why a command ends: an error kind, and whether `DICTINIT` raised it on its own table (R180, log 11). -/
inductive Cause
  | err (k : ErrKind)
  | dict (k : ErrKind)
  deriving DecidableEq, Repr

/-- The kind of a cause. -/
def Cause.kind : Cause → ErrKind
  | .err k => k
  | .dict k => k

/-- An unspecified w-bit register: element `path` of draw `n` (R293, log 9). -/
def freeBits (w n : Nat) (path : List Nat) : BitVec w := BitVec.ofNat w (Config.freeNat n path)

/-- An unspecified symbol of `SYM_BITS` bits. -/
def freeSym (cfg : Config) (n : Nat) (path : List Nat) : Sym := Config.freeNat n path % 2 ^ cfg.symBits

/-- An unspecified code length of 6 bits (R6). -/
def freeLen (n : Nat) (path : List Nat) : Nat := Config.freeNat n path % 2 ^ 6

/-- An unspecified flag. -/
def freeFlag (n : Nat) (path : List Nat) : Bool := decide (Config.freeNat n path % 2 = 1)

/-- An unspecified cursor. -/
def freeCursor (n : Nat) : Cursor where
  head := freeBits 32 n [0, 0]
  buf := freeBits 32 n [0, 1]
  bits := freeBits 6 n [0, 2]
  pos := freeBits 32 n [0, 3]
  limit := freeBits 32 n [0, 4]
  exh := freeFlag n [0, 5]

/-- An unspecified builder with the entries R40 and R41 give it. -/
def freeBuilder (cfg : Config) (n : Nat) : Builder where
  bhead := (List.range maxCodeBits).map fun i => freeSym cfg n [1, 0, i]
  bhv := (List.range maxCodeBits).map fun i => freeFlag n [1, 1, i]
  bnext := (List.range cfg.maxSymbols).map fun i => freeSym cfg n [1, 2, i]
  bnv := (List.range cfg.maxSymbols).map fun i => freeFlag n [1, 3, i]
  bpres := (List.range cfg.maxSymbols).map fun i => freeFlag n [1, 4, i]

/-- An unspecified tree slot with the entries R43 to R46 give it; `t` numbers the slot. -/
def freeSlot (cfg : Config) (n t : Nat) : Slot where
  empty := freeFlag n [2, t, 0]
  hash := (List.range (2 ^ cfg.hashBits)).map fun i => ⟨freeSym cfg n [2, t, 1, i], freeLen n [2, t, 2, i]⟩
  long := (List.range (Config.freeNat n [2, t, 3] % (maxCodeBits - cfg.hashBits + 1))).map fun i =>
    ⟨freeBits 32 n [2, t, 4, i], freeLen n [2, t, 5, i], Config.freeNat n [2, t, 6, i], Config.freeNat n [2, t, 7, i]⟩
  symArr := (List.range cfg.maxSymbols).map fun i => freeSym cfg n [2, t, 8, i]

/-- Unspecified decoder registers, each of its width (R48). -/
def freeDecoder (cfg : Config) (n : Nat) : Decoder where
  outPos := freeBits 32 n [3, 0]
  eff := freeBits 32 n [3, 1]
  constAdd := freeBits 5 n [3, 2]
  maxCount := cfg.countReg (Config.freeNat n [3, 3])
  count := cfg.countReg (Config.freeNat n [3, 4])
  copySize := Config.freeNat n [3, 5]
  descRem := (Config.freeNat n [3, 6] : Int) - (Config.freeNat n [3, 7] : Int)

/-- `ERR <- code(E)` if `ERR` = 0 (R49, R292). -/
def State.setErr (s : State) (k : ErrKind) : State := s.withErr (some (s.err.getD k))

/-- `DICT_VALID` after an error: unspecified (R293), but 0 where `DICTINIT` failed on its own table (R180, log 11). -/
def dictValidAfter (c : Cause) (n : Nat) : Bool :=
  match c with
  | .err _ => freeFlag n [4]
  | .dict _ => false

/-- OUT after an error: bytes 0 to EFF - 1 of the host's OUT are unspecified, an OUT of the block is released
(R257, R293, log 12). -/
def outAfterError (s : State) : Memory := if s.outPresent then s.outMem.eraseBelow s.dec.eff.toNat else []

/-- Whose OUT it is after an error: an OUT of the block is released (R257, R293). -/
def outLenAfterError (s : State) : Option Word := if s.outPresent then s.outLen else none

/-- Taking an error, the machine's one exception (R292, R293): `ERR` is set; `IN_LEN`, `CTRL`, `OUT_SIZE`, `RESULT` and
IN are unchanged; every other element is unspecified. `s` is the state at the `raise`. -/
def State.raise (s : State) (c : Cause) : State :=
  { s.setErr c.kind with
    cur := freeCursor s.free
    bld := freeBuilder s.cfg s.free
    dict := freeSlot s.cfg s.free 0
    sym := freeSlot s.cfg s.free 1
    copy := freeSlot s.cfg s.free 2
    dictValid := dictValidAfter c s.free
    dec := freeDecoder s.cfg s.free
    outMem := outAfterError s
    outLen := outLenAfterError s
    free := s.free + 1 }

/-- Leaving the stop state, the machine's one return from an error (R295, R304, R320): every element takes its value of
R50; IN, OUT and what is not the block's stay. -/
def State.resetBlock (s : State) : State :=
  { State.resetOf s.cfg with
    inMem := s.inMem
    outMem := s.outMem
    outLen := s.outLen
    free := s.free
    inputs := s.inputs
    hostData := s.hostData }

/-! ### Sub-operations on the state (R10) -/

/-- How a sub-operation ends: with a value, or by a raise in some state (R10). -/
inductive Res (α : Type) where
  | ok (a : α) (s : State)
  | fail (c : Cause) (s : State)

/-- Go on with a sub-operation's value; a raise ends the command (R10). -/
def Res.andThen {α β : Type} (r : Res α) (k : α → State → Res β) : Res β :=
  match r with
  | .ok a s => k a s
  | .fail c s => .fail c s

/-- The state a command leaves: its last, or the one `raise` makes of the point where it ended (R292). -/
def Res.settle (r : Res Unit) : State :=
  match r with
  | .ok _ s => s
  | .fail c s => s.raise c

/-- The outcome of a command. -/
def finish (r : Res Unit) : Host.Outcome State Fault Refusal := .next r.settle

/-- `raise E` of a command's own checks. -/
def failWith {α : Type} (k : ErrKind) (s : State) : Res α := .fail (.err k) s

/-- A reserved command: `InvalidInput` and no other effect (R91, R93, log 10). -/
def reservedCommand (s : State) : State := s.setErr .invalidInput

/-- Run a cursor operation. -/
def onCursor (r : Except ErrKind Cursor) (s : State) : Res Unit :=
  match r with
  | .ok c => .ok () (s.withCur c)
  | .error k => failWith k s

/-- `NEED(n)` -/
def needBits (n : Nat) (s : State) : Res Unit := onCursor (s.cur.need s.cfg s.inMem n) s

/-- `DROP(n)` -/
def dropBits (n : Nat) (s : State) : Res Unit := onCursor (s.cur.drop n) s

/-- `READ(n)` -/
def readBits (n : Nat) (s : State) : Res Word :=
  match s.cur.read n with
  | .ok v => .ok v s
  | .error k => failWith k s

/-- `RESULT <- v` -/
def putResult (v : Word) (s : State) : Res Unit := .ok () (s.withResult v)

/-- A field of k bits: `NEED(k); v <- READ(k); DROP(k)` (30_encoding.md, "Dat stream syntax"). -/
def readField (k : Nat) (s : State) : Res Word :=
  (needBits k s).andThen fun _ s => (readBits k s).andThen fun v s => (dropBits k s).andThen fun _ s => .ok v s

/-- `CURINIT()`, the body of R141 after its check. -/
def curInit (s : State) : Res Unit := .ok () (s.withCur (Cursor.init s.inLen))

/-- `CLEAR()` -/
def clearBuilder (s : State) : Res Unit := .ok () (s.withBld (Builder.clear s.cfg))

/-- `ADD(s, L)` -/
def addSymbol (sy len : Nat) (s : State) : Res Unit :=
  match s.bld.add s.cfg sy len with
  | .ok b => .ok () (s.withBld b)
  | .error k => failWith k s

/-- `BUILD(t)` (R172, R175). -/
def buildSlot (t : SlotId) (s : State) : Res Unit :=
  match s.bld.build s.cfg with
  | some sl => .ok () (s.withSlot t sl)
  | none => failWith .corrupt s

/-- `DICTINIT()` (R180). -/
def dictInit (s : State) : Res Unit :=
  if s.dictValid then .ok () s
  else
    match dictTables s.cfg with
    | .ok (b, sl) => .ok () (((s.withBld b).withDict sl).withDictValid true)
    | .error k => .fail (.dict k) s

/-! ### READCODE (R210 to R213) -/

/-- The entry `SCAN` stops at: the first whose threshold is at most w (R212). -/
def scanLong (w : Word) : List LongEntry → Option LongEntry
  | [] => none
  | e :: es => if w < e.thr then scanLong w es else some e

/-- `SCAN(t)` on a slot: the symbol and the code length, `none` where no code begins the window (R212, R213). -/
def Slot.scan (sl : Slot) (w : Word) : Option (Sym × Nat) :=
  match scanLong w sl.long with
  | none => none
  | some e =>
    let k := (w.toNat - e.thr.toNat) >>> (32 - e.len)
    if e.cnt ≤ k then none else some (sl.symArr.getD (e.off + k) 0, e.len)

/-- The symbol and code length a slot finds for a window (R210 to R213). -/
def Slot.lookup (hb : Nat) (sl : Slot) (head : Word) : Option (Sym × Nat) :=
  let e := sl.hash.getD (head >>> (32 - hb)).toNat ⟨0, 0⟩
  if e.len ≠ 0 then some (e.sym, e.len) else sl.scan head

/-- `READCODE(t)` after its dictionary step (R210 to R213). -/
def readSlot (t : SlotId) (s : State) : Res Sym :=
  if (s.slot t).empty then failWith .corrupt s
  else
    (needBits 32 s).andThen fun _ s =>
      match (s.slot t).lookup s.cfg.hashBits s.cur.head with
      | none => failWith .corrupt s
      | some (sy, len) => (dropBits len s).andThen fun _ s => .ok sy s

/-- `READCODE(t)` (R210): the dictionary is built first where t is `DICT` (R181). -/
def readCode (t : SlotId) (s : State) : Res Sym :=
  match t with
  | .dict => (dictInit s).andThen fun _ s => readSlot .dict s
  | .sym => readSlot .sym s
  | .copy => readSlot .copy s

/-! ### Tree descriptions (R220 to R224) -/

/-- Set `rem`. -/
def setRem (r : Int) (s : State) : State := s.withDec { s.dec with descRem := r }

/-- `DESC_SKIP`: the next `cnt` symbols get no code (R221). -/
def descSkip (cnt : Nat) (s : State) : Res Unit := .ok () (setRem (s.dec.descRem - cnt) s)

/-- `DESC_RUN`: the next `cnt` symbols, in descending order, get length `len` (R220, R222). -/
def descRun (len : Nat) : Nat → State → Res Unit
  | 0, s => .ok () s
  | cnt + 1, s =>
    if s.dec.descRem < 0 then failWith .corrupt s
    else
      (addSymbol s.dec.descRem.toNat len s).andThen fun _ s =>
        descRun len cnt (setRem (s.dec.descRem - 1) s)

/-- One description code c (R104, R220). -/
def descCode (c : Sym) (s : State) : Res Unit :=
  let cnt := runCount (descCountField s.cfg.symBits c)
  if descLength c = 0 then descSkip cnt s else descRun (descLength c) cnt s

/-- The loop of R220; every code lowers `rem`, so N rounds are enough for a description of N symbols. -/
def descLoop : Nat → State → Res Unit
  | 0, s => .ok () s
  | n + 1, s =>
    if s.dec.descRem < 0 then .ok () s
    else
      (readCode .dict s).andThen fun c s => (descCode c s).andThen fun _ s => descLoop n s

/-- `DESC(t)` (R220): the description count N. -/
def desc (t : SlotId) (s : State) : Res Nat :=
  (dictInit s).andThen fun _ s =>
  (readField 16 s).andThen fun v s =>
  if s.cfg.maxSymbols < v.toNat then failWith .invalidInput s
  else
    (clearBuilder s).andThen fun _ s =>
    (descLoop v.toNat (setRem ((v.toNat : Int) - 1) s)).andThen fun _ s =>
    (buildSlot t s).andThen fun _ s => .ok v.toNat s

/-! ### Tokens (R247 to R255) -/

/-- `CONSTFIELD()` (R247): sets `CONSTADD`. -/
def constField (s : State) : Res Unit :=
  (needBits 8 s).andThen fun _ s =>
  (dropBits 4 s).andThen fun _ s =>
  (readBits 4 s).andThen fun v s =>
  (dropBits 4 s).andThen fun _ s =>
  .ok () (s.withDec { s.dec with constAdd := BitVec.ofNat 5 (v.toNat + 1) })

/-- The extra-bits field (R107): no bits are read when k = 0. -/
def extraBits (k : Nat) (s : State) : Res Nat :=
  if k = 0 then .ok 0 s else (readField k s).andThen fun v s => .ok v.toNat s

/-- A literal (R250). Every write is at `OUTPOS` below `EFF` (R258), which the token loop tests before each token (R249);
a lone literal with the output full writes nothing (DESIGN CHOICE, log 22). -/
def literal (b : Byte) (s : State) : Res Unit :=
  if s.dec.outPos < s.dec.eff then
    .ok () ((s.withOutMem (s.outMem.write s.dec.outPos.toNat b)).withDec { s.dec with outPos := s.dec.outPos + 1 })
  else .ok () s

/-- `WRITESIZE(s')` (R251). -/
def writeSize (code : Nat) (s : State) : Res Nat :=
  let q := code / 4
  let r := code % 4
  if q = 0 then .ok code s
  else if q ≤ 6 then (extraBits (q - 1) s).andThen fun x s => .ok ((1 <<< (q - 1)) * (4 + r) ||| x) s
  else if code = 28 then .ok 0xFF s
  else failWith .corrupt s

/-- A copy symbol: the size of the copy, const-add included, becomes known (R251, R252). -/
def copySymbol (code : Nat) (s : State) : Res Unit :=
  (writeSize code s).andThen fun v s => .ok () (s.withDec { s.dec with copySize := v + s.dec.constAdd.toNat })

/-- `WRITEOFFSET(t)` (R253). -/
def writeOffset (code : Nat) (s : State) : Res Nat :=
  let q := code / 2
  let r := code % 2
  if q = 0 then .ok code s
  else if q ≤ s.cfg.offsetMaxBucket then
    (extraBits (q - 1) s).andThen fun x s => .ok ((1 <<< (q - 1)) * (2 + r) ||| x) s
  else failWith .corrupt s

/-- The loop of `COPY` (R255): at most `size` bytes from `off` before the output position, stopping at `eff`.
A byte not known is copied as not known (log 13). -/
def copyRun (off eff : Nat) : Nat → Nat → Memory → Nat × Memory
  | 0, pos, m => (pos, m)
  | n + 1, pos, m => if pos < eff then copyRun off eff n (pos + 1) (m.put pos (m.read? (pos - off))) else (pos, m)

/-- `COPY(size, off)` (R255). -/
def copyBytes (size off : Nat) (s : State) : State :=
  let r := copyRun off s.dec.eff.toNat size s.dec.outPos.toNat s.outMem
  (s.withOutMem r.2).withDec { s.dec with outPos := BitVec.ofNat 32 r.1 }

/-- An offset symbol: the range check and the copy (R253, R254, R255). -/
def offsetSymbol (code : Nat) (s : State) : Res Unit :=
  (writeOffset code s).andThen fun v s =>
    let off := v + 1
    if s.dec.outPos.toNat < off then failWith .corrupt s
    else .ok () (copyBytes s.dec.copySize off s)

/-- What the token loop does with a token symbol before any offset symbol (R240). -/
def tokenSymbol (sy : Sym) (s : State) : Res Unit :=
  if sy < 0x100 then literal (BitVec.ofNat 8 sy) s else copySymbol (sy - 0x100) s

/-- One token: a symbol and everything it implies (R240, R249). -/
def token (s : State) : Res Unit :=
  (readCode .sym s).andThen fun sy s =>
  (tokenSymbol sy s).andThen fun _ s =>
  if sy < 0x100 then .ok () s
  else (readCode .copy s).andThen fun t s => offsetSymbol t s

end Sys2Proof.Machine
end

