-- ==== Sys2Proof/Machine/Bus.lean ====
section
/-! DEFINITION. The host's side (R22 to R33, R73, R94): register reads and writes, memory accesses, and what a step is
given to run. -/

namespace Sys2Proof.Machine

/-- The value a host read of a register offset returns (R22 to R33). -/
def readReg (s : State) (off : Word) : Word :=
  if off = 0x04 then statusWord s
  else if off = 0x08 then s.result
  else if off = 0x0C then s.inLen
  else if off = 0x10 then ctrlWord s
  else if off = 0x14 then s.outSize
  else if off = 0x18 then s.cur.pos
  else if off = 0x1C then s.cur.head
  else if off = 0x20 then s.cur.buf
  else if off = 0x24 then curBitsWord s
  else 0

/-- A write of `OUT_PRESENT` = 1: the host supplies OUT, so OUT is not the block's any more (R27, R67, log 14). -/
def supplyOut (present : Bool) (s : State) : State := if present then s.withOutLen none else s

/-- A host write to a register other than `CMD` (R22, R26, R27, R28). -/
def writeReg (s : State) (off v : Word) : State :=
  if off = 0x0C then s.withInLen v
  else if off = 0x10 then supplyOut (v.getLsbD 1) (s.withPresent (v.getLsbD 0) (v.getLsbD 1))
  else if off = 0x14 then s.withOutSize v
  else s

/-- A byte the host reads from a memory it owns (R20, R67): the known byte, IN's fixed unknown one, or for OUT an
unspecified one (log 13, log 18). -/
def hostByte (s : State) (m : MemSel) (a : Word) : Byte :=
  match m with
  | .input => inByte s.inMem a.toNat
  | .output => (s.outMem.read? a.toNat).getD (freeBits 8 s.free [5])

/-- A byte the host writes to a memory it owns (R20). -/
def hostPoke (s : State) (m : MemSel) (a : Word) (b : Byte) : State :=
  match m with
  | .input => s.withInMem (s.inMem.write a.toNat b)
  | .output => s.withOutMem (s.outMem.write a.toNat b)

/-- Whether the host's memory has a byte at an address: an OUT that the block provided has exactly the bytes below its
length (R67, R245). -/
def hostReaches (s : State) (m : MemSel) (a : Word) : Bool :=
  match m, s.outLen with
  | .output, some n => decide (a < n)
  | _, _ => true

/-- The `SOFT_RESET` command word (R304). -/
def softResetWord : Word := 0xFF000000

/-- What a step has to do: nothing more than reach a state, run an instruction from one, or stop. -/
inductive Action
  | done (s : State)
  | stop (f : Fault)
  | run (i : Instr) (s : State)

/-- A write of v to `CMD` (R23, R93, R94, R294). -/
def issueCommand (v : Word) (s : State) : Action :=
  if s.err ≠ none ∧ v ≠ softResetWord then .done s
  else
    match decodeCommand v with
    | .ok i => .run i s
    | .error _ => .done (reservedCommand s)

/-- A stream element to run by itself; nothing runs in the stop state (R294, log 2, log 22). -/
def issueElement (e : StreamSymbol) (s : State) : Action :=
  if s.err ≠ none then .done s else .run (decodeElement s.cfg.symBits e) s

/-- Serve one input (R20, R22, R73, R320). -/
def serve (i : Input) (s : State) : Action :=
  match i with
  | .regWrite off v => if off = 0x00 then issueCommand v s else .done (writeReg s off v)
  | .regRead off => .done (s.withHostData (readReg s off))
  | .memWrite m a b => if hostReaches s m a then .done (hostPoke s m a b) else .stop .noSuchOutByte
  | .memRead m a =>
    if hostReaches s m a then .done ((s.withHostData (zext32 (hostByte s m a))).withFree (s.free + 1))
    else .stop .noSuchOutByte
  | .hardReset => .done s.resetBlock
  | .element e => issueElement e s

/-- What the next step does: serve the oldest input, or wait (log 1). -/
def nextAction (s : State) : Action :=
  match s.inputs with
  | [] => .done s
  | i :: rest => serve i (s.withInputs rest)

/-- The input that hands the machine what a table word is (log 1, log 2). -/
def inputOf : Fetched → Input
  | .command v => .regWrite 0x00 v
  | .element e => .element e

/-- Place what a table word is where the next step takes it. -/
def placeFetch (s : State) (nbits w : Nat) : State :=
  s.withInputs (inputOf (fetchedOfTableWord nbits w) :: s.inputs)

end Sys2Proof.Machine
end

