-- ==== Sys2Proof/Machine/Builder.lean ====
section
/-! DEFINITION. The table-builder commands (41_huffman_build.md). -/

namespace Sys2Proof.Machine

/-- `BLD_CLEAR` (R170). -/
def execBldClear (s : State) : Host.Outcome State Fault Refusal := finish (clearBuilder s)

/-- `BLD_ADD sym, len` (R171). -/
def execBldAdd (nb : BitVec 6) (sy : BitVec 16) (s : State) : Host.Outcome State Fault Refusal :=
  finish (addSymbol (operandSYM sy) (operandNB nb) s)

/-- `BLD_BUILD t` (R172): `DICT` is refused, `TR` = 3 is reserved (R91). -/
def execBldBuild (tr : TreeSel) (s : State) : Host.Outcome State Fault Refusal :=
  match operandTR tr with
  | none => .next (reservedCommand s)
  | some .dict => finish (failWith .invalidInput s)
  | some t => finish (buildSlot t s)

/-- `DICT_INIT` (R180). -/
def execDictInit (s : State) : Host.Outcome State Fault Refusal := finish (dictInit s)

end Sys2Proof.Machine
end

