-- ==== Sys2Proof/Machine/Cursor.lean ====
section
/-! DEFINITION. The BitCursor commands (40_bitcursor.md). -/

namespace Sys2Proof.Machine

/-- `CUR_INIT` (R141). -/
def execCurInit (s : State) : Host.Outcome State Fault Refusal :=
  finish (if s.inPresent then curInit s else failWith .invalidInput s)

/-- `CUR_NEED n` (R143). -/
def execCurNeed (nb : BitVec 6) (s : State) : Host.Outcome State Fault Refusal := finish (needBits (operandNB nb) s)

/-- `CUR_READ n` (R144). -/
def execCurRead (nb : BitVec 6) (s : State) : Host.Outcome State Fault Refusal :=
  finish ((readBits (operandNB nb) s).andThen putResult)

/-- `CUR_DROP n` (R148). -/
def execCurDrop (nb : BitVec 6) (s : State) : Host.Outcome State Fault Refusal := finish (dropBits (operandNB nb) s)

end Sys2Proof.Machine
end

