-- ==== Sys2Proof/Machine/Dat.lean ====
section
/-! DEFINITION. The dat block decompressor (43_dat_decoder.md). -/

namespace Sys2Proof.Machine

/-- `EFF` (R244). -/
def effectiveSize (declared outSize : Word) : Word :=
  if outSize = 0 then declared else if declared ≤ outSize then declared else outSize

/-- `EFF`, the provided OUT and `OUTPOS` (R244, R245). A provided OUT has `EFF` bytes, none of them known (R67, log 14). -/
def startOutput (declared : Word) (s : State) : State :=
  let s := s.withDec { s.dec with eff := effectiveSize declared s.outSize, outPos := 0 }
  if s.outPresent then s else (s.withOutMem []).withOutLen (some s.dec.eff)

/-- The header (R243), and the output it starts. R243 says that no skip-stride word is involved, which `SKIP_STRIDE` = 2 contradicts: there the pull rule
(R145, R146) is followed, word 1 is skipped and the declared size is word 2 (DESIGN CHOICE, log 25). -/
def datHeader (s : State) : Res Unit :=
  (needBits 32 s).andThen fun _ s =>
  (dropBits 32 s).andThen fun _ s =>
  (readField 32 s).andThen fun declared s => .ok () (startOutput declared s)

/-- The max-count field (R105, R248): sets `MAXCOUNT` and starts `COUNT`. -/
def maxCountField (s : State) : Res Unit :=
  (readField s.cfg.maxCountBits s).andThen fun v s =>
  .ok () (s.withDec { s.dec with maxCount := s.cfg.countReg ((v.toNat + 1) <<< s.cfg.maxCountShift), count := 0 })

/-- The token loop (R249): `n` tokens of `MAXCOUNT` are left. -/
def tokenLoop : Nat → State → Res Unit
  | 0, s => .ok () s
  | n + 1, s =>
    if s.dec.outPos < s.dec.eff then
      (token (s.withDec { s.dec with count := s.cfg.countReg (s.dec.count + 1) })).andThen fun _ s => tokenLoop n s
    else .ok () s

/-- The const-add field where its scope puts it (R102, R247). -/
def constFieldAt (scope : ConstAddScope) (s : State) : Res Unit :=
  if s.cfg.constAddScope = scope then constField s else .ok () s

/-- The outer loop (R246). Every block that is not an end marker produces at least one byte, so `EFF` rounds are enough. -/
def blockLoop : Nat → State → Res Unit
  | 0, s => .ok () s
  | n + 1, s =>
    if s.dec.outPos < s.dec.eff then
      (constFieldAt .perBlock s).andThen fun _ s =>
      (desc .sym s).andThen fun nSym s =>
      if nSym = 0 then .ok () s
      else
        (desc .copy s).andThen fun nCopy s =>
        if nCopy = 0 then .ok () s
        else
          (maxCountField s).andThen fun _ s =>
          (tokenLoop s.dec.maxCount s).andThen fun _ s => blockLoop n s
    else .ok () s

/-- The argument checks of R241, in their order. -/
def datArguments (s : State) : Res Unit :=
  if !s.inPresent then failWith .invalidInput s
  else if s.outPresent && decide (s.outSize = 0) then failWith .invalidInput s
  else .ok () s

/-- `OUT_SIZE <- OUTPOS; RESULT <- OUTPOS` (R256). -/
def datResult (s : State) : Res Unit := .ok () ((s.withOutSize s.dec.outPos).withResult s.dec.outPos)

/-- The whole of `DAT_DECODE` (R240). -/
def datRun (s : State) : Res Unit :=
  (datArguments s).andThen fun _ s =>
  (dictInit s).andThen fun _ s =>
  (curInit s).andThen fun _ s =>
  (datHeader s).andThen fun _ s =>
  (constFieldAt .perCall s).andThen fun _ s =>
  (blockLoop s.dec.eff.toNat s).andThen fun _ s => datResult s

/-- `DAT_DECODE` (R240). -/
def execDatDecode (s : State) : Host.Outcome State Fault Refusal := finish (datRun s)

end Sys2Proof.Machine
end

