-- ==== Sys2Proof/Machine/Huffman.lean ====
section
/-! DEFINITION. The decode-engine commands and the description codes (42_huffman_decode.md). -/

namespace Sys2Proof.Machine

/-- `HUF_READ t` (R210). -/
def execHufRead (tr : TreeSel) (s : State) : Host.Outcome State Fault Refusal :=
  match operandTR tr with
  | none => .next (reservedCommand s)
  | some t => finish ((readCode t s).andThen fun sy s => putResult (symbolWord sy) s)

/-- `DESC_READ t` (R220): `DICT` is refused. -/
def execDescRead (tr : TreeSel) (s : State) : Host.Outcome State Fault Refusal :=
  match operandTR tr with
  | none => .next (reservedCommand s)
  | some .dict => finish (failWith .invalidInput s)
  | some t => finish ((desc t s).andThen fun n s => putResult (BitVec.ofNat 32 n) s)

/-- The description code `DESC_SKIP` (R104, R221). -/
def execDescSkip (cm1 : Nat) (s : State) : Host.Outcome State Fault Refusal := finish (descSkip (runCount cm1) s)

/-- The description code `DESC_RUN` (R104, R220, R222). -/
def execDescRun (len : BitVec 5) (cm1 : Nat) (s : State) : Host.Outcome State Fault Refusal :=
  finish (descRun len.toNat (runCount cm1) s)

end Sys2Proof.Machine
end

