-- ==== Sys2Proof/Machine/Offset.lean ====
section
/-! DEFINITION. The offset symbols of the dat stream (R108, R253 to R255): each ends the copy its token began. -/

namespace Sys2Proof.Machine

/-- `OFF_B0` (R108, R253): the offset is the symbol itself plus 1. -/
def execOffB0 (r : BitVec 1) (s : State) : Host.Outcome State Fault Refusal := finish (offsetSymbol (offsetCode 0 r) s)

/-- `OFF_B1` (R108, R253): (1 << 0) * (2 + r2), no extra bits, plus 1. -/
def execOffB1 (r : BitVec 1) (s : State) : Host.Outcome State Fault Refusal := finish (offsetSymbol (offsetCode 1 r) s)

/-- `OFF_B2` (R108, R253): (1 << 1) * (2 + r2) with 1 extra bit, plus 1. -/
def execOffB2 (r : BitVec 1) (s : State) : Host.Outcome State Fault Refusal := finish (offsetSymbol (offsetCode 2 r) s)

/-- `OFF_B3` (R108, R253): (1 << 2) * (2 + r2) with 2 extra bits, plus 1. -/
def execOffB3 (r : BitVec 1) (s : State) : Host.Outcome State Fault Refusal := finish (offsetSymbol (offsetCode 3 r) s)

/-- `OFF_B4` (R108, R253): (1 << 3) * (2 + r2) with 3 extra bits, plus 1. -/
def execOffB4 (r : BitVec 1) (s : State) : Host.Outcome State Fault Refusal := finish (offsetSymbol (offsetCode 4 r) s)

/-- `OFF_B5` (R108, R253): (1 << 4) * (2 + r2) with 4 extra bits, plus 1. -/
def execOffB5 (r : BitVec 1) (s : State) : Host.Outcome State Fault Refusal := finish (offsetSymbol (offsetCode 5 r) s)

/-- `OFF_B6` (R108, R253): (1 << 5) * (2 + r2) with 5 extra bits, plus 1. -/
def execOffB6 (r : BitVec 1) (s : State) : Host.Outcome State Fault Refusal := finish (offsetSymbol (offsetCode 6 r) s)

/-- `OFF_B7` (R108, R253): (1 << 6) * (2 + r2) with 6 extra bits, plus 1. -/
def execOffB7 (r : BitVec 1) (s : State) : Host.Outcome State Fault Refusal := finish (offsetSymbol (offsetCode 7 r) s)

/-- `OFF_B8` (R108, R253): (1 << 7) * (2 + r2) with 7 extra bits, plus 1. -/
def execOffB8 (r : BitVec 1) (s : State) : Host.Outcome State Fault Refusal := finish (offsetSymbol (offsetCode 8 r) s)

/-- `OFF_B9` (R108, R253): (1 << 8) * (2 + r2) with 8 extra bits, plus 1. -/
def execOffB9 (r : BitVec 1) (s : State) : Host.Outcome State Fault Refusal := finish (offsetSymbol (offsetCode 9 r) s)

/-- `OFF_B10` (R108, R253): (1 << 9) * (2 + r2) with 9 extra bits, plus 1. -/
def execOffB10 (r : BitVec 1) (s : State) : Host.Outcome State Fault Refusal := finish (offsetSymbol (offsetCode 10 r) s)

/-- `OFF_B11` (R108, R253): (1 << 10) * (2 + r2) with 10 extra bits, plus 1. -/
def execOffB11 (r : BitVec 1) (s : State) : Host.Outcome State Fault Refusal := finish (offsetSymbol (offsetCode 11 r) s)

/-- `OFF_B12` (R108, R253): (1 << 11) * (2 + r2) with 11 extra bits, plus 1. -/
def execOffB12 (r : BitVec 1) (s : State) : Host.Outcome State Fault Refusal := finish (offsetSymbol (offsetCode 12 r) s)

/-- `OFF_B13` (R108, R253): (1 << 12) * (2 + r2) with 12 extra bits, plus 1. -/
def execOffB13 (r : BitVec 1) (s : State) : Host.Outcome State Fault Refusal := finish (offsetSymbol (offsetCode 13 r) s)

/-- `OFF_B14` (R108, R253): (1 << 13) * (2 + r2) with 13 extra bits, plus 1. -/
def execOffB14 (r : BitVec 1) (s : State) : Host.Outcome State Fault Refusal := finish (offsetSymbol (offsetCode 14 r) s)

/-- `OFF_B15` (R108, R253): (1 << 14) * (2 + r2) with 14 extra bits, plus 1. -/
def execOffB15 (r : BitVec 1) (s : State) : Host.Outcome State Fault Refusal := finish (offsetSymbol (offsetCode 15 r) s)

/-- `OFF_B16` (R108, R253): (1 << 15) * (2 + r2) with 15 extra bits, plus 1. -/
def execOffB16 (r : BitVec 1) (s : State) : Host.Outcome State Fault Refusal := finish (offsetSymbol (offsetCode 16 r) s)

/-- `OFF_RSV` (R108, R253): a symbol no other row matches (log 8). -/
def execOffRsv (t : Sym) (s : State) : Host.Outcome State Fault Refusal := finish (offsetSymbol t s)

end Sys2Proof.Machine
end

