-- ==== Sys2Proof/Machine/System.lean ====
section
/-! DEFINITION. The system commands (60_exceptions.md). -/

namespace Sys2Proof.Machine

/-- `NOP` (R304). -/
def execNop (s : State) : Host.Outcome State Fault Refusal := .next s

/-- `SOFT_RESET` (R304, R320). -/
def execSoftReset (s : State) : Host.Outcome State Fault Refusal := .next s.resetBlock

end Sys2Proof.Machine
end

