-- ==== Sys2Proof/Machine/Token.lean ====
section
/-! DEFINITION. The token symbols of the dat stream (R106, R250 to R252): what a `DAT_DECODE` does with each. -/

namespace Sys2Proof.Machine

/-- `LIT` (R250). -/
def execLit (b : Byte) (s : State) : Host.Outcome State Fault Refusal := finish (literal b s)

/-- `CPY_B0` (R106, R251): the size is the code itself, plus the const-add (R252). -/
def execCpyB0 (r : BitVec 2) (s : State) : Host.Outcome State Fault Refusal := finish (copySymbol (copyCode 0 r) s)

/-- `CPY_B1` (R106, R251): (1 << 0) * (4 + r), no extra bits, plus the const-add (R252). -/
def execCpyB1 (r : BitVec 2) (s : State) : Host.Outcome State Fault Refusal := finish (copySymbol (copyCode 1 r) s)

/-- `CPY_B2` (R106, R251): (1 << 1) * (4 + r) with 1 extra bit, plus the const-add (R252). -/
def execCpyB2 (r : BitVec 2) (s : State) : Host.Outcome State Fault Refusal := finish (copySymbol (copyCode 2 r) s)

/-- `CPY_B3` (R106, R251): (1 << 2) * (4 + r) with 2 extra bits, plus the const-add (R252). -/
def execCpyB3 (r : BitVec 2) (s : State) : Host.Outcome State Fault Refusal := finish (copySymbol (copyCode 3 r) s)

/-- `CPY_B4` (R106, R251): (1 << 3) * (4 + r) with 3 extra bits, plus the const-add (R252). -/
def execCpyB4 (r : BitVec 2) (s : State) : Host.Outcome State Fault Refusal := finish (copySymbol (copyCode 4 r) s)

/-- `CPY_B5` (R106, R251): (1 << 4) * (4 + r) with 4 extra bits, plus the const-add (R252). -/
def execCpyB5 (r : BitVec 2) (s : State) : Host.Outcome State Fault Refusal := finish (copySymbol (copyCode 5 r) s)

/-- `CPY_B6` (R106, R251): (1 << 5) * (4 + r) with 5 extra bits, plus the const-add (R252). -/
def execCpyB6 (r : BitVec 2) (s : State) : Host.Outcome State Fault Refusal := finish (copySymbol (copyCode 6 r) s)

/-- `CPY_FF` (R106, R251): size 0xFF, plus the const-add (R252). -/
def execCpyFF (s : State) : Host.Outcome State Fault Refusal := finish (copySymbol 28 s)

/-- `CPY_RSV` (R106, R251): a symbol no other row matches. -/
def execCpyRsv (sy : Sym) (s : State) : Host.Outcome State Fault Refusal := finish (copySymbol (sy - 0x100) s)

end Sys2Proof.Machine
end

