-- ==== Sys2Proof/Machine/Dispatch.lean ====
section
/-! DEFINITION. One arm per instruction. -/

namespace Sys2Proof.Machine

/-- The meaning of each instruction. -/
def exec (i : Instr) (s : State) : Host.Outcome State Fault Refusal :=
  match i with
  | .nop => Sys2Proof.Machine.execNop s
  | .curInit => Sys2Proof.Machine.execCurInit s
  | .curNeed nb => Sys2Proof.Machine.execCurNeed nb s
  | .curRead nb => Sys2Proof.Machine.execCurRead nb s
  | .curDrop nb => Sys2Proof.Machine.execCurDrop nb s
  | .bldClear => Sys2Proof.Machine.execBldClear s
  | .bldAdd nb sy => Sys2Proof.Machine.execBldAdd nb sy s
  | .bldBuild tr => Sys2Proof.Machine.execBldBuild tr s
  | .dictInit => Sys2Proof.Machine.execDictInit s
  | .hufRead tr => Sys2Proof.Machine.execHufRead tr s
  | .descRead tr => Sys2Proof.Machine.execDescRead tr s
  | .datDecode => Sys2Proof.Machine.execDatDecode s
  | .softReset => Sys2Proof.Machine.execSoftReset s
  | .lit b => Sys2Proof.Machine.execLit b s
  | .cpyB0 r => Sys2Proof.Machine.execCpyB0 r s
  | .cpyB1 r => Sys2Proof.Machine.execCpyB1 r s
  | .cpyB2 r => Sys2Proof.Machine.execCpyB2 r s
  | .cpyB3 r => Sys2Proof.Machine.execCpyB3 r s
  | .cpyB4 r => Sys2Proof.Machine.execCpyB4 r s
  | .cpyB5 r => Sys2Proof.Machine.execCpyB5 r s
  | .cpyB6 r => Sys2Proof.Machine.execCpyB6 r s
  | .cpyFF => Sys2Proof.Machine.execCpyFF s
  | .cpyRsv sy => Sys2Proof.Machine.execCpyRsv sy s
  | .offB0 r => Sys2Proof.Machine.execOffB0 r s
  | .offB1 r => Sys2Proof.Machine.execOffB1 r s
  | .offB2 r => Sys2Proof.Machine.execOffB2 r s
  | .offB3 r => Sys2Proof.Machine.execOffB3 r s
  | .offB4 r => Sys2Proof.Machine.execOffB4 r s
  | .offB5 r => Sys2Proof.Machine.execOffB5 r s
  | .offB6 r => Sys2Proof.Machine.execOffB6 r s
  | .offB7 r => Sys2Proof.Machine.execOffB7 r s
  | .offB8 r => Sys2Proof.Machine.execOffB8 r s
  | .offB9 r => Sys2Proof.Machine.execOffB9 r s
  | .offB10 r => Sys2Proof.Machine.execOffB10 r s
  | .offB11 r => Sys2Proof.Machine.execOffB11 r s
  | .offB12 r => Sys2Proof.Machine.execOffB12 r s
  | .offB13 r => Sys2Proof.Machine.execOffB13 r s
  | .offB14 r => Sys2Proof.Machine.execOffB14 r s
  | .offB15 r => Sys2Proof.Machine.execOffB15 r s
  | .offB16 r => Sys2Proof.Machine.execOffB16 r s
  | .offRsv t => Sys2Proof.Machine.execOffRsv t s
  | .descSkip cm1 => Sys2Proof.Machine.execDescSkip cm1 s
  | .descRun len cm1 => Sys2Proof.Machine.execDescRun len cm1 s

end Sys2Proof.Machine
end

