-- ==== Sys2Proof/Machine/Step.lean ====
section
/-! DEFINITION. One step: serve the oldest pending input; a command is one atomic step (R20, R73). -/

namespace Sys2Proof.Machine

/-- One step of the machine. -/
def step (s : State) : Host.Outcome State Fault Refusal :=
  match nextAction s with
  | .done s' => .next s'
  | .stop f => .fault f
  | .run i s' => exec i s'

/-- `s` with a word of the opcode table as its next input (log 1, log 2, log 3). -/
def State.withFetchWord (s : State) (nbits w : Nat) : State := placeFetch s nbits w

end Sys2Proof.Machine
end

