-- ==== Sys2Proof/Safety.lean ====
section
/-! DEFINITION. The terms claims are stated in: the reset values, what a good state is, the stream a cursor has yet to
deliver, the code space, and what reading extra bits and copying do. -/

namespace Sys2Proof.Machine

/-! ### Reset and good states -/

/-- Every entry of a tree slot at its reset value (R50). -/
def Slot.atReset (x : Slot) : Prop :=
  x.empty = true ∧ x.long = [] ∧ (∀ h : Nat, x.hash.getD h ⟨0, 0⟩ = ⟨0, 0⟩) ∧ (∀ j : Nat, x.symArr.getD j 0 = 0)

/-- Every entry of the builder at its reset value (R50), which is an empty builder (R170). -/
def Builder.atReset (b : Builder) : Prop :=
  (∀ len : Nat, b.headOf len = 0 ∧ b.valid len = false) ∧
  (∀ i : Nat, b.bnext.getD i 0 = 0 ∧ b.bnv.getD i false = false ∧ b.bpres.getD i false = false)

/-- Every element R50 names at the value R50 gives it. -/
def State.atReset (s : State) : Prop :=
  s.err = none ∧ s.cur.exh = false ∧ s.dictValid = false ∧ s.result = 0 ∧ s.inLen = 0 ∧ s.inPresent = false ∧
  s.outPresent = false ∧ s.outSize = 0 ∧ s.cur.pos = 0 ∧ s.cur.head = 0 ∧ s.cur.buf = 0 ∧ s.cur.bits = 0 ∧
  s.cur.limit = 0 ∧ s.bld.atReset ∧ s.dict.atReset ∧ s.sym.atReset ∧ s.copy.atReset ∧
  s.dec.outPos = 0 ∧ s.dec.eff = 0 ∧ s.dec.constAdd = 0 ∧ s.dec.maxCount = 0 ∧ s.dec.count = 0

/-- Every bit of the window below its top `BITS` bits is 0 (R39). -/
def Cursor.zeroFilled (c : Cursor) : Prop := c.window <<< c.bits.toNat = 0

/-- The builder has an entry for every length and every symbol (R40, R41). -/
def Builder.shaped (cfg : Config) (b : Builder) : Prop :=
  b.bhead.length = maxCodeBits ∧ b.bhv.length = maxCodeBits ∧ b.bnext.length = cfg.maxSymbols ∧
  b.bnv.length = cfg.maxSymbols ∧ b.bpres.length = cfg.maxSymbols

/-- A symbol is in at most one bucket, once, and only if it was added (R41). -/
def Builder.linked (cfg : Config) (b : Builder) : Prop :=
  (∀ len, 1 ≤ len → len ≤ maxCodeBits → (b.bucket cfg len).Nodup ∧ ∀ sy ∈ b.bucket cfg len, b.present sy = true) ∧
  (∀ l₁ l₂, 1 ≤ l₁ → l₁ ≤ maxCodeBits → 1 ≤ l₂ → l₂ ≤ maxCodeBits → l₁ ≠ l₂ →
    ∀ sy ∈ b.bucket cfg l₁, sy ∉ b.bucket cfg l₂)

/-- A tree slot has a hash entry for every index (R44). -/
def Slot.shaped (cfg : Config) (x : Slot) : Prop := x.hash.length = 2 ^ cfg.hashBits

/-- A tree slot as reset leaves it or as some `BUILD` fills it (R50, R172). -/
def Slot.built (cfg : Config) (x : Slot) : Prop := x = Slot.reset cfg ∨ ∃ b : Builder, b.build cfg = some x

/-- Every symbol the builder holds has `SYM_BITS` bits (R40, R41). -/
def Builder.fits (cfg : Config) (b : Builder) : Prop :=
  (∀ y ∈ b.bhead, y < 2 ^ cfg.symBits) ∧ ∀ y ∈ b.bnext, y < 2 ^ cfg.symBits

/-- Every symbol a tree slot holds has `SYM_BITS` bits (R44, R46). -/
def Slot.fits (cfg : Config) (x : Slot) : Prop :=
  (∀ e ∈ x.hash, e.sym < 2 ^ cfg.symBits) ∧ ∀ y ∈ x.symArr, y < 2 ^ cfg.symBits

/-- `MAXCOUNT` and `COUNT` have the bits of their registers (R48). -/
def Decoder.fits (cfg : Config) (d : Decoder) : Prop :=
  d.maxCount < 2 ^ cfg.countBits ∧ d.count < 2 ^ cfg.countBits

/-- An OUT that the block provided holds no byte at or past its length, and `EFF` does not pass that length (R67, R245,
R258); while the host supplies OUT it is not the block's (R27). -/
def State.outBounded (s : State) : Prop :=
  (s.outPresent = true → s.outLen = none) ∧
  ∀ n, s.outLen = some n → s.dec.eff ≤ n ∧ ∀ a, n.toNat ≤ a → s.outMem.read? a = none

/-- The state every step keeps: parameters in their ranges, both memories in canonical form, every table with its entries,
every symbol and counter within its register's bits, a provided OUT within its length, `ERR` never 4 (R303), and, while there is no error, the window zero-filled (R39), the buckets disjoint (R41), every slot one that `BUILD`
filled, and a valid `DICT` slot the tree of `DAT_DICT_TABLE` (R47, R180). -/
def State.sound (s : State) : Prop :=
  s.cfg.wf ∧ s.inMem.wf = true ∧ s.outMem.wf = true ∧ s.bld.shaped s.cfg ∧ (∀ t, (s.slot t).shaped s.cfg) ∧
  s.bld.fits s.cfg ∧ (∀ t, (s.slot t).fits s.cfg) ∧ s.dec.fits s.cfg ∧ s.outBounded ∧
  s.err ≠ some .unsupported ∧
  (s.err = none → s.cur.zeroFilled ∧ s.bld.linked s.cfg ∧ (∀ t, (s.slot t).built s.cfg) ∧
    (s.dictValid = true → ∃ b, dictTables s.cfg = .ok (b, s.dict)))

/-! ### The bit stream (R63, R150) -/

/-- The bits of a word, bit 31 first (R63). -/
def wordBits (w : Word) : List Bool := (List.range 32).map fun i => w.getLsbD (31 - i)

/-- The valid bits of the window, first bit first (R35). -/
def Cursor.validBits (c : Cursor) : List Bool := (List.range c.bits.toNat).map fun i => c.window.getLsbD (63 - i)

/-- The bits of the words from index p on, skipped words left out, with the 32 zero bits of the one tolerated
out-of-range pull if it is still to come (R146, R147, R150). `fuel` bounds the words that are left. -/
def streamFrom (cfg : Config) (m : Memory) (limit : Nat) (exh : Bool) : Nat → Nat → List Bool
  | 0, _ => if exh then [] else List.replicate 32 false
  | fuel + 1, p =>
    if limit ≤ skipIndex cfg p then (if exh then [] else List.replicate 32 false)
    else wordBits (inWord m (skipIndex cfg p)) ++ streamFrom cfg m limit exh fuel (skipIndex cfg p + 1)

/-- Every bit the cursor can still deliver, first bit first (R150). -/
def Cursor.stream (cfg : Config) (m : Memory) (c : Cursor) : List Bool :=
  c.validBits ++ streamFrom cfg m c.limit.toNat c.exh (c.limit.toNat - c.pos.toNat) c.pos.toNat

/-- An n-bit value's bits, most significant first. -/
def valueBits (n : Nat) (v : Word) : List Bool := (List.range n).map fun i => v.getLsbD (n - 1 - i)

/-! ### The code space (R175, R182) -/

/-- The Kraft sum of the buckets, in units of 2^-32 (R175). -/
def Builder.kraft (cfg : Config) (b : Builder) : Nat :=
  ((List.range maxCodeBits).map fun i => (b.bucket cfg (i + 1)).length * 2 ^ (maxCodeBits - (i + 1))).sum

/-- Whether the machine's layout gives length l its codes before length len: the longest first, or the shortest
(R173, R174). -/
def assignsBefore (cfg : Config) (l len : Nat) : Bool :=
  match cfg.codeLayout with
  | .longAtTop => decide (len < l)
  | .shortAtTop => decide (l < len)

/-- The code space, in units of 2^-32 and from the top, that the layout has given out before length len (R173, R174). -/
def Builder.spentBefore (cfg : Config) (b : Builder) (len : Nat) : Nat :=
  ((List.range maxCodeBits).map fun i =>
    if assignsBefore cfg (i + 1) len then (b.bucket cfg (i + 1)).length * 2 ^ (maxCodeBits - (i + 1)) else 0).sum

/-- Code c of length l is a prefix of code c' of length l' (R182). -/
def IsPrefix (l c l' c' : Nat) : Prop := l ≤ l' ∧ c' / 2 ^ (l' - l) = c

/-- The window begins with the l-bit code c (R214). -/
def Begins (head : Word) (l c : Nat) : Prop := head.toNat / 2 ^ (32 - l) = c

/-! ### Tree descriptions (R104, R220 to R222) -/

/-- Reading codes from the `DICT` slot of s, starting with cursor c, gives the symbols `ys` and leaves cursor c'
(R210 to R213). -/
def ReadsCodes (s : State) : Cursor → List Sym → Cursor → Prop
  | c, [], c' => c' = c
  | c, y :: ys, c' => ∃ (c₁ : Cursor) (len : Nat), c.need s.cfg s.inMem 32 = .ok c₁ ∧
      s.dict.lookup s.cfg.hashBits c₁.head = some (y, len) ∧ len ≤ 32 ∧ ReadsCodes s (c₁.dropped len) ys c'

/-- The code lengths that description codes give, one for each symbol they cover; 0 where the symbol gets no code
(R104, R220, R221). -/
def descLengths (symBits : Nat) (ys : List Sym) : List Nat :=
  ys.flatMap fun y => List.replicate (y % 2 ^ symBits / 32 + 1) (y % 32)

/-- The builder after a description of n symbols: symbol n - 1 - j has the j-th length (R220). -/
def describedBuilder (cfg : Config) (n : Nat) (lens : List Nat) : Builder :=
  (List.range n).foldl
    (fun b j => if lens.getD j 0 = 0 then b else b.insert (n - 1 - j) (lens.getD j 0)) (Builder.reset cfg)

/-! ### Elements of the dat stream (R107, R251 to R255) -/

/-- `NEED(k); x <- READ(k); DROP(k)` from state s succeeds with value x and leaves cursor c; nothing is read for
k = 0 (R107). -/
def ExtraBits (k : Nat) (s : State) (c : Cursor) (x : Nat) : Prop :=
  if k = 0 then c = s.cur ∧ x = 0
  else ∃ c₀, s.cur.need s.cfg s.inMem k = .ok c₀ ∧ c = c₀.dropped k ∧ x = c₀.head.toNat / 2 ^ (32 - k)

/-- The size of a copy symbol of bucket q, low bits r, extra bits x, before the const-add (R106). -/
def copySizeOf (q r x : Nat) : Nat := if q = 0 then r else 2 ^ (q - 1) * (4 + r) + x

/-- The offset of an offset symbol of bucket q, low bit r, extra bits x, before the + 1 (R108). -/
def copyOffsetOf (q r x : Nat) : Nat := if q = 0 then r else 2 ^ (q - 1) * (2 + r) + x

/-- How many bytes a copy of the state's size produces before the output is full (R255). -/
def State.copyRoom (s : State) : Nat := min s.dec.copySize (s.dec.eff.toNat - s.dec.outPos.toNat)

/-- t is s after its cursor became c and a copy from `off` before the output position: byte j of the copy is byte
j mod off of the `off` bytes before it (R255), and nothing else changed. -/
def CopiedFrom (s t : State) (c : Cursor) (off : Nat) : Prop :=
  t.dec.outPos.toNat = s.dec.outPos.toNat + s.copyRoom ∧
  (∀ j < s.copyRoom,
    t.outMem.read? (s.dec.outPos.toNat + j) = s.outMem.read? (s.dec.outPos.toNat - off + j % off)) ∧
  (∀ a, a < s.dec.outPos.toNat ∨ s.dec.outPos.toNat + s.copyRoom ≤ a → t.outMem.read? a = s.outMem.read? a) ∧
  t = ((s.withCur c).withOutMem t.outMem).withDec { s.dec with outPos := t.dec.outPos }

/-- A copy symbol of bucket q with low bits r completes: the size becomes known (R251, R252). -/
def SizeCompletes (i : Instr) (q r : Nat) : Prop :=
  ∀ (s : State) (c : Cursor) (x : Nat), ExtraBits (q - 1) s c x →
    exec i s = .next ((s.withCur c).withDec { s.dec with copySize := copySizeOf q r x + s.dec.constAdd.toNat })

/-- An offset symbol of bucket q with low bit r: within the bytes produced the copy is made, past them it raises
`Corrupt` (R253, R254, R255); a bucket past `OFFSET_MAX_BUCKET` raises it at once (R253). -/
def OffsetMeaning (i : Instr) (q r : Nat) : Prop :=
  ∀ s : State,
    (s.cfg.offsetMaxBucket < q → exec i s = .next (s.raise (.err .corrupt))) ∧
    ∀ (c : Cursor) (x : Nat), q ≤ s.cfg.offsetMaxBucket → ExtraBits (q - 1) s c x →
      (copyOffsetOf q r x + 1 ≤ s.dec.outPos.toNat →
        ∃ t, exec i s = .next t ∧ CopiedFrom s t c (copyOffsetOf q r x + 1)) ∧
      (s.dec.outPos.toNat < copyOffsetOf q r x + 1 → exec i s = .next ((s.withCur c).raise (.err .corrupt)))

/-! ### The dat stream, in read order (R100, R101, R240) -/

/-- The instruction i, run from s, ends in t without error. -/
def Completes (i : Instr) (s t : State) : Prop := exec i s = .next t ∧ t.err = none

/-- `READCODE(t)` of a tree slot that is built gives the symbol y and leaves s' (R210 to R213). -/
def ReadsCode (t : SlotId) (s : State) (y : Sym) (s' : State) : Prop :=
  (s.slot t).empty = false ∧ ∃ (c : Cursor) (len : Nat), s.cur.need s.cfg s.inMem 32 = .ok c ∧
    (s.slot t).lookup s.cfg.hashBits c.head = some (y, len) ∧ len ≤ 32 ∧ s' = s.withCur (c.dropped len)

/-- A field of k bits has the value v and leaves s' (30_encoding.md, "Dat stream syntax"). -/
def ReadsField (k : Nat) (s : State) (v : Nat) (s' : State) : Prop :=
  ∃ c : Cursor, s.cur.need s.cfg s.inMem k = .ok c ∧ v = c.head.toNat / 2 ^ (32 - k) ∧ s' = s.withCur (c.dropped k)

/-- The const-add field where its scope has one: bits 3:0 of 8 bits, plus 1 (R102, R247). -/
def ReadsConstAdd (scope : ConstAddScope) (s s' : State) : Prop :=
  if s.cfg.constAddScope = scope then
    ∃ c : Cursor, s.cur.need s.cfg s.inMem 8 = .ok c ∧ s' = (s.withCur ((c.dropped 4).dropped 4)).withDec
      { s.dec with constAdd := BitVec.ofNat 5 (c.head.toNat / 2 ^ 24 % 16 + 1) }
  else s' = s

/-- `DESC(t)` gives the count n and leaves s': what `DESC_READ t` does, but for `RESULT` (R220). -/
def ReadsDesc (tr : TreeSel) (s : State) (n : Nat) (s' : State) : Prop :=
  ∃ u, Completes (.descRead tr) s u ∧ n = u.result.toNat ∧ s' = u.withResult s.result

/-- One token, from s to t: `COUNT` goes up by one, one `SYM` symbol is read and its element run; a symbol from 0x100 on is
followed by one `COPY` symbol, whose element is run (R106, R108, R240, R249). -/
def TokenRound (s t : State) : Prop :=
  ∃ (y : Sym) (s₁ : State), ReadsCode .sym (s.withDec { s.dec with count := s.dec.count + 1 }) y s₁ ∧
    if y < 0x100 then Completes (decodeToken y) s₁ t
    else ∃ (s₂ : State) (z : Sym) (s₃ : State), Completes (decodeToken y) s₁ s₂ ∧ ReadsCode .copy s₂ z s₃ ∧
      Completes (decodeOffset z) s₃ t

/-- Exactly n tokens, each begun with the output not full (R249). -/
def TokenRounds : Nat → State → State → Prop
  | 0, s, t => t = s
  | n + 1, s, t => s.dec.outPos < s.dec.eff ∧ ∃ u, TokenRound s u ∧ TokenRounds n u t

/-- The tokens of a block, from s to t: as many as `COUNT` says, ended by `MAXCOUNT` or by a full output (R249). -/
def BlockTokens (s t : State) : Prop :=
  TokenRounds t.dec.count s t ∧ t.dec.count ≤ s.dec.maxCount ∧
  (t.dec.count = s.dec.maxCount ∨ t.dec.outPos = t.dec.eff)

/-- What is left of the outer loop (R246, R101), from a state to the one it ends in: nothing where the output is full;
else the const-add field where blocks have one, the symbol-tree description, which may be an end marker, the copy-tree
description, which may be one, the max-count field and the tokens, and then the blocks that follow. -/
inductive Blocks : State → State → Prop
  | outputFull {s : State} : s.dec.outPos = s.dec.eff → Blocks s s
  | symMarker {s s₁ t : State} : s.dec.outPos < s.dec.eff → ReadsConstAdd .perBlock s s₁ →
      ReadsDesc .sym s₁ 0 t → Blocks s t
  | copyMarker {s s₁ s₂ t : State} {n : Nat} : s.dec.outPos < s.dec.eff → ReadsConstAdd .perBlock s s₁ →
      ReadsDesc .sym s₁ n s₂ → n ≠ 0 → ReadsDesc .copy s₂ 0 t → Blocks s t
  | block {s s₁ s₂ s₃ s₄ u t : State} {n m v : Nat} : s.dec.outPos < s.dec.eff → ReadsConstAdd .perBlock s s₁ →
      ReadsDesc .sym s₁ n s₂ → n ≠ 0 → ReadsDesc .copy s₂ m s₃ → m ≠ 0 → ReadsField s.cfg.maxCountBits s₃ v s₄ →
      BlockTokens (s₄.withDec { s₄.dec with maxCount := (v + 1) * 2 ^ s.cfg.maxCountShift, count := 0 }) u →
      Blocks u t → Blocks s t

/-- A whole `DAT_DECODE` without error up to its result, from s to t (R100, R240): the dictionary, the cursor, the 32
dropped bits, the declared size, `EFF` and OUT, the call's const-add field where calls have one, and the blocks. -/
def Decodes (s t : State) : Prop :=
  ∃ (s₀ s₁ s₂ s₃ : State) (x declared : Nat), Completes .dictInit s s₀ ∧
    ReadsField 32 (s₀.withCur (Cursor.init s.inLen)) x s₁ ∧ ReadsField 32 s₁ declared s₂ ∧
    ReadsConstAdd .perCall (startOutput (BitVec.ofNat 32 declared) s₂) s₃ ∧ Blocks s₃ t

end Sys2Proof.Machine
end

