-- ==== Sys2Proof/Certificates/Slice0/Obligations.lean ====
section
/-! DEFINITION. The statements for the provers, each with the rule of spec/ it comes from. -/

open Sys2Proof Sys2Proof.Machine

/-! ### Reset, issue and the stop state -/

/-- R304, R320: `NOP` does nothing; `SOFT_RESET` (0xFF000000), executed even while `ERR` is not 0, and a hardware reset
both put every element at its R50 value and leave IN and OUT; `STATUS` then reads 0xE0. Neither raises. -/
def Obligations.NopAndReset : Prop :=
  decodeCommand 0x00000000 = .ok .nop ∧ decodeCommand 0xFF000000 = .ok .softReset ∧
  (∀ s : State, exec .nop s = .next s) ∧
  (∀ s : State, ∃ t, exec .softReset s = .next t ∧ t.atReset ∧ t.inMem = s.inMem ∧ t.outMem = s.outMem ∧
    t.outLen = s.outLen ∧ t.cfg = s.cfg ∧ statusWord t = 0x000000E0) ∧
  ∀ (s : State) (rest : List Input), s.inputs = .hardReset :: rest ∨ s.inputs = .regWrite 0 0xFF000000 :: rest →
    step s = exec .softReset (s.withInputs rest)

/-- A step runs the decoded instruction: where the oldest input is a write of v to `CMD` that decodes to i, in the states
in which R94 executes v, a step is exec of i on the state without that input; and the same for a stream element, which
the machine can be handed by itself by the model's own choice (log 2). -/
def Obligations.StepRunsDecodedInstruction : Prop :=
  ∀ (s : State) (rest : List Input) (i : Instr),
    (∀ v : Word, s.inputs = .regWrite 0 v :: rest → (s.err = none ∨ v = 0xFF000000) →
      decodeCommand v = .ok i → step s = exec i (s.withInputs rest)) ∧
    (∀ e : StreamSymbol, s.inputs = .element e :: rest → s.err = none →
      decodeElement s.cfg.symBits e = i → step s = exec i (s.withInputs rest))

/-- The machine right after reset holds the values of R50, and `STATUS` reads 0xE0 (R24). -/
def Obligations.ResetStateHoldsR50Values : Prop :=
  State.reset.atReset ∧ statusWord State.reset = 0x000000E0

/-- R93: a word no row of R92 matches raises `InvalidInput` and has no other effect; while `ERR` is not 0 it is ignored. -/
def Obligations.ReservedWordRaisesOnly : Prop :=
  ∀ (s : State) (v : Word) (rest : List Input), s.inputs = .regWrite 0 v :: rest →
    (∀ r ∈ commandRows, v &&& r.mask ≠ r.pat) →
    step s = .next (if s.err = none then (s.withInputs rest).withErr (some .invalidInput) else s.withInputs rest)

/-- R94, its last sentence: at most one row of R92 matches a word. -/
def Obligations.CommandRowsNeverOverlap : Prop :=
  commandRows.Pairwise fun a b => ∀ v : Word, ¬ (v &&& a.mask = a.pat ∧ v &&& b.mask = b.pat)

/-- R294: while `ERR` is not 0 a write to `CMD` of any value but 0xFF000000 has no effect; register reads and writes keep
working. -/
def Obligations.StopStateIgnoresCommands : Prop :=
  ∀ (s : State) (rest : List Input), s.err ≠ none →
    (∀ v : Word, v ≠ 0xFF000000 → s.inputs = .regWrite 0 v :: rest → step s = .next (s.withInputs rest)) ∧
    (∀ off v : Word, off ≠ 0 → s.inputs = .regWrite off v :: rest →
      step s = .next (writeReg (s.withInputs rest) off v)) ∧
    (∀ off : Word, s.inputs = .regRead off :: rest →
      step s = .next ((s.withInputs rest).withHostData (readReg s off)))

/-- R295: only `SOFT_RESET` or a hardware reset leaves the stop state, and both leave the reset values. -/
def Obligations.OnlyResetLeavesStopState : Prop :=
  ∀ s t : State, step s = .next t → s.err ≠ none → t.err = none →
    (∃ rest, s.inputs = .hardReset :: rest ∨ s.inputs = .regWrite 0 0xFF000000 :: rest) ∧ t.atReset ∧
    t.inMem = s.inMem ∧ t.outMem = s.outMem ∧ t.outLen = s.outLen

/-! ### The register window -/

/-- R24: the fields of `STATUS`, bit by bit; it is read at offset 0x04, a write there has no effect, and after reset it
is 0xE0. -/
def Obligations.StatusFields : Prop :=
  statusWord State.reset = 0x000000E0 ∧
  (∀ (s : State) (rest : List Input),
    (s.inputs = .regRead 0x04 :: rest → step s = .next ((s.withInputs rest).withHostData (statusWord s))) ∧
    ∀ v, s.inputs = .regWrite 0x04 v :: rest → step s = .next (s.withInputs rest)) ∧
  ∀ s : State,
    (statusWord s).extractLsb' 0 3 = (match s.err with
      | none => 0 | some .invalidInput => 1 | some .corrupt => 2 | some .truncated => 3 | some .unsupported => 4) ∧
    (statusWord s).getLsbD 3 = s.cur.exh ∧ (statusWord s).getLsbD 4 = s.dictValid ∧
    (statusWord s).getLsbD 5 = s.dict.empty ∧ (statusWord s).getLsbD 6 = s.sym.empty ∧
    (statusWord s).getLsbD 7 = s.copy.empty ∧ (statusWord s).extractLsb' 8 24 = 0

/-- R22 to R32: what a host read of each offset returns; an offset not listed returns 0. -/
def Obligations.RegisterReads : Prop :=
  ∀ (s : State) (off : Word) (rest : List Input), s.inputs = .regRead off :: rest →
    ∃ v : Word, step s = .next ((s.withInputs rest).withHostData v) ∧
      (off = 0x04 → v = statusWord s) ∧ (off = 0x08 → v = s.result) ∧ (off = 0x0C → v = s.inLen) ∧
      (off = 0x10 → v.getLsbD 0 = s.inPresent ∧ v.getLsbD 1 = s.outPresent ∧ v.toNat < 4) ∧
      (off = 0x14 → v = s.outSize) ∧ (off = 0x18 → v = s.cur.pos) ∧ (off = 0x1C → v = s.cur.head) ∧
      (off = 0x20 → v = s.cur.buf) ∧ (off = 0x24 → v.toNat = s.cur.bits.toNat) ∧
      (off ∉ ([0x04, 0x08, 0x0C, 0x10, 0x14, 0x18, 0x1C, 0x20, 0x24] : List Word) → v = 0)

/-- R22, R26, R27, R28: a host write to `IN_LEN`, `CTRL` (bits 1:0 only) or `OUT_SIZE` writes it, and to any other
offset but `CMD`'s has no effect. (That `OUT_PRESENT` = 1 ends the model's record of an OUT the block provided is the
model's choice: log 14.) -/
def Obligations.RegisterWrites : Prop :=
  ∀ (s : State) (off v : Word) (rest : List Input), s.inputs = .regWrite off v :: rest → off ≠ 0 →
    step s = .next (
      if off = 0x0C then (s.withInputs rest).withInLen v
      else if off = 0x10 then
        if v.getLsbD 1 then ((s.withInputs rest).withPresent (v.getLsbD 0) true).withOutLen none
        else (s.withInputs rest).withPresent (v.getLsbD 0) false
      else if off = 0x14 then (s.withInputs rest).withOutSize v
      else s.withInputs rest)

/-! ### Errors and what only some instructions write -/

/-- R292, R293: what an error leaves defined: `ERR` holds the kind (the first one), `IN_LEN`, `CTRL`, `OUT_SIZE`, `RESULT`
and IN are unchanged, and so are the bytes of a host's OUT from `EFF` on. (That `EFF` is the register's value where the
error is raised, and that the model then knows none of the bytes below it, is the model's choice: log 12.) -/
def Obligations.RaiseKeepsDefinedState : Prop :=
  ∀ (s : State) (c : Cause),
    (s.raise c).err = some (s.err.getD c.kind) ∧ (s.raise c).inLen = s.inLen ∧
    (s.raise c).inPresent = s.inPresent ∧ (s.raise c).outPresent = s.outPresent ∧
    (s.raise c).outSize = s.outSize ∧ (s.raise c).result = s.result ∧ (s.raise c).inMem = s.inMem ∧
    (s.raise c).cfg = s.cfg ∧
    (s.outPresent = true → ∀ a, (s.raise c).outMem.read? a =
      if s.dec.eff.toNat ≤ a then s.outMem.read? a else none)

/-- R293 over the whole machine: an instruction that ends in an error has written none of `OUT_SIZE`, `RESULT`,
`IN_LEN`, `CTRL` and IN. -/
def Obligations.FailedInstructionKeepsHostRegisters : Prop :=
  ∀ (i : Instr) (s t : State), exec i s = .next t → s.err = none → t.err ≠ none →
    t.outSize = s.outSize ∧ t.result = s.result ∧ t.inLen = s.inLen ∧ t.inPresent = s.inPresent ∧
    t.outPresent = s.outPresent ∧ t.inMem = s.inMem

/-- R26, R27, R61: no instruction but a reset writes `IN_LEN` or `CTRL`, none writes IN, and none changes a parameter or
the inputs still pending. -/
def Obligations.InputSideIsReadOnly : Prop :=
  ∀ (i : Instr) (s t : State), exec i s = .next t →
    t.inMem = s.inMem ∧ t.cfg = s.cfg ∧ t.inputs = s.inputs ∧
    (i ≠ .softReset → t.inLen = s.inLen ∧ t.inPresent = s.inPresent ∧ t.outPresent = s.outPresent)

/-- R25, R28: `RESULT` is written only by `CUR_READ`, `HUF_READ`, `DESC_READ` and `DAT_DECODE`, `OUT_SIZE` only by
`DAT_DECODE`, apart from a reset. -/
def Obligations.ResultWrittenOnlyByItsCommands : Prop :=
  ∀ (i : Instr) (s t : State), exec i s = .next t → i ≠ .softReset →
    ((∀ nb, i ≠ .curRead nb) → (∀ tr, i ≠ .hufRead tr) → (∀ tr, i ≠ .descRead tr) → i ≠ .datDecode →
      t.result = s.result) ∧
    (i ≠ .datDecode → t.outSize = s.outSize)

/-- R66: only `DAT_DECODE` and the elements it runs store to OUT: every other instruction, unless it raises, leaves every
byte of both memories as it was. -/
def Obligations.CommandsStoreNothing : Prop :=
  ∀ (i : Instr) (s t : State), exec i s = .next t → t.err = none → i ≠ .datDecode →
    (∀ b, i ≠ .lit b) → (∀ x, encode i ≠ .element (.offset x)) →
    (∀ a, t.outMem.read? a = s.outMem.read? a) ∧ (∀ a, t.inMem.read? a = s.inMem.read? a)

/-- R143, R144, R148, R170 to R172, R180, R210, R220, R240 ("State written"): what each command writes, unless it raises,
and that it writes nothing else; the same for a run of description codes. `DESC_READ` writes no decoder register but the
model's own `descRem` (log 5); `DAT_DECODE` writes OUT below `OUTPOS` alone. (That an OUT the block provides has no known
byte from `OUTPOS` on is the model's choice: log 14.) -/
def Obligations.CommandFrames : Prop :=
  ∀ (s t : State), t.err = none →
    (∀ nb, exec (.curNeed nb) s = .next t ∨ exec (.curDrop nb) s = .next t → t = s.withCur t.cur) ∧
    (∀ nb, exec (.curRead nb) s = .next t → t = s.withResult t.result) ∧
    (exec .bldClear s = .next t → t = s.withBld t.bld) ∧
    (∀ nb sy, exec (.bldAdd nb sy) s = .next t → t = s.withBld t.bld) ∧
    (exec (.bldBuild .sym) s = .next t → t = s.withSym t.sym) ∧
    (exec (.bldBuild .copy) s = .next t → t = s.withCopy t.copy) ∧
    (exec .dictInit s = .next t → t = ((s.withBld t.bld).withDict t.dict).withDictValid t.dictValid) ∧
    (exec (.hufRead .sym) s = .next t ∨ exec (.hufRead .copy) s = .next t →
      t = (s.withCur t.cur).withResult t.result) ∧
    (exec (.hufRead .dict) s = .next t →
      t = ((((s.withBld t.bld).withDict t.dict).withDictValid t.dictValid).withCur t.cur).withResult t.result) ∧
    (∀ tr, exec (.descRead tr) s = .next t → t = ((((((s.withBld t.bld).withDict t.dict).withDictValid
      t.dictValid).withCur t.cur).withDec { s.dec with descRem := t.dec.descRem }).withSlot (if tr = .sym then .sym else .copy)
        (if tr = .sym then t.sym else t.copy)).withResult t.result) ∧
    (∀ len cm1, exec (.descRun len cm1) s = .next t → t = (s.withBld t.bld).withDec { s.dec with descRem := t.dec.descRem }) ∧
    (exec .datDecode s = .next t →
      t = ((((((((((s.withCur t.cur).withBld t.bld).withDict t.dict).withSym t.sym).withCopy t.copy).withDictValid
        t.dictValid).withDec t.dec).withOutMem t.outMem).withOutLen t.outLen).withOutSize t.outSize).withResult t.result ∧
      (∀ a, t.dec.outPos.toNat ≤ a → t.outMem.read? a = if s.outPresent then s.outMem.read? a else none) ∧
      t.outLen = if s.outPresent then s.outLen else some t.dec.eff)

/-! ### Encoding -/

/-- Decode and encode agree: every well-formed instruction, with every operand, decodes from its own encoding, whatever
`SYM_BITS` is; and the symbol that encodes it has `SYM_BITS` bits. -/
def Obligations.DecodeOfEncode : Prop :=
  ∀ (n : Nat) (i : Instr), 9 ≤ n → i.wf n = true →
    decode n (encode i) = .ok i ∧ ∀ e, encode i = .element e → e.fits n = true

/-- The other direction: what decodes is well formed and encodes back to the same word, so no word has two readings in
its format and no bit is dropped, of a symbol none of its `SYM_BITS` bits. -/
def Obligations.EncodeOfDecode : Prop :=
  ∀ (n : Nat) (f : Fetched) (i : Instr), 9 ≤ n → (∀ e, f = .element e → e.fits n = true) →
    decode n f = .ok i → i.wf n = true ∧ encode i = f

/-- A few words written out in R92, R96 and R106 to R108 decode to the instructions the spec gives them. -/
def Obligations.WordsDecodeAsWritten : Prop :=
  decodeCommand 0x11010041 = .ok (.bldAdd 1 0x41) ∧ decodeCommand 0x20400000 = .ok (.hufRead .sym) ∧
  decodeCommand 0x04140000 = .ok (.curDrop 20) ∧ decodeCommand 0x12C00000 = .ok (.bldBuild .rsv) ∧
  decodeCommand 0x05000000 = .error .unknownOpcode ∧ decodeCommand 0x00000001 = .error .nonzeroField ∧
  decodeElement 16 (.token 0x41) = (.lit 0x41) ∧ decodeElement 16 (.token 0x10B) = (.cpyB2 3) ∧
  decodeElement 16 (.token 0x11C) = .cpyFF ∧ decodeElement 16 (.offset 33) = (.offB16 1) ∧
  decodeElement 16 (.offset 34) = (.offRsv 34) ∧ decodeElement 16 (.desc 0xE0) = (.descSkip 7) ∧
  decodeElement 16 (.desc 0x22) = (.descRun 2 1)

/-- What the loops of a `DAT_DECODE` and a description do with a symbol of `SYM_BITS` bits is what the instruction that
symbol decodes to does (R104, R106, R108, R109). -/
def Obligations.LoopsRunTheirElements : Prop :=
  ∀ (s : State) (y : Sym), y < 2 ^ s.cfg.symBits →
    exec (decodeElement s.cfg.symBits (.token y)) s = finish (tokenSymbol y s) ∧
    exec (decodeElement s.cfg.symBits (.offset y)) s = finish (offsetSymbol y s) ∧
    exec (decodeElement s.cfg.symBits (.desc y)) s = finish (descCode y s)

/-! ### The cursor -/

/-- R62: an input word is its four bytes little-endian. -/
def Obligations.InputWordsAreLittleEndian : Prop :=
  ∀ (m : Memory) (p : Nat) (b₀ b₁ b₂ b₃ : Byte), 4 * p + 3 < 2 ^ 32 →
    m.read? (4 * p) = some b₀ → m.read? (4 * p + 1) = some b₁ → m.read? (4 * p + 2) = some b₂ →
    m.read? (4 * p + 3) = some b₃ →
    (inWord m p).toNat = b₀.toNat + b₁.toNat * 2 ^ 8 + b₂.toNat * 2 ^ 16 + b₃.toNat * 2 ^ 24

/-- R141: `CUR_INIT` starts a new stream at byte 0 with `LIMIT` = floor(`IN_LEN` / 4), and raises `InvalidInput` without an
input memory. -/
def Obligations.CurInitStartsStream : Prop :=
  decodeCommand 0x01000000 = .ok .curInit ∧
  ∀ s : State,
    (s.inPresent = true → ∃ c, exec .curInit s = .next (s.withCur c) ∧ c.pos = 0 ∧ c.head = 0 ∧ c.buf = 0 ∧
      c.bits = 0 ∧ c.exh = false ∧ c.limit.toNat = s.inLen.toNat / 4) ∧
    (s.inPresent = false → exec .curInit s = .next (s.raise (.err .invalidInput)))

/-- R142, R143: `CUR_NEED n` with enough bits does nothing; n > 32 raises `InvalidInput`. -/
def Obligations.CurNeedWithEnoughBits : Prop :=
  (∀ nb : BitVec 6, decodeCommand (0x02000000 ||| (nb.setWidth 32 <<< 16)) = .ok (.curNeed nb)) ∧
  ∀ (nb : BitVec 6) (s : State),
    (nb.toNat ≤ 32 → nb.toNat ≤ s.cur.bits.toNat → exec (.curNeed nb) s = .next s) ∧
    (32 < nb.toNat → exec (.curNeed nb) s = .next (s.raise (.err .invalidInput)))

/-- R145, R146: `CUR_NEED n` with too few bits pulls one word, the one after the skipped word where the index would fall
on it, places it directly below the valid bits and advances `POS`. -/
def Obligations.CurNeedPullsOneWord : Prop :=
  ∀ (nb : BitVec 6) (s : State) (p : Nat), nb.toNat ≤ 32 → s.cur.bits.toNat < nb.toNat →
    p = (if (s.cur.pos.toNat + 1) % s.cfg.skipStride = 0 then s.cur.pos.toNat + 1 else s.cur.pos.toNat) →
    p < s.cur.limit.toNat →
    ∃ c, exec (.curNeed nb) s = .next (s.withCur c) ∧ c.bits.toNat = s.cur.bits.toNat + 32 ∧
      c.pos.toNat = p + 1 ∧ c.limit = s.cur.limit ∧ c.exh = s.cur.exh ∧
      ∀ j < 64, c.window.getLsbD j = (s.cur.window.getLsbD j ||
        (decide (32 - s.cur.bits.toNat ≤ j) && (inWord s.inMem p).getLsbD (j - (32 - s.cur.bits.toNat))))

/-- R147: the first pull past the end of the input brings 32 zero bits and sets `EXH`; one made with `EXH` set raises
`Truncated`. -/
def Obligations.OneToleratedPull : Prop :=
  ∀ (nb : BitVec 6) (s : State) (p : Nat), nb.toNat ≤ 32 → s.cur.bits.toNat < nb.toNat →
    p = (if (s.cur.pos.toNat + 1) % s.cfg.skipStride = 0 then s.cur.pos.toNat + 1 else s.cur.pos.toNat) →
    s.cur.limit.toNat ≤ p →
    (s.cur.exh = false → ∃ c, exec (.curNeed nb) s = .next (s.withCur c) ∧ c.bits.toNat = s.cur.bits.toNat + 32 ∧
      c.window = s.cur.window ∧ c.exh = true ∧ c.limit = s.cur.limit ∧ c.pos.toNat = (p + 1) % 2 ^ 32) ∧
    (s.cur.exh = true → exec (.curNeed nb) s = .next (s.raise (.err .truncated)))

/-- R144: `CUR_READ n` puts the top n bits of `HEAD`, zero-extended, into `RESULT` and changes nothing else; n = 0 gives 0
and n > 32 raises `InvalidInput`. -/
def Obligations.CurReadPeeksTopBits : Prop :=
  (∀ nb : BitVec 6, decodeCommand (0x03000000 ||| (nb.setWidth 32 <<< 16)) = .ok (.curRead nb)) ∧
  ∀ (nb : BitVec 6) (s : State),
    (nb.toNat ≤ 32 → ∃ v : Word, exec (.curRead nb) s = .next (s.withResult v) ∧
      v.toNat = s.cur.head.toNat / 2 ^ (32 - nb.toNat)) ∧
    (32 < nb.toNat → exec (.curRead nb) s = .next (s.raise (.err .invalidInput)))

/-- R148: `CUR_DROP n` shifts the window left by n and takes n from `BITS`; n > 32 or n > `BITS` raises `InvalidInput`. -/
def Obligations.CurDropShiftsWindow : Prop :=
  (∀ nb : BitVec 6, decodeCommand (0x04000000 ||| (nb.setWidth 32 <<< 16)) = .ok (.curDrop nb)) ∧
  ∀ (nb : BitVec 6) (s : State),
    (nb.toNat ≤ 32 → nb.toNat ≤ s.cur.bits.toNat → ∃ c, exec (.curDrop nb) s = .next (s.withCur c) ∧
      c.window = s.cur.window <<< nb.toNat ∧ c.bits.toNat = s.cur.bits.toNat - nb.toNat ∧ c.pos = s.cur.pos ∧
      c.limit = s.cur.limit ∧ c.exh = s.cur.exh) ∧
    (32 < nb.toNat ∨ s.cur.bits.toNat < nb.toNat →
      exec (.curDrop nb) s = .next (s.raise (.err .invalidInput)))

/-- R151: with 32 bits available, reading n bits, dropping them and reading 32 - n splits the first 32 bits at n. -/
def Obligations.ReadDropReadSplitsWord : Prop :=
  ∀ (nb : BitVec 6) (s : State), nb.toNat ≤ 32 → 32 ≤ s.cur.bits.toNat →
    ∃ s₁ s₂ s₃, exec (.curRead nb) s = .next s₁ ∧ exec (.curDrop nb) s₁ = .next s₂ ∧
      exec (.curRead (32 - nb)) s₂ = .next s₃ ∧
      s₁.result.toNat * 2 ^ (32 - nb.toNat) + s₃.result.toNat = s.cur.head.toNat

/-- R150: the cursor is the bit stream: NEED leaves the stream as it is and makes n bits valid, DROP takes n bits off
its front, READ shows its front. (`POS` away from the end of its 32 bits, where no run reaches.) -/
def Obligations.CursorDeliversTheStream : Prop :=
  ∀ (cfg : Config) (m : Memory) (c : Cursor), c.zeroFilled → c.pos.toNat + 2 < 2 ^ 32 →
    (∀ n c', c.need cfg m n = .ok c' → c'.stream cfg m = c.stream cfg m ∧ n ≤ c'.bits.toNat ∧ c'.zeroFilled) ∧
    (∀ n c', c.drop n = .ok c' → c'.stream cfg m = (c.stream cfg m).drop n ∧ c'.zeroFilled) ∧
    (∀ n v, n ≤ c.bits.toNat → c.read n = .ok v → valueBits n v = (c.stream cfg m).take n)

/-! ### The builder and code assignment -/

/-- R170: `BLD_CLEAR` empties the builder and writes nothing else. -/
def Obligations.BldClearEmptiesBuilder : Prop :=
  decodeCommand 0x10000000 = .ok .bldClear ∧
  ∀ s : State, ∃ b, exec .bldClear s = .next (s.withBld b) ∧ b.atReset ∧ b.shaped s.cfg

/-- R171: `BLD_ADD` with a length of 1 to 32 and a symbol below `MAX_SYMBOLS` not yet added puts the symbol at the head of
its bucket, linked to the old head if there was one; any other operands raise `InvalidInput`. -/
def Obligations.BldAddInsertsAtHead : Prop :=
  (∀ (nb : BitVec 6) (sy : BitVec 16),
    decodeCommand (0x11000000 ||| (nb.setWidth 32 <<< 16) ||| sy.setWidth 32) = .ok (.bldAdd nb sy)) ∧
  ∀ (nb : BitVec 6) (sy : BitVec 16) (y : Sym) (s : State), y = sy.toNat →
    (s.bld.shaped s.cfg → 1 ≤ nb.toNat → nb.toNat ≤ 32 → y < s.cfg.maxSymbols → s.bld.present y = false →
      ∃ b, exec (.bldAdd nb sy) s = .next (s.withBld b) ∧ b.shaped s.cfg ∧
        b.headOf nb.toNat = y ∧ b.valid nb.toNat = true ∧ b.present y = true ∧
        b.bnv.getD y false = s.bld.valid nb.toNat ∧
        b.bnext.getD y 0 = (if s.bld.valid nb.toNat then s.bld.headOf nb.toNat else s.bld.bnext.getD y 0) ∧
        (∀ l, 1 ≤ l → l ≠ nb.toNat → b.headOf l = s.bld.headOf l ∧ b.valid l = s.bld.valid l) ∧
        (∀ j, j ≠ y → b.bnext.getD j 0 = s.bld.bnext.getD j 0 ∧
          b.bnv.getD j false = s.bld.bnv.getD j false ∧ b.bpres.getD j false = s.bld.bpres.getD j false)) ∧
    (nb.toNat = 0 ∨ 32 < nb.toNat ∨ s.cfg.maxSymbols ≤ y ∨ s.bld.present y = true →
      exec (.bldAdd nb sy) s = .next (s.raise (.err .invalidInput)))

/-- R42: the bucket list of a length is the insertion order reversed; other lists do not change. -/
def Obligations.BucketListIsInsertionReversed : Prop :=
  ∀ (cfg : Config) (b b' : Builder) (sy len : Nat), b.shaped cfg → b.linked cfg → b.add cfg sy len = .ok b' →
    b'.bucket cfg len = sy :: b.bucket cfg len ∧
    (∀ l, 1 ≤ l → l ≤ 32 → l ≠ len → b'.bucket cfg l = b.bucket cfg l) ∧ b'.linked cfg

/-- R172, R175: `BLD_BUILD` of `SYM` or `COPY` completes exactly when the Kraft sum of the buckets is at most 1, and then
writes that slot alone; otherwise it raises `Corrupt`. -/
def Obligations.BldBuildCompletesWithinCodeSpace : Prop :=
  ∀ s : State,
    (s.bld.kraft s.cfg ≤ 2 ^ 32 →
      (∃ x, s.bld.build s.cfg = some x ∧ exec (.bldBuild .sym) s = .next (s.withSym x) ∧
        exec (.bldBuild .copy) s = .next (s.withCopy x))) ∧
    (2 ^ 32 < s.bld.kraft s.cfg →
      exec (.bldBuild .sym) s = .next (s.raise (.err .corrupt)) ∧
      exec (.bldBuild .copy) s = .next (s.raise (.err .corrupt)))

/-- R172, R91: `BLD_BUILD DICT` and `DESC_READ DICT` raise `InvalidInput`; `TR` = 3 raises it with no other effect, as
93_implementation_defined.md V3 and decision D4 say (log 10: R293, the general rule, would leave the rest unspecified). -/
def Obligations.TreeSelectorChecks : Prop :=
  ∀ s : State,
    exec (.bldBuild .dict) s = .next (s.raise (.err .invalidInput)) ∧
    exec (.descRead .dict) s = .next (s.raise (.err .invalidInput)) ∧
    (s.err = none → ∀ i, i = .bldBuild .rsv ∨ i = .hufRead .rsv ∨ i = .descRead .rsv →
      exec i s = .next (s.withErr (some .invalidInput)))

/-- R179, R215: building from a builder without symbols gives an empty slot: every hash index a miss, no threshold entry;
reading a symbol from it raises `Corrupt`. -/
def Obligations.BuildOfNoSymbolsIsEmpty : Prop :=
  ∀ s : State, (∀ len, 1 ≤ len → len ≤ 32 → s.bld.valid len = false) →
    ∃ x, exec (.bldBuild .sym) s = .next (s.withSym x) ∧ exec (.bldBuild .copy) s = .next (s.withCopy x) ∧
      x.atReset ∧ exec (.hufRead .sym) (s.withSym x) = .next ((s.withSym x).raise (.err .corrupt)) ∧
      exec (.hufRead .copy) (s.withCopy x) = .next ((s.withCopy x).raise (.err .corrupt))

/-- R182, R173, R174: a code assignment is canonical and prefix-free: one group per populated length, holding exactly that
length's bucket, its first symbol with the largest code; the codes of a length are consecutive and fit it, and end where
the lengths the machine's `CODE_LAYOUT` assigns before it (the longer ones, or the shorter ones) leave the code space; no
code is a prefix of another; and assignment fails exactly when the Kraft sum passes 1 (R175). -/
def Obligations.AssignedCodesAreCanonicalPrefixFree : Prop :=
  ∀ (cfg : Config) (b : Builder),
    (b.assign cfg = none ↔ 2 ^ 32 < b.kraft cfg) ∧
    ∀ gs, b.assign cfg = some gs →
      (gs.map Group.len).Nodup ∧
      (∀ g ∈ gs, 1 ≤ g.len ∧ g.len ≤ 32 ∧ g.syms = (b.bucket cfg g.len).reverse ∧ g.syms ≠ [] ∧
        g.base + g.syms.length ≤ 2 ^ g.len ∧
        g.base + g.syms.length = (2 ^ 32 - b.spentBefore cfg g.len) / 2 ^ (32 - g.len)) ∧
      (∀ len, 1 ≤ len → len ≤ 32 → b.bucket cfg len ≠ [] → ∃ g ∈ gs, g.len = len) ∧
      (∀ g ∈ gs, ∀ g' ∈ gs, ∀ k < g.syms.length, ∀ k' < g'.syms.length,
        IsPrefix g.len (g.base + k) g'.len (g'.base + k') → g = g' ∧ k = k')

/-- R180: `DICT_INIT` does nothing once `DICT_VALID` is set; else it leaves the builder holding `DAT_DICT_TABLE`'s
entries, builds `DICT` from them and sets `DICT_VALID`; a table that breaks R171 or R175 raises, `DICT_VALID` staying 0. -/
def Obligations.DictInitBuildsOnce : Prop :=
  decodeCommand 0x13000000 = .ok .dictInit ∧
  ∀ s : State,
    (s.dictValid = true → exec .dictInit s = .next s) ∧
    (∀ b x, s.dictValid = false → (Builder.reset s.cfg).addAll s.cfg s.cfg.dictTable = .ok b →
      b.build s.cfg = some x →
      exec .dictInit s = .next (((s.withBld b).withDict x).withDictValid true)) ∧
    (∀ k, s.dictValid = false → dictTables s.cfg = .error k →
      exec .dictInit s = .next (s.raise (.dict k)) ∧ (s.raise (.dict k)).dictValid = false)

/-- R181, R324: a first use of the dictionary runs `DICTINIT()` before anything else: `HUF_READ DICT` and `DESC_READ`
in a state without it do what they do right after `DICT_INIT`, the builder clobbered. -/
def Obligations.FirstUseBuildsDictionary : Prop :=
  ∀ s s' : State, exec .dictInit s = .next s' → s'.dictValid = true → s'.err = s.err →
    exec (.hufRead .dict) s = exec (.hufRead .dict) s' ∧ exec (.descRead .sym) s = exec (.descRead .sym) s' ∧
    exec (.descRead .copy) s = exec (.descRead .copy) s' ∧
    (s.inPresent = true → (s.outPresent = true → s.outSize ≠ 0) → exec .datDecode s = exec .datDecode s')

/-- R47, R322: once built the dictionary is never written until a reset: a step that leaves no error and is no reset keeps
`DICT_VALID` and the slot. -/
def Obligations.DictionaryIsFrozen : Prop :=
  ∀ s t : State, step s = .next t → s.err = none → t.err = none → s.dictValid = true →
    (t.dictValid = true ∧ t.dict = s.dict) ∨
    (t.atReset ∧ ∃ rest, s.inputs = .hardReset :: rest ∨ s.inputs = .regWrite 0 0xFF000000 :: rest)

/-! ### Decoding symbols and descriptions -/

/-- R210, R211: a hash hit returns the slot's symbol in `RESULT` and drops its recorded length. -/
def Obligations.HufReadHashHit : Prop :=
  ∀ (s : State) (tr : TreeSel) (t : SlotId) (c : Cursor) (e : HashEntry), operandTR tr = some t →
    (t = .dict → s.dictValid = true) → (s.slot t).empty = false → s.cur.need s.cfg s.inMem 32 = .ok c →
    (s.slot t).hash[c.head.toNat / 2 ^ (32 - s.cfg.hashBits)]? = some e → 1 ≤ e.len → e.len ≤ 32 →
    exec (.hufRead tr) s = .next ((s.withCur (c.dropped e.len)).withResult (BitVec.ofNat 32 e.sym))

/-- R212: on a hash miss the first threshold at most the window decides: the symbol is found by the offset from it, and
that entry's length is dropped. -/
def Obligations.HufReadLongCode : Prop :=
  ∀ (s : State) (tr : TreeSel) (t : SlotId) (c : Cursor) (j k : Nat) (e : LongEntry) (y : Sym),
    operandTR tr = some t → (t = .dict → s.dictValid = true) → (s.slot t).empty = false →
    s.cur.need s.cfg s.inMem 32 = .ok c →
    ((s.slot t).hash.getD (c.head.toNat / 2 ^ (32 - s.cfg.hashBits)) ⟨0, 0⟩).len = 0 →
    (s.slot t).long[j]? = some e → (∀ j' < j, ∀ e', (s.slot t).long[j']? = some e' → c.head < e'.thr) →
    e.thr ≤ c.head → 1 ≤ e.len → e.len ≤ 32 → k = (c.head.toNat - e.thr.toNat) / 2 ^ (32 - e.len) → k < e.cnt →
    (s.slot t).symArr[e.off + k]? = some y →
    exec (.hufRead tr) s = .next ((s.withCur (c.dropped e.len)).withResult (BitVec.ofNat 32 y))

/-- R210, R213: reading an empty tree raises `Corrupt`, and so does a window below every threshold or past the codes of
the length it falls in. -/
def Obligations.HufReadNoCodeIsCorrupt : Prop :=
  ∀ (s : State) (tr : TreeSel) (t : SlotId), operandTR tr = some t → (t = .dict → s.dictValid = true) →
    ((s.slot t).empty = true → exec (.hufRead tr) s = .next (s.raise (.err .corrupt))) ∧
    (∀ c, (s.slot t).empty = false → s.cur.need s.cfg s.inMem 32 = .ok c →
      ((s.slot t).hash.getD (c.head.toNat / 2 ^ (32 - s.cfg.hashBits)) ⟨0, 0⟩).len = 0 →
      ((∀ e ∈ (s.slot t).long, c.head < e.thr) ∨
        ∃ (j : Nat) (e : LongEntry), (s.slot t).long[j]? = some e ∧
          (∀ j' < j, ∀ e', (s.slot t).long[j']? = some e' → c.head < e'.thr) ∧ e.thr ≤ c.head ∧
          e.cnt ≤ (c.head.toNat - e.thr.toNat) / 2 ^ (32 - e.len)) →
      exec (.hufRead tr) s = .next ((s.withCur c).raise (.err .corrupt)))

/-- R214: decode equivalence. In a slot that `BUILD` filled, a window that begins with the code of a symbol decodes to
that symbol and drops exactly the code; a window no code begins raises `Corrupt`. In both layouts. -/
def Obligations.BuiltTreeDecodesItsCodes : Prop :=
  ∀ (s : State) (b : Builder) (gs : List Group) (tr : TreeSel) (t : SlotId) (c : Cursor),
    s.cfg.wf → b.assign s.cfg = some gs → b.build s.cfg = some (s.slot t) → (s.slot t).empty = false →
    operandTR tr = some t → (t = .dict → s.dictValid = true) → s.cur.need s.cfg s.inMem 32 = .ok c →
    (∀ g ∈ gs, ∀ (k : Nat) (y : Sym), g.syms[k]? = some y → Begins c.head g.len (g.base + k) →
      exec (.hufRead tr) s = .next ((s.withCur (c.dropped g.len)).withResult (BitVec.ofNat 32 y))) ∧
    ((∀ g ∈ gs, ∀ k < g.syms.length, ¬ Begins c.head g.len (g.base + k)) →
      exec (.hufRead tr) s = .next ((s.withCur c).raise (.err .corrupt)))

/-- R224: a description with N = 0 returns 0 and leaves its slot empty; only 16 bits are consumed. (`descRem` is the
model's own field: log 5.) -/
def Obligations.DescReadEndMarker : Prop :=
  ∀ (s : State) (tr : TreeSel) (t : SlotId) (c : Cursor), operandTR tr = some t → t ≠ .dict → s.dictValid = true →
    s.cur.need s.cfg s.inMem 16 = .ok c → c.head.toNat / 2 ^ 16 = 0 →
    ∃ b x, exec (.descRead tr) s = .next (((((s.withCur (c.dropped 16)).withBld b).withDec
        { s.dec with descRem := -1 }).withSlot t x).withResult 0) ∧ b.atReset ∧ x.atReset

/-- R223: N > `MAX_SYMBOLS` raises `InvalidInput` right after N is read. -/
def Obligations.DescReadTooManySymbols : Prop :=
  ∀ (s : State) (tr : TreeSel) (t : SlotId) (c : Cursor), operandTR tr = some t → t ≠ .dict → s.dictValid = true →
    s.cur.need s.cfg s.inMem 16 = .ok c → s.cfg.maxSymbols < c.head.toNat / 2 ^ 16 →
    exec (.descRead tr) s = .next ((s.withCur (c.dropped 16)).raise (.err .invalidInput))

/-- R220, R221, R222, R224: a description of N > 0 symbols whose codes the dictionary tree gives, the last of them the
first to use the symbols up. Its symbols get the lengths of its codes from symbol N - 1 down, a skipped one none; the slot
is built from them, or `Corrupt` raised where they pass the code space (R175); N is returned. The last code may skip past
symbol 0, but if it is a run it must end there, else `Corrupt` is raised. If every code skips, the builder and the slot are
empty. (`descRem` is the model's own field: log 5.) -/
def Obligations.DescReadBuildsDescription : Prop :=
  ∀ (s : State) (tr : TreeSel) (t : SlotId) (c c' : Cursor) (n : Nat) (ys : List Sym) (y : Sym) (lens : List Nat),
    operandTR tr = some t → t ≠ .dict → s.dictValid = true → s.dict.empty = false →
    s.cur.need s.cfg s.inMem 16 = .ok c → n = c.head.toNat / 2 ^ 16 → 0 < n → n ≤ s.cfg.maxSymbols →
    ReadsCodes s (c.dropped 16) (ys ++ [y]) c' → (descLengths s.cfg.symBits ys).length < n →
    lens = descLengths s.cfg.symBits (ys ++ [y]) → n ≤ lens.length →
    (y % 32 = 0 ∨ lens.length = n →
      (∀ x, (describedBuilder s.cfg n lens).build s.cfg = some x →
        exec (.descRead tr) s = .next (((((s.withCur c').withBld (describedBuilder s.cfg n lens)).withDec
          { s.dec with descRem := (n : Int) - 1 - lens.length }).withSlot t x).withResult (BitVec.ofNat 32 n)) ∧
        ((∀ z ∈ ys ++ [y], z % 32 = 0) → (describedBuilder s.cfg n lens).atReset ∧ x.atReset)) ∧
      ((describedBuilder s.cfg n lens).build s.cfg = none → s.err = none →
        ∃ u, exec (.descRead tr) s = .next u ∧ u.err = some .corrupt)) ∧
    (y % 32 ≠ 0 → lens.length ≠ n → s.err = none →
      ∃ u, exec (.descRead tr) s = .next u ∧ u.err = some .corrupt)

/-- R221: `DESC_SKIP` takes its count from the remaining-symbol index and adds nothing to the builder. -/
def Obligations.DescSkipLowersIndex : Prop :=
  ∀ (cm1 : Nat) (s : State),
    exec (.descSkip cm1) s = .next (s.withDec { s.dec with descRem := s.dec.descRem - ((cm1 : Int) + 1) })

/-- R220, R222: `DESC_RUN` within the symbols that remain gives each of its count symbols, in descending order from the
index, the length, and lowers the index by the count; a count past the symbols that remain raises `Corrupt`. -/
def Obligations.DescRunAssignsLengths : Prop :=
  ∀ (len : BitVec 5) (cm1 : Nat) (s : State), len ≠ 0 → s.dec.descRem < s.cfg.maxSymbols →
    (∀ j : Nat, s.dec.descRem - cm1 ≤ j → (j : Int) ≤ s.dec.descRem → s.bld.present j = false) →
    ((cm1 : Int) ≤ s.dec.descRem →
      exec (.descRun len cm1) s = .next (
        (s.withBld ((List.range (cm1 + 1)).foldl
          (fun b j => b.insert (s.dec.descRem.toNat - j) len.toNat) s.bld)).withDec
        { s.dec with descRem := s.dec.descRem - ((cm1 : Int) + 1) })) ∧
    (s.dec.descRem < (cm1 : Int) → s.err = none →
      ∃ t, exec (.descRun len cm1) s = .next t ∧ t.err = some .corrupt)

/-! ### The dat decoder -/

/-- R250: while output is left (R249, R258) a literal writes its byte at `OUTPOS`, every other byte of OUT as before, and
advances. -/
def Obligations.LiteralWritesOneByte : Prop :=
  ∀ (b : Byte) (s : State), s.dec.outPos < s.dec.eff → ∃ t, exec (.lit b) s = .next t ∧
    (∀ a, t.outMem.read? a = if a = s.dec.outPos.toNat then some b else s.outMem.read? a) ∧
    t = (s.withOutMem t.outMem).withDec { s.dec with outPos := s.dec.outPos + 1 } ∧
    t.dec.outPos.toNat = s.dec.outPos.toNat + 1

/-- R251, R252: every copy symbol up to 0x11C completes: the size, extra bits and const-add included, is the one the
classes of R106 give; a symbol above it raises `Corrupt`. -/
def Obligations.CopySymbolsGiveSize : Prop :=
  (∀ r, SizeCompletes (.cpyB0 r) 0 r.toNat) ∧ (∀ r, SizeCompletes (.cpyB1 r) 1 r.toNat) ∧
  (∀ r, SizeCompletes (.cpyB2 r) 2 r.toNat) ∧ (∀ r, SizeCompletes (.cpyB3 r) 3 r.toNat) ∧
  (∀ r, SizeCompletes (.cpyB4 r) 4 r.toNat) ∧ (∀ r, SizeCompletes (.cpyB5 r) 5 r.toNat) ∧
  (∀ r, SizeCompletes (.cpyB6 r) 6 r.toNat) ∧
  (∀ s : State, exec .cpyFF s = .next (s.withDec { s.dec with copySize := 255 + s.dec.constAdd.toNat })) ∧
  ∀ (y : Sym) (s : State), 0x11D ≤ y → exec (.cpyRsv y) s = .next (s.raise (.err .corrupt))

/-- R253, R108: an offset symbol past the largest bucket raises `Corrupt`. -/
def Obligations.ReservedOffsetSymbolIsCorrupt : Prop :=
  ∀ (y : Sym) (s : State), 2 * s.cfg.offsetMaxBucket + 2 ≤ y →
    exec (.offRsv y) s = .next (s.raise (.err .corrupt))

/-- R253, R254, R255: every offset symbol whose offset is within the bytes produced completes: the copy of the size under
way is made, byte by byte forward, overlapping runs repeating, cut at `EFF`; an offset past them, or a bucket past
`OFFSET_MAX_BUCKET`, raises `Corrupt`. The symbols from 34 on, reserved where `OFFSET_MAX_BUCKET` is 16, copy where it is
larger (log 8). -/
def Obligations.OffsetSymbolsCopy : Prop :=
  (∀ r, OffsetMeaning (.offB0 r) 0 r.toNat) ∧ (∀ r, OffsetMeaning (.offB1 r) 1 r.toNat) ∧
  (∀ r, OffsetMeaning (.offB2 r) 2 r.toNat) ∧ (∀ r, OffsetMeaning (.offB3 r) 3 r.toNat) ∧
  (∀ r, OffsetMeaning (.offB4 r) 4 r.toNat) ∧ (∀ r, OffsetMeaning (.offB5 r) 5 r.toNat) ∧
  (∀ r, OffsetMeaning (.offB6 r) 6 r.toNat) ∧ (∀ r, OffsetMeaning (.offB7 r) 7 r.toNat) ∧
  (∀ r, OffsetMeaning (.offB8 r) 8 r.toNat) ∧ (∀ r, OffsetMeaning (.offB9 r) 9 r.toNat) ∧
  (∀ r, OffsetMeaning (.offB10 r) 10 r.toNat) ∧ (∀ r, OffsetMeaning (.offB11 r) 11 r.toNat) ∧
  (∀ r, OffsetMeaning (.offB12 r) 12 r.toNat) ∧ (∀ r, OffsetMeaning (.offB13 r) 13 r.toNat) ∧
  (∀ r, OffsetMeaning (.offB14 r) 14 r.toNat) ∧ (∀ r, OffsetMeaning (.offB15 r) 15 r.toNat) ∧
  (∀ r, OffsetMeaning (.offB16 r) 16 r.toNat) ∧
  ∀ y : Sym, 34 ≤ y → OffsetMeaning (.offRsv y) (y / 2) (y % 2)

/-- R241: the argument checks of `DAT_DECODE`, made before any other effect. -/
def Obligations.DatDecodeChecksArguments : Prop :=
  ∀ s : State, (s.inPresent = false ∨ (s.outPresent = true ∧ s.outSize = 0)) →
    exec .datDecode s = .next (s.raise (.err .invalidInput))

/-- R243: with fewer than 4 bytes of input the second header pull raises `Truncated`. -/
def Obligations.DatDecodeTruncatedHeader : Prop :=
  ∀ s : State, s.inPresent = true → (s.outPresent = true → s.outSize ≠ 0) → s.dictValid = true → s.err = none →
    s.inLen.toNat < 4 → ∃ t, exec .datDecode s = .next t ∧ t.err = some .truncated

/-- R243, R247, R256: a declared size of 0 (an input of 4 to 7 bytes among them) produces nothing: `OUT_SIZE` = `RESULT`
= 0 and no block is read. With the const-add field read once per call, it is read here, after the header, its value in bits
3:0 of the byte (0 where the one tolerated pull supplies it; `Truncated` where the header used that pull up); with the
field read per block it is not. -/
def Obligations.DatDecodeOfNothing : Prop :=
  ∀ (s : State) (w : Word), s.inPresent = true → (s.outPresent = true → s.outSize ≠ 0) → s.dictValid = true →
    3 ≤ s.cfg.skipStride → w = (if 12 ≤ s.inLen.toNat then inWord s.inMem 2 else 0) →
    (s.cfg.constAddScope = .perBlock →
      (4 ≤ s.inLen.toNat ∧ s.inLen.toNat < 8) ∨ (8 ≤ s.inLen.toNat ∧ inWord s.inMem 1 = 0) →
      ∃ t, exec .datDecode s = .next t ∧ t.outSize = 0 ∧ t.result = 0 ∧ t.dec.outPos = 0 ∧ t.dec.eff = 0 ∧
        t.err = s.err ∧ t.sym = s.sym ∧ t.copy = s.copy ∧ t.dict = s.dict ∧ t.bld = s.bld ∧ t.cur.pos = 2 ∧
        t.cur.bits = 0 ∧ t.dec.constAdd = s.dec.constAdd ∧ t.inMem = s.inMem ∧
        (s.outPresent = true → t.outMem = s.outMem) ∧ (s.outPresent = false → t.outLen = some 0)) ∧
    (s.cfg.constAddScope = .perCall → 4 ≤ s.cfg.skipStride → 8 ≤ s.inLen.toNat → inWord s.inMem 1 = 0 →
      ∃ t, exec .datDecode s = .next t ∧ t.outSize = 0 ∧ t.result = 0 ∧ t.dec.outPos = 0 ∧ t.dec.eff = 0 ∧
        t.err = s.err ∧ t.sym = s.sym ∧ t.copy = s.copy ∧ t.dict = s.dict ∧ t.bld = s.bld ∧ t.cur.pos = 3 ∧
        t.cur.bits = 24 ∧ t.dec.constAdd.toNat = w.toNat / 2 ^ 24 % 16 + 1 ∧ t.inMem = s.inMem ∧
        (s.outPresent = true → t.outMem = s.outMem) ∧ (s.outPresent = false → t.outLen = some 0)) ∧
    (s.cfg.constAddScope = .perCall → s.err = none → 4 ≤ s.inLen.toNat → s.inLen.toNat < 8 →
      ∃ t, exec .datDecode s = .next t ∧ t.err = some .truncated)

/-- R100, R101, R240, R243 to R249: the read order of a `DAT_DECODE`. It completes, whatever its state, where the stream
has the header, the fields in the order of R100 and R101, and blocks up to a full output or to the end marker of either
description, and it leaves what `Decodes` says, with `OUTPOS` in `OUT_SIZE` and `RESULT` (R256); and wherever it ends
without error, the stream had them. In particular, a stream whose first block begins with an end marker, be it that of
the one tolerated zero word, produces nothing: the const-add byte (the call's or the block's: both scopes read it here) and
N are consumed, the symbol tree is empty and the copy tree is not read. (`MAXCOUNT` past 17 bits: log 23.) -/
def Obligations.DatDecodeReadsItsBlocks : Prop :=
  (∀ s : State, s.err = none → s.inPresent = true → (s.outPresent = true → s.outSize ≠ 0) →
    (∀ t, Decodes s t → exec .datDecode s = .next ((t.withOutSize t.dec.outPos).withResult t.dec.outPos)) ∧
    ∀ t, Completes .datDecode s t →
      ∃ u, Decodes s u ∧ t = (u.withOutSize u.dec.outPos).withResult u.dec.outPos) ∧
  ∀ (s : State) (w : Word), s.inPresent = true → (s.outPresent = true → s.outSize ≠ 0) → s.dictValid = true →
    4 ≤ s.cfg.skipStride → 8 ≤ s.inLen.toNat → inWord s.inMem 1 ≠ 0 →
    w = (if 12 ≤ s.inLen.toNat then inWord s.inMem 2 else 0) → w.toNat / 2 ^ 8 % 2 ^ 16 = 0 →
    ∃ t, exec .datDecode s = .next t ∧ t.outSize = 0 ∧ t.result = 0 ∧ t.dec.outPos = 0 ∧
      t.dec.constAdd.toNat = w.toNat / 2 ^ 24 % 16 + 1 ∧
      t.dec.eff = (if s.outSize = 0 ∨ inWord s.inMem 1 ≤ s.outSize then inWord s.inMem 1 else s.outSize) ∧
      t.err = s.err ∧ t.sym.empty = true ∧ t.copy = s.copy ∧ t.dict = s.dict ∧ t.cur.pos = 3 ∧ t.cur.bits = 8 ∧
      t.cur.exh = decide (s.inLen.toNat < 12) ∧
      t.inMem = s.inMem ∧ (s.outPresent = true → t.outMem = s.outMem) ∧
      (s.outPresent = false → t.outLen = some t.dec.eff)

/-- R248, R249, R105: the max-count field v gives `MAXCOUNT` = (v + 1) << `MAXCOUNT_SHIFT` (4096 to 65536 with the default
field), `COUNT` starting at 0; a token loop ends without error exactly where it can run tokens one by one, each counted in
`COUNT`, each one `SYM` symbol and what it implies, until `COUNT` = `MAXCOUNT` or `OUTPOS` = `EFF`; with the output full it
reads no token. (The registers' width where the field is not the default one is the model's reading of R48: log 23.) -/
def Obligations.MaxCountLimitsTokens : Prop :=
  (∀ (s : State) (c : Cursor) (v : Nat), s.cur.need s.cfg s.inMem s.cfg.maxCountBits = .ok c →
    v = c.head.toNat / 2 ^ (32 - s.cfg.maxCountBits) →
    maxCountField s = .ok () ((s.withCur (c.dropped s.cfg.maxCountBits)).withDec
      { s.dec with maxCount := (v + 1) * 2 ^ s.cfg.maxCountShift, count := 0 }) ∧
    (s.cfg.maxCountBits = 4 → s.cfg.maxCountShift = 12 →
      4096 ≤ (v + 1) * 2 ^ s.cfg.maxCountShift ∧ (v + 1) * 2 ^ s.cfg.maxCountShift ≤ 65536)) ∧
  ∀ s : State,
    (s.dec.outPos = s.dec.eff → tokenLoop s.dec.maxCount s = .ok () s) ∧
    (s.err = none → s.dec.outPos ≤ s.dec.eff → s.dec.fits s.cfg → s.dec.count = 0 →
      (∀ t, tokenLoop s.dec.maxCount s = .ok () t ↔ BlockTokens s t) ∧
      ∀ t, BlockTokens s t → t.dec.maxCount = s.dec.maxCount ∧ t.dec.eff = s.dec.eff ∧ t.dec.outPos ≤ t.dec.eff)

/-- R244, R245, R256, R258: a `DAT_DECODE` without error reports `OUTPOS` in `OUT_SIZE` and `RESULT`, never passes `EFF` or
the size the host asked for, has written every byte below `OUTPOS`, changes no byte of a host's OUT from `OUTPOS` on, and
provides, where the host did not, an OUT of exactly `EFF` bytes. (That no byte of it from `OUTPOS` on is known, and that a
host access past it stops the model, is the model's choice: log 14.) -/
def Obligations.DatDecodeOutputBound : Prop :=
  ∀ s t : State, exec .datDecode s = .next t → s.err = none → t.err = none →
    t.outSize = t.dec.outPos ∧ t.result = t.dec.outPos ∧ t.dec.outPos ≤ t.dec.eff ∧
    (s.outSize ≠ 0 → t.dec.eff ≤ s.outSize) ∧
    (∀ a < t.dec.outPos.toNat, ∃ b, t.outMem.read? a = some b) ∧
    (∀ a, t.dec.outPos.toNat ≤ a → t.outMem.read? a = if s.outPresent then s.outMem.read? a else none) ∧
    (s.outPresent = false → t.outLen = some t.dec.eff ∧
      ∀ (a : Word) (rest : List Input), t.dec.eff ≤ a →
        step (t.withInputs (.memRead .output a :: rest)) = .fault .noSuchOutByte)

/-! ### Invariants -/

/-- Reset leaves a sound state, for every parameter value in its range and so for the machine's own: memories canonical,
tables complete, window zero-filled, buckets disjoint, registers within their widths. -/
def Obligations.ResetIsSound : Prop := State.reset.sound ∧ ∀ cfg : Config, cfg.wf → (State.resetOf cfg).sound

/-- R39 to R41, R44 to R48, R67, R172, R303 and the canonical form of the memories: every step keeps a sound state sound. -/
def Obligations.EveryStepKeepsSound : Prop := ∀ s t : State, s.sound → step s = .next t → t.sound
end

