-- ==== Sys2Proof/Laws/Memory.lean ====
section
/-! SUPPORT. What each memory operation does to every byte, and that each keeps the canonical form. -/

namespace Sys2Proof.Machine

theorem Memory.read?_write (m : Memory) (a x : Nat) (v : Byte) :
    (m.write a v).read? x = if x = a then some v else m.read? x := by
  induction m with
  | nil => simp only [Memory.write, Memory.read?, eq_comm]
  | cons c m ih =>
    obtain ⟨k, b⟩ := c
    by_cases hlt : a < k
    · simp only [Memory.write, if_pos hlt, Memory.read?, eq_comm]
    · by_cases heq : a = k
      · subst heq
        by_cases hx : x = a
        · simp [Memory.write, Memory.read?, hx]
        · simp [Memory.write, Memory.read?, hx, Ne.symm hx]
      · rw [Memory.write, if_neg hlt, if_neg heq]
        simp only [Memory.read?, ih]
        by_cases hk : k = x
        · subst hk; simp [Ne.symm heq]
        · simp [hk]

theorem Memory.read?_filter (p : Nat → Bool) (m : Memory) (x : Nat) :
    Memory.read? (m.filter fun c => p c.1) x = if p x then Memory.read? m x else none := by
  induction m with
  | nil => simp [Memory.read?]
  | cons c m ih =>
    obtain ⟨k, b⟩ := c
    by_cases hp : p k
    · simp only [List.filter_cons, hp, if_true, Memory.read?, ih]
      by_cases hk : k = x
      · subst hk; simp [hp]
      · simp [hk]
    · rw [List.filter_cons, if_neg hp, ih, Memory.read?]
      by_cases hk : k = x
      · subst hk; simp [hp]
      · simp [hk]

theorem Memory.read?_erase (m : Memory) (a x : Nat) :
    (m.erase a).read? x = if x = a then none else m.read? x := by
  rw [Memory.erase, Memory.read?_filter (fun k => decide (k ≠ a))]
  by_cases h : x = a <;> simp [h]

theorem Memory.read?_eraseBelow (m : Memory) (n x : Nat) :
    (m.eraseBelow n).read? x = if n ≤ x then m.read? x else none := by
  rw [Memory.eraseBelow, Memory.read?_filter (fun k => decide (n ≤ k))]
  simp

theorem Memory.read?_put (m : Memory) (a x : Nat) (v : Option Byte) :
    (m.put a v).read? x = if x = a then v else m.read? x := by
  cases v with
  | none => exact m.read?_erase a x
  | some b => exact m.read?_write a x b

theorem Memory.risingFrom_mono {m : Memory} {lo lo' : Nat} (h : lo' ≤ lo) (hm : Memory.risingFrom lo m = true) :
    Memory.risingFrom lo' m = true := by
  cases m with
  | nil => rfl
  | cons c m =>
    simp only [Memory.risingFrom, Bool.and_eq_true, decide_eq_true_eq] at hm ⊢
    exact ⟨⟨by omega, hm.1.2⟩, hm.2⟩

theorem Memory.risingFrom_write {m : Memory} {lo a : Nat} (v : Byte) (hlo : lo ≤ a) (ha : a < 2 ^ 32)
    (hm : Memory.risingFrom lo m = true) : Memory.risingFrom lo (m.write a v) = true := by
  induction m generalizing lo with
  | nil => simpa [Memory.write, Memory.risingFrom, hlo] using ha
  | cons c m ih =>
    obtain ⟨k, b⟩ := c
    simp only [Memory.risingFrom, Bool.and_eq_true, decide_eq_true_eq] at hm
    by_cases hlt : a < k
    · simp only [Memory.write, if_pos hlt, Memory.risingFrom, Bool.and_eq_true, decide_eq_true_eq]
      exact ⟨⟨hlo, ha⟩, ⟨by omega, hm.1.2⟩, hm.2⟩
    · by_cases heq : a = k
      · subst heq
        simp only [Memory.write, if_neg hlt, if_true, Memory.risingFrom, Bool.and_eq_true, decide_eq_true_eq]
        exact ⟨⟨hlo, ha⟩, hm.2⟩
      · rw [Memory.write, if_neg hlt, if_neg heq]
        simp only [Memory.risingFrom, Bool.and_eq_true, decide_eq_true_eq]
        exact ⟨hm.1, ih (by omega) hm.2⟩

theorem Memory.risingFrom_filter {m : Memory} {lo : Nat} (p : Host.Cell → Bool)
    (hm : Memory.risingFrom lo m = true) : Memory.risingFrom lo (m.filter p) = true := by
  induction m generalizing lo with
  | nil => rfl
  | cons c m ih =>
    simp only [Memory.risingFrom, Bool.and_eq_true, decide_eq_true_eq] at hm
    by_cases hp : p c
    · simp only [List.filter_cons, hp, if_true, Memory.risingFrom, Bool.and_eq_true, decide_eq_true_eq]
      exact ⟨hm.1, ih hm.2⟩
    · rw [List.filter_cons, if_neg hp]
      exact Memory.risingFrom_mono (by omega) (ih hm.2)

theorem Memory.write_wf {m : Memory} {a : Nat} (v : Byte) (ha : a < 2 ^ 32) (hm : m.wf = true) :
    (m.write a v).wf = true := Memory.risingFrom_write v (Nat.zero_le a) ha hm

theorem Memory.erase_wf {m : Memory} (a : Nat) (hm : m.wf = true) : (m.erase a).wf = true :=
  Memory.risingFrom_filter _ hm

theorem Memory.eraseBelow_wf {m : Memory} (n : Nat) (hm : m.wf = true) : (m.eraseBelow n).wf = true :=
  Memory.risingFrom_filter _ hm

theorem Memory.put_wf {m : Memory} {a : Nat} (v : Option Byte) (ha : a < 2 ^ 32) (hm : m.wf = true) :
    (m.put a v).wf = true := by
  cases v with
  | none => exact Memory.erase_wf a hm
  | some b => exact Memory.write_wf b ha hm

/-- The memory at reset is canonical. -/
theorem State.reset_memories_wf : State.reset.inMem.wf = true ∧ State.reset.outMem.wf = true := ⟨rfl, rfl⟩

end Sys2Proof.Machine
end

