-- ==== Sys2Proof/Laws/State.lean ====
section
/-! SUPPORT. One lemma per field per update of State (all by rfl), and the same for a slot write, an error and a reset. -/

namespace Sys2Proof.Machine

variable (s : State)

/-! #### withErr -/

@[simp] theorem State.withErr_cfg (x : Option ErrKind) : (s.withErr x).cfg = s.cfg := rfl
@[simp] theorem State.withErr_err (x : Option ErrKind) : (s.withErr x).err = x := rfl
@[simp] theorem State.withErr_result (x : Option ErrKind) : (s.withErr x).result = s.result := rfl
@[simp] theorem State.withErr_inLen (x : Option ErrKind) : (s.withErr x).inLen = s.inLen := rfl
@[simp] theorem State.withErr_inPresent (x : Option ErrKind) : (s.withErr x).inPresent = s.inPresent := rfl
@[simp] theorem State.withErr_outPresent (x : Option ErrKind) : (s.withErr x).outPresent = s.outPresent := rfl
@[simp] theorem State.withErr_outSize (x : Option ErrKind) : (s.withErr x).outSize = s.outSize := rfl
@[simp] theorem State.withErr_cur (x : Option ErrKind) : (s.withErr x).cur = s.cur := rfl
@[simp] theorem State.withErr_bld (x : Option ErrKind) : (s.withErr x).bld = s.bld := rfl
@[simp] theorem State.withErr_dict (x : Option ErrKind) : (s.withErr x).dict = s.dict := rfl
@[simp] theorem State.withErr_sym (x : Option ErrKind) : (s.withErr x).sym = s.sym := rfl
@[simp] theorem State.withErr_copy (x : Option ErrKind) : (s.withErr x).copy = s.copy := rfl
@[simp] theorem State.withErr_dictValid (x : Option ErrKind) : (s.withErr x).dictValid = s.dictValid := rfl
@[simp] theorem State.withErr_dec (x : Option ErrKind) : (s.withErr x).dec = s.dec := rfl
@[simp] theorem State.withErr_inMem (x : Option ErrKind) : (s.withErr x).inMem = s.inMem := rfl
@[simp] theorem State.withErr_outMem (x : Option ErrKind) : (s.withErr x).outMem = s.outMem := rfl
@[simp] theorem State.withErr_outLen (x : Option ErrKind) : (s.withErr x).outLen = s.outLen := rfl
@[simp] theorem State.withErr_free (x : Option ErrKind) : (s.withErr x).free = s.free := rfl
@[simp] theorem State.withErr_inputs (x : Option ErrKind) : (s.withErr x).inputs = s.inputs := rfl
@[simp] theorem State.withErr_hostData (x : Option ErrKind) : (s.withErr x).hostData = s.hostData := rfl

/-! #### withResult -/

@[simp] theorem State.withResult_cfg (x : Word) : (s.withResult x).cfg = s.cfg := rfl
@[simp] theorem State.withResult_err (x : Word) : (s.withResult x).err = s.err := rfl
@[simp] theorem State.withResult_result (x : Word) : (s.withResult x).result = x := rfl
@[simp] theorem State.withResult_inLen (x : Word) : (s.withResult x).inLen = s.inLen := rfl
@[simp] theorem State.withResult_inPresent (x : Word) : (s.withResult x).inPresent = s.inPresent := rfl
@[simp] theorem State.withResult_outPresent (x : Word) : (s.withResult x).outPresent = s.outPresent := rfl
@[simp] theorem State.withResult_outSize (x : Word) : (s.withResult x).outSize = s.outSize := rfl
@[simp] theorem State.withResult_cur (x : Word) : (s.withResult x).cur = s.cur := rfl
@[simp] theorem State.withResult_bld (x : Word) : (s.withResult x).bld = s.bld := rfl
@[simp] theorem State.withResult_dict (x : Word) : (s.withResult x).dict = s.dict := rfl
@[simp] theorem State.withResult_sym (x : Word) : (s.withResult x).sym = s.sym := rfl
@[simp] theorem State.withResult_copy (x : Word) : (s.withResult x).copy = s.copy := rfl
@[simp] theorem State.withResult_dictValid (x : Word) : (s.withResult x).dictValid = s.dictValid := rfl
@[simp] theorem State.withResult_dec (x : Word) : (s.withResult x).dec = s.dec := rfl
@[simp] theorem State.withResult_inMem (x : Word) : (s.withResult x).inMem = s.inMem := rfl
@[simp] theorem State.withResult_outMem (x : Word) : (s.withResult x).outMem = s.outMem := rfl
@[simp] theorem State.withResult_outLen (x : Word) : (s.withResult x).outLen = s.outLen := rfl
@[simp] theorem State.withResult_free (x : Word) : (s.withResult x).free = s.free := rfl
@[simp] theorem State.withResult_inputs (x : Word) : (s.withResult x).inputs = s.inputs := rfl
@[simp] theorem State.withResult_hostData (x : Word) : (s.withResult x).hostData = s.hostData := rfl

/-! #### withInLen -/

@[simp] theorem State.withInLen_cfg (x : Word) : (s.withInLen x).cfg = s.cfg := rfl
@[simp] theorem State.withInLen_err (x : Word) : (s.withInLen x).err = s.err := rfl
@[simp] theorem State.withInLen_result (x : Word) : (s.withInLen x).result = s.result := rfl
@[simp] theorem State.withInLen_inLen (x : Word) : (s.withInLen x).inLen = x := rfl
@[simp] theorem State.withInLen_inPresent (x : Word) : (s.withInLen x).inPresent = s.inPresent := rfl
@[simp] theorem State.withInLen_outPresent (x : Word) : (s.withInLen x).outPresent = s.outPresent := rfl
@[simp] theorem State.withInLen_outSize (x : Word) : (s.withInLen x).outSize = s.outSize := rfl
@[simp] theorem State.withInLen_cur (x : Word) : (s.withInLen x).cur = s.cur := rfl
@[simp] theorem State.withInLen_bld (x : Word) : (s.withInLen x).bld = s.bld := rfl
@[simp] theorem State.withInLen_dict (x : Word) : (s.withInLen x).dict = s.dict := rfl
@[simp] theorem State.withInLen_sym (x : Word) : (s.withInLen x).sym = s.sym := rfl
@[simp] theorem State.withInLen_copy (x : Word) : (s.withInLen x).copy = s.copy := rfl
@[simp] theorem State.withInLen_dictValid (x : Word) : (s.withInLen x).dictValid = s.dictValid := rfl
@[simp] theorem State.withInLen_dec (x : Word) : (s.withInLen x).dec = s.dec := rfl
@[simp] theorem State.withInLen_inMem (x : Word) : (s.withInLen x).inMem = s.inMem := rfl
@[simp] theorem State.withInLen_outMem (x : Word) : (s.withInLen x).outMem = s.outMem := rfl
@[simp] theorem State.withInLen_outLen (x : Word) : (s.withInLen x).outLen = s.outLen := rfl
@[simp] theorem State.withInLen_free (x : Word) : (s.withInLen x).free = s.free := rfl
@[simp] theorem State.withInLen_inputs (x : Word) : (s.withInLen x).inputs = s.inputs := rfl
@[simp] theorem State.withInLen_hostData (x : Word) : (s.withInLen x).hostData = s.hostData := rfl

/-! #### withOutSize -/

@[simp] theorem State.withOutSize_cfg (x : Word) : (s.withOutSize x).cfg = s.cfg := rfl
@[simp] theorem State.withOutSize_err (x : Word) : (s.withOutSize x).err = s.err := rfl
@[simp] theorem State.withOutSize_result (x : Word) : (s.withOutSize x).result = s.result := rfl
@[simp] theorem State.withOutSize_inLen (x : Word) : (s.withOutSize x).inLen = s.inLen := rfl
@[simp] theorem State.withOutSize_inPresent (x : Word) : (s.withOutSize x).inPresent = s.inPresent := rfl
@[simp] theorem State.withOutSize_outPresent (x : Word) : (s.withOutSize x).outPresent = s.outPresent := rfl
@[simp] theorem State.withOutSize_outSize (x : Word) : (s.withOutSize x).outSize = x := rfl
@[simp] theorem State.withOutSize_cur (x : Word) : (s.withOutSize x).cur = s.cur := rfl
@[simp] theorem State.withOutSize_bld (x : Word) : (s.withOutSize x).bld = s.bld := rfl
@[simp] theorem State.withOutSize_dict (x : Word) : (s.withOutSize x).dict = s.dict := rfl
@[simp] theorem State.withOutSize_sym (x : Word) : (s.withOutSize x).sym = s.sym := rfl
@[simp] theorem State.withOutSize_copy (x : Word) : (s.withOutSize x).copy = s.copy := rfl
@[simp] theorem State.withOutSize_dictValid (x : Word) : (s.withOutSize x).dictValid = s.dictValid := rfl
@[simp] theorem State.withOutSize_dec (x : Word) : (s.withOutSize x).dec = s.dec := rfl
@[simp] theorem State.withOutSize_inMem (x : Word) : (s.withOutSize x).inMem = s.inMem := rfl
@[simp] theorem State.withOutSize_outMem (x : Word) : (s.withOutSize x).outMem = s.outMem := rfl
@[simp] theorem State.withOutSize_outLen (x : Word) : (s.withOutSize x).outLen = s.outLen := rfl
@[simp] theorem State.withOutSize_free (x : Word) : (s.withOutSize x).free = s.free := rfl
@[simp] theorem State.withOutSize_inputs (x : Word) : (s.withOutSize x).inputs = s.inputs := rfl
@[simp] theorem State.withOutSize_hostData (x : Word) : (s.withOutSize x).hostData = s.hostData := rfl

/-! #### withCur -/

@[simp] theorem State.withCur_cfg (x : Cursor) : (s.withCur x).cfg = s.cfg := rfl
@[simp] theorem State.withCur_err (x : Cursor) : (s.withCur x).err = s.err := rfl
@[simp] theorem State.withCur_result (x : Cursor) : (s.withCur x).result = s.result := rfl
@[simp] theorem State.withCur_inLen (x : Cursor) : (s.withCur x).inLen = s.inLen := rfl
@[simp] theorem State.withCur_inPresent (x : Cursor) : (s.withCur x).inPresent = s.inPresent := rfl
@[simp] theorem State.withCur_outPresent (x : Cursor) : (s.withCur x).outPresent = s.outPresent := rfl
@[simp] theorem State.withCur_outSize (x : Cursor) : (s.withCur x).outSize = s.outSize := rfl
@[simp] theorem State.withCur_cur (x : Cursor) : (s.withCur x).cur = x := rfl
@[simp] theorem State.withCur_bld (x : Cursor) : (s.withCur x).bld = s.bld := rfl
@[simp] theorem State.withCur_dict (x : Cursor) : (s.withCur x).dict = s.dict := rfl
@[simp] theorem State.withCur_sym (x : Cursor) : (s.withCur x).sym = s.sym := rfl
@[simp] theorem State.withCur_copy (x : Cursor) : (s.withCur x).copy = s.copy := rfl
@[simp] theorem State.withCur_dictValid (x : Cursor) : (s.withCur x).dictValid = s.dictValid := rfl
@[simp] theorem State.withCur_dec (x : Cursor) : (s.withCur x).dec = s.dec := rfl
@[simp] theorem State.withCur_inMem (x : Cursor) : (s.withCur x).inMem = s.inMem := rfl
@[simp] theorem State.withCur_outMem (x : Cursor) : (s.withCur x).outMem = s.outMem := rfl
@[simp] theorem State.withCur_outLen (x : Cursor) : (s.withCur x).outLen = s.outLen := rfl
@[simp] theorem State.withCur_free (x : Cursor) : (s.withCur x).free = s.free := rfl
@[simp] theorem State.withCur_inputs (x : Cursor) : (s.withCur x).inputs = s.inputs := rfl
@[simp] theorem State.withCur_hostData (x : Cursor) : (s.withCur x).hostData = s.hostData := rfl

/-! #### withBld -/

@[simp] theorem State.withBld_cfg (x : Builder) : (s.withBld x).cfg = s.cfg := rfl
@[simp] theorem State.withBld_err (x : Builder) : (s.withBld x).err = s.err := rfl
@[simp] theorem State.withBld_result (x : Builder) : (s.withBld x).result = s.result := rfl
@[simp] theorem State.withBld_inLen (x : Builder) : (s.withBld x).inLen = s.inLen := rfl
@[simp] theorem State.withBld_inPresent (x : Builder) : (s.withBld x).inPresent = s.inPresent := rfl
@[simp] theorem State.withBld_outPresent (x : Builder) : (s.withBld x).outPresent = s.outPresent := rfl
@[simp] theorem State.withBld_outSize (x : Builder) : (s.withBld x).outSize = s.outSize := rfl
@[simp] theorem State.withBld_cur (x : Builder) : (s.withBld x).cur = s.cur := rfl
@[simp] theorem State.withBld_bld (x : Builder) : (s.withBld x).bld = x := rfl
@[simp] theorem State.withBld_dict (x : Builder) : (s.withBld x).dict = s.dict := rfl
@[simp] theorem State.withBld_sym (x : Builder) : (s.withBld x).sym = s.sym := rfl
@[simp] theorem State.withBld_copy (x : Builder) : (s.withBld x).copy = s.copy := rfl
@[simp] theorem State.withBld_dictValid (x : Builder) : (s.withBld x).dictValid = s.dictValid := rfl
@[simp] theorem State.withBld_dec (x : Builder) : (s.withBld x).dec = s.dec := rfl
@[simp] theorem State.withBld_inMem (x : Builder) : (s.withBld x).inMem = s.inMem := rfl
@[simp] theorem State.withBld_outMem (x : Builder) : (s.withBld x).outMem = s.outMem := rfl
@[simp] theorem State.withBld_outLen (x : Builder) : (s.withBld x).outLen = s.outLen := rfl
@[simp] theorem State.withBld_free (x : Builder) : (s.withBld x).free = s.free := rfl
@[simp] theorem State.withBld_inputs (x : Builder) : (s.withBld x).inputs = s.inputs := rfl
@[simp] theorem State.withBld_hostData (x : Builder) : (s.withBld x).hostData = s.hostData := rfl

/-! #### withDict -/

@[simp] theorem State.withDict_cfg (x : Slot) : (s.withDict x).cfg = s.cfg := rfl
@[simp] theorem State.withDict_err (x : Slot) : (s.withDict x).err = s.err := rfl
@[simp] theorem State.withDict_result (x : Slot) : (s.withDict x).result = s.result := rfl
@[simp] theorem State.withDict_inLen (x : Slot) : (s.withDict x).inLen = s.inLen := rfl
@[simp] theorem State.withDict_inPresent (x : Slot) : (s.withDict x).inPresent = s.inPresent := rfl
@[simp] theorem State.withDict_outPresent (x : Slot) : (s.withDict x).outPresent = s.outPresent := rfl
@[simp] theorem State.withDict_outSize (x : Slot) : (s.withDict x).outSize = s.outSize := rfl
@[simp] theorem State.withDict_cur (x : Slot) : (s.withDict x).cur = s.cur := rfl
@[simp] theorem State.withDict_bld (x : Slot) : (s.withDict x).bld = s.bld := rfl
@[simp] theorem State.withDict_dict (x : Slot) : (s.withDict x).dict = x := rfl
@[simp] theorem State.withDict_sym (x : Slot) : (s.withDict x).sym = s.sym := rfl
@[simp] theorem State.withDict_copy (x : Slot) : (s.withDict x).copy = s.copy := rfl
@[simp] theorem State.withDict_dictValid (x : Slot) : (s.withDict x).dictValid = s.dictValid := rfl
@[simp] theorem State.withDict_dec (x : Slot) : (s.withDict x).dec = s.dec := rfl
@[simp] theorem State.withDict_inMem (x : Slot) : (s.withDict x).inMem = s.inMem := rfl
@[simp] theorem State.withDict_outMem (x : Slot) : (s.withDict x).outMem = s.outMem := rfl
@[simp] theorem State.withDict_outLen (x : Slot) : (s.withDict x).outLen = s.outLen := rfl
@[simp] theorem State.withDict_free (x : Slot) : (s.withDict x).free = s.free := rfl
@[simp] theorem State.withDict_inputs (x : Slot) : (s.withDict x).inputs = s.inputs := rfl
@[simp] theorem State.withDict_hostData (x : Slot) : (s.withDict x).hostData = s.hostData := rfl

/-! #### withSym -/

@[simp] theorem State.withSym_cfg (x : Slot) : (s.withSym x).cfg = s.cfg := rfl
@[simp] theorem State.withSym_err (x : Slot) : (s.withSym x).err = s.err := rfl
@[simp] theorem State.withSym_result (x : Slot) : (s.withSym x).result = s.result := rfl
@[simp] theorem State.withSym_inLen (x : Slot) : (s.withSym x).inLen = s.inLen := rfl
@[simp] theorem State.withSym_inPresent (x : Slot) : (s.withSym x).inPresent = s.inPresent := rfl
@[simp] theorem State.withSym_outPresent (x : Slot) : (s.withSym x).outPresent = s.outPresent := rfl
@[simp] theorem State.withSym_outSize (x : Slot) : (s.withSym x).outSize = s.outSize := rfl
@[simp] theorem State.withSym_cur (x : Slot) : (s.withSym x).cur = s.cur := rfl
@[simp] theorem State.withSym_bld (x : Slot) : (s.withSym x).bld = s.bld := rfl
@[simp] theorem State.withSym_dict (x : Slot) : (s.withSym x).dict = s.dict := rfl
@[simp] theorem State.withSym_sym (x : Slot) : (s.withSym x).sym = x := rfl
@[simp] theorem State.withSym_copy (x : Slot) : (s.withSym x).copy = s.copy := rfl
@[simp] theorem State.withSym_dictValid (x : Slot) : (s.withSym x).dictValid = s.dictValid := rfl
@[simp] theorem State.withSym_dec (x : Slot) : (s.withSym x).dec = s.dec := rfl
@[simp] theorem State.withSym_inMem (x : Slot) : (s.withSym x).inMem = s.inMem := rfl
@[simp] theorem State.withSym_outMem (x : Slot) : (s.withSym x).outMem = s.outMem := rfl
@[simp] theorem State.withSym_outLen (x : Slot) : (s.withSym x).outLen = s.outLen := rfl
@[simp] theorem State.withSym_free (x : Slot) : (s.withSym x).free = s.free := rfl
@[simp] theorem State.withSym_inputs (x : Slot) : (s.withSym x).inputs = s.inputs := rfl
@[simp] theorem State.withSym_hostData (x : Slot) : (s.withSym x).hostData = s.hostData := rfl

/-! #### withCopy -/

@[simp] theorem State.withCopy_cfg (x : Slot) : (s.withCopy x).cfg = s.cfg := rfl
@[simp] theorem State.withCopy_err (x : Slot) : (s.withCopy x).err = s.err := rfl
@[simp] theorem State.withCopy_result (x : Slot) : (s.withCopy x).result = s.result := rfl
@[simp] theorem State.withCopy_inLen (x : Slot) : (s.withCopy x).inLen = s.inLen := rfl
@[simp] theorem State.withCopy_inPresent (x : Slot) : (s.withCopy x).inPresent = s.inPresent := rfl
@[simp] theorem State.withCopy_outPresent (x : Slot) : (s.withCopy x).outPresent = s.outPresent := rfl
@[simp] theorem State.withCopy_outSize (x : Slot) : (s.withCopy x).outSize = s.outSize := rfl
@[simp] theorem State.withCopy_cur (x : Slot) : (s.withCopy x).cur = s.cur := rfl
@[simp] theorem State.withCopy_bld (x : Slot) : (s.withCopy x).bld = s.bld := rfl
@[simp] theorem State.withCopy_dict (x : Slot) : (s.withCopy x).dict = s.dict := rfl
@[simp] theorem State.withCopy_sym (x : Slot) : (s.withCopy x).sym = s.sym := rfl
@[simp] theorem State.withCopy_copy (x : Slot) : (s.withCopy x).copy = x := rfl
@[simp] theorem State.withCopy_dictValid (x : Slot) : (s.withCopy x).dictValid = s.dictValid := rfl
@[simp] theorem State.withCopy_dec (x : Slot) : (s.withCopy x).dec = s.dec := rfl
@[simp] theorem State.withCopy_inMem (x : Slot) : (s.withCopy x).inMem = s.inMem := rfl
@[simp] theorem State.withCopy_outMem (x : Slot) : (s.withCopy x).outMem = s.outMem := rfl
@[simp] theorem State.withCopy_outLen (x : Slot) : (s.withCopy x).outLen = s.outLen := rfl
@[simp] theorem State.withCopy_free (x : Slot) : (s.withCopy x).free = s.free := rfl
@[simp] theorem State.withCopy_inputs (x : Slot) : (s.withCopy x).inputs = s.inputs := rfl
@[simp] theorem State.withCopy_hostData (x : Slot) : (s.withCopy x).hostData = s.hostData := rfl

/-! #### withDictValid -/

@[simp] theorem State.withDictValid_cfg (x : Bool) : (s.withDictValid x).cfg = s.cfg := rfl
@[simp] theorem State.withDictValid_err (x : Bool) : (s.withDictValid x).err = s.err := rfl
@[simp] theorem State.withDictValid_result (x : Bool) : (s.withDictValid x).result = s.result := rfl
@[simp] theorem State.withDictValid_inLen (x : Bool) : (s.withDictValid x).inLen = s.inLen := rfl
@[simp] theorem State.withDictValid_inPresent (x : Bool) : (s.withDictValid x).inPresent = s.inPresent := rfl
@[simp] theorem State.withDictValid_outPresent (x : Bool) : (s.withDictValid x).outPresent = s.outPresent := rfl
@[simp] theorem State.withDictValid_outSize (x : Bool) : (s.withDictValid x).outSize = s.outSize := rfl
@[simp] theorem State.withDictValid_cur (x : Bool) : (s.withDictValid x).cur = s.cur := rfl
@[simp] theorem State.withDictValid_bld (x : Bool) : (s.withDictValid x).bld = s.bld := rfl
@[simp] theorem State.withDictValid_dict (x : Bool) : (s.withDictValid x).dict = s.dict := rfl
@[simp] theorem State.withDictValid_sym (x : Bool) : (s.withDictValid x).sym = s.sym := rfl
@[simp] theorem State.withDictValid_copy (x : Bool) : (s.withDictValid x).copy = s.copy := rfl
@[simp] theorem State.withDictValid_dictValid (x : Bool) : (s.withDictValid x).dictValid = x := rfl
@[simp] theorem State.withDictValid_dec (x : Bool) : (s.withDictValid x).dec = s.dec := rfl
@[simp] theorem State.withDictValid_inMem (x : Bool) : (s.withDictValid x).inMem = s.inMem := rfl
@[simp] theorem State.withDictValid_outMem (x : Bool) : (s.withDictValid x).outMem = s.outMem := rfl
@[simp] theorem State.withDictValid_outLen (x : Bool) : (s.withDictValid x).outLen = s.outLen := rfl
@[simp] theorem State.withDictValid_free (x : Bool) : (s.withDictValid x).free = s.free := rfl
@[simp] theorem State.withDictValid_inputs (x : Bool) : (s.withDictValid x).inputs = s.inputs := rfl
@[simp] theorem State.withDictValid_hostData (x : Bool) : (s.withDictValid x).hostData = s.hostData := rfl

/-! #### withDec -/

@[simp] theorem State.withDec_cfg (x : Decoder) : (s.withDec x).cfg = s.cfg := rfl
@[simp] theorem State.withDec_err (x : Decoder) : (s.withDec x).err = s.err := rfl
@[simp] theorem State.withDec_result (x : Decoder) : (s.withDec x).result = s.result := rfl
@[simp] theorem State.withDec_inLen (x : Decoder) : (s.withDec x).inLen = s.inLen := rfl
@[simp] theorem State.withDec_inPresent (x : Decoder) : (s.withDec x).inPresent = s.inPresent := rfl
@[simp] theorem State.withDec_outPresent (x : Decoder) : (s.withDec x).outPresent = s.outPresent := rfl
@[simp] theorem State.withDec_outSize (x : Decoder) : (s.withDec x).outSize = s.outSize := rfl
@[simp] theorem State.withDec_cur (x : Decoder) : (s.withDec x).cur = s.cur := rfl
@[simp] theorem State.withDec_bld (x : Decoder) : (s.withDec x).bld = s.bld := rfl
@[simp] theorem State.withDec_dict (x : Decoder) : (s.withDec x).dict = s.dict := rfl
@[simp] theorem State.withDec_sym (x : Decoder) : (s.withDec x).sym = s.sym := rfl
@[simp] theorem State.withDec_copy (x : Decoder) : (s.withDec x).copy = s.copy := rfl
@[simp] theorem State.withDec_dictValid (x : Decoder) : (s.withDec x).dictValid = s.dictValid := rfl
@[simp] theorem State.withDec_dec (x : Decoder) : (s.withDec x).dec = x := rfl
@[simp] theorem State.withDec_inMem (x : Decoder) : (s.withDec x).inMem = s.inMem := rfl
@[simp] theorem State.withDec_outMem (x : Decoder) : (s.withDec x).outMem = s.outMem := rfl
@[simp] theorem State.withDec_outLen (x : Decoder) : (s.withDec x).outLen = s.outLen := rfl
@[simp] theorem State.withDec_free (x : Decoder) : (s.withDec x).free = s.free := rfl
@[simp] theorem State.withDec_inputs (x : Decoder) : (s.withDec x).inputs = s.inputs := rfl
@[simp] theorem State.withDec_hostData (x : Decoder) : (s.withDec x).hostData = s.hostData := rfl

/-! #### withInMem -/

@[simp] theorem State.withInMem_cfg (x : Memory) : (s.withInMem x).cfg = s.cfg := rfl
@[simp] theorem State.withInMem_err (x : Memory) : (s.withInMem x).err = s.err := rfl
@[simp] theorem State.withInMem_result (x : Memory) : (s.withInMem x).result = s.result := rfl
@[simp] theorem State.withInMem_inLen (x : Memory) : (s.withInMem x).inLen = s.inLen := rfl
@[simp] theorem State.withInMem_inPresent (x : Memory) : (s.withInMem x).inPresent = s.inPresent := rfl
@[simp] theorem State.withInMem_outPresent (x : Memory) : (s.withInMem x).outPresent = s.outPresent := rfl
@[simp] theorem State.withInMem_outSize (x : Memory) : (s.withInMem x).outSize = s.outSize := rfl
@[simp] theorem State.withInMem_cur (x : Memory) : (s.withInMem x).cur = s.cur := rfl
@[simp] theorem State.withInMem_bld (x : Memory) : (s.withInMem x).bld = s.bld := rfl
@[simp] theorem State.withInMem_dict (x : Memory) : (s.withInMem x).dict = s.dict := rfl
@[simp] theorem State.withInMem_sym (x : Memory) : (s.withInMem x).sym = s.sym := rfl
@[simp] theorem State.withInMem_copy (x : Memory) : (s.withInMem x).copy = s.copy := rfl
@[simp] theorem State.withInMem_dictValid (x : Memory) : (s.withInMem x).dictValid = s.dictValid := rfl
@[simp] theorem State.withInMem_dec (x : Memory) : (s.withInMem x).dec = s.dec := rfl
@[simp] theorem State.withInMem_inMem (x : Memory) : (s.withInMem x).inMem = x := rfl
@[simp] theorem State.withInMem_outMem (x : Memory) : (s.withInMem x).outMem = s.outMem := rfl
@[simp] theorem State.withInMem_outLen (x : Memory) : (s.withInMem x).outLen = s.outLen := rfl
@[simp] theorem State.withInMem_free (x : Memory) : (s.withInMem x).free = s.free := rfl
@[simp] theorem State.withInMem_inputs (x : Memory) : (s.withInMem x).inputs = s.inputs := rfl
@[simp] theorem State.withInMem_hostData (x : Memory) : (s.withInMem x).hostData = s.hostData := rfl

/-! #### withOutMem -/

@[simp] theorem State.withOutMem_cfg (x : Memory) : (s.withOutMem x).cfg = s.cfg := rfl
@[simp] theorem State.withOutMem_err (x : Memory) : (s.withOutMem x).err = s.err := rfl
@[simp] theorem State.withOutMem_result (x : Memory) : (s.withOutMem x).result = s.result := rfl
@[simp] theorem State.withOutMem_inLen (x : Memory) : (s.withOutMem x).inLen = s.inLen := rfl
@[simp] theorem State.withOutMem_inPresent (x : Memory) : (s.withOutMem x).inPresent = s.inPresent := rfl
@[simp] theorem State.withOutMem_outPresent (x : Memory) : (s.withOutMem x).outPresent = s.outPresent := rfl
@[simp] theorem State.withOutMem_outSize (x : Memory) : (s.withOutMem x).outSize = s.outSize := rfl
@[simp] theorem State.withOutMem_cur (x : Memory) : (s.withOutMem x).cur = s.cur := rfl
@[simp] theorem State.withOutMem_bld (x : Memory) : (s.withOutMem x).bld = s.bld := rfl
@[simp] theorem State.withOutMem_dict (x : Memory) : (s.withOutMem x).dict = s.dict := rfl
@[simp] theorem State.withOutMem_sym (x : Memory) : (s.withOutMem x).sym = s.sym := rfl
@[simp] theorem State.withOutMem_copy (x : Memory) : (s.withOutMem x).copy = s.copy := rfl
@[simp] theorem State.withOutMem_dictValid (x : Memory) : (s.withOutMem x).dictValid = s.dictValid := rfl
@[simp] theorem State.withOutMem_dec (x : Memory) : (s.withOutMem x).dec = s.dec := rfl
@[simp] theorem State.withOutMem_inMem (x : Memory) : (s.withOutMem x).inMem = s.inMem := rfl
@[simp] theorem State.withOutMem_outMem (x : Memory) : (s.withOutMem x).outMem = x := rfl
@[simp] theorem State.withOutMem_outLen (x : Memory) : (s.withOutMem x).outLen = s.outLen := rfl
@[simp] theorem State.withOutMem_free (x : Memory) : (s.withOutMem x).free = s.free := rfl
@[simp] theorem State.withOutMem_inputs (x : Memory) : (s.withOutMem x).inputs = s.inputs := rfl
@[simp] theorem State.withOutMem_hostData (x : Memory) : (s.withOutMem x).hostData = s.hostData := rfl

/-! #### withOutLen -/

@[simp] theorem State.withOutLen_cfg (x : Option Word) : (s.withOutLen x).cfg = s.cfg := rfl
@[simp] theorem State.withOutLen_err (x : Option Word) : (s.withOutLen x).err = s.err := rfl
@[simp] theorem State.withOutLen_result (x : Option Word) : (s.withOutLen x).result = s.result := rfl
@[simp] theorem State.withOutLen_inLen (x : Option Word) : (s.withOutLen x).inLen = s.inLen := rfl
@[simp] theorem State.withOutLen_inPresent (x : Option Word) : (s.withOutLen x).inPresent = s.inPresent := rfl
@[simp] theorem State.withOutLen_outPresent (x : Option Word) : (s.withOutLen x).outPresent = s.outPresent := rfl
@[simp] theorem State.withOutLen_outSize (x : Option Word) : (s.withOutLen x).outSize = s.outSize := rfl
@[simp] theorem State.withOutLen_cur (x : Option Word) : (s.withOutLen x).cur = s.cur := rfl
@[simp] theorem State.withOutLen_bld (x : Option Word) : (s.withOutLen x).bld = s.bld := rfl
@[simp] theorem State.withOutLen_dict (x : Option Word) : (s.withOutLen x).dict = s.dict := rfl
@[simp] theorem State.withOutLen_sym (x : Option Word) : (s.withOutLen x).sym = s.sym := rfl
@[simp] theorem State.withOutLen_copy (x : Option Word) : (s.withOutLen x).copy = s.copy := rfl
@[simp] theorem State.withOutLen_dictValid (x : Option Word) : (s.withOutLen x).dictValid = s.dictValid := rfl
@[simp] theorem State.withOutLen_dec (x : Option Word) : (s.withOutLen x).dec = s.dec := rfl
@[simp] theorem State.withOutLen_inMem (x : Option Word) : (s.withOutLen x).inMem = s.inMem := rfl
@[simp] theorem State.withOutLen_outMem (x : Option Word) : (s.withOutLen x).outMem = s.outMem := rfl
@[simp] theorem State.withOutLen_outLen (x : Option Word) : (s.withOutLen x).outLen = x := rfl
@[simp] theorem State.withOutLen_free (x : Option Word) : (s.withOutLen x).free = s.free := rfl
@[simp] theorem State.withOutLen_inputs (x : Option Word) : (s.withOutLen x).inputs = s.inputs := rfl
@[simp] theorem State.withOutLen_hostData (x : Option Word) : (s.withOutLen x).hostData = s.hostData := rfl

/-! #### withFree -/

@[simp] theorem State.withFree_cfg (x : Nat) : (s.withFree x).cfg = s.cfg := rfl
@[simp] theorem State.withFree_err (x : Nat) : (s.withFree x).err = s.err := rfl
@[simp] theorem State.withFree_result (x : Nat) : (s.withFree x).result = s.result := rfl
@[simp] theorem State.withFree_inLen (x : Nat) : (s.withFree x).inLen = s.inLen := rfl
@[simp] theorem State.withFree_inPresent (x : Nat) : (s.withFree x).inPresent = s.inPresent := rfl
@[simp] theorem State.withFree_outPresent (x : Nat) : (s.withFree x).outPresent = s.outPresent := rfl
@[simp] theorem State.withFree_outSize (x : Nat) : (s.withFree x).outSize = s.outSize := rfl
@[simp] theorem State.withFree_cur (x : Nat) : (s.withFree x).cur = s.cur := rfl
@[simp] theorem State.withFree_bld (x : Nat) : (s.withFree x).bld = s.bld := rfl
@[simp] theorem State.withFree_dict (x : Nat) : (s.withFree x).dict = s.dict := rfl
@[simp] theorem State.withFree_sym (x : Nat) : (s.withFree x).sym = s.sym := rfl
@[simp] theorem State.withFree_copy (x : Nat) : (s.withFree x).copy = s.copy := rfl
@[simp] theorem State.withFree_dictValid (x : Nat) : (s.withFree x).dictValid = s.dictValid := rfl
@[simp] theorem State.withFree_dec (x : Nat) : (s.withFree x).dec = s.dec := rfl
@[simp] theorem State.withFree_inMem (x : Nat) : (s.withFree x).inMem = s.inMem := rfl
@[simp] theorem State.withFree_outMem (x : Nat) : (s.withFree x).outMem = s.outMem := rfl
@[simp] theorem State.withFree_outLen (x : Nat) : (s.withFree x).outLen = s.outLen := rfl
@[simp] theorem State.withFree_free (x : Nat) : (s.withFree x).free = x := rfl
@[simp] theorem State.withFree_inputs (x : Nat) : (s.withFree x).inputs = s.inputs := rfl
@[simp] theorem State.withFree_hostData (x : Nat) : (s.withFree x).hostData = s.hostData := rfl

/-! #### withInputs -/

@[simp] theorem State.withInputs_cfg (x : List Input) : (s.withInputs x).cfg = s.cfg := rfl
@[simp] theorem State.withInputs_err (x : List Input) : (s.withInputs x).err = s.err := rfl
@[simp] theorem State.withInputs_result (x : List Input) : (s.withInputs x).result = s.result := rfl
@[simp] theorem State.withInputs_inLen (x : List Input) : (s.withInputs x).inLen = s.inLen := rfl
@[simp] theorem State.withInputs_inPresent (x : List Input) : (s.withInputs x).inPresent = s.inPresent := rfl
@[simp] theorem State.withInputs_outPresent (x : List Input) : (s.withInputs x).outPresent = s.outPresent := rfl
@[simp] theorem State.withInputs_outSize (x : List Input) : (s.withInputs x).outSize = s.outSize := rfl
@[simp] theorem State.withInputs_cur (x : List Input) : (s.withInputs x).cur = s.cur := rfl
@[simp] theorem State.withInputs_bld (x : List Input) : (s.withInputs x).bld = s.bld := rfl
@[simp] theorem State.withInputs_dict (x : List Input) : (s.withInputs x).dict = s.dict := rfl
@[simp] theorem State.withInputs_sym (x : List Input) : (s.withInputs x).sym = s.sym := rfl
@[simp] theorem State.withInputs_copy (x : List Input) : (s.withInputs x).copy = s.copy := rfl
@[simp] theorem State.withInputs_dictValid (x : List Input) : (s.withInputs x).dictValid = s.dictValid := rfl
@[simp] theorem State.withInputs_dec (x : List Input) : (s.withInputs x).dec = s.dec := rfl
@[simp] theorem State.withInputs_inMem (x : List Input) : (s.withInputs x).inMem = s.inMem := rfl
@[simp] theorem State.withInputs_outMem (x : List Input) : (s.withInputs x).outMem = s.outMem := rfl
@[simp] theorem State.withInputs_outLen (x : List Input) : (s.withInputs x).outLen = s.outLen := rfl
@[simp] theorem State.withInputs_free (x : List Input) : (s.withInputs x).free = s.free := rfl
@[simp] theorem State.withInputs_inputs (x : List Input) : (s.withInputs x).inputs = x := rfl
@[simp] theorem State.withInputs_hostData (x : List Input) : (s.withInputs x).hostData = s.hostData := rfl

/-! #### withHostData -/

@[simp] theorem State.withHostData_cfg (x : Word) : (s.withHostData x).cfg = s.cfg := rfl
@[simp] theorem State.withHostData_err (x : Word) : (s.withHostData x).err = s.err := rfl
@[simp] theorem State.withHostData_result (x : Word) : (s.withHostData x).result = s.result := rfl
@[simp] theorem State.withHostData_inLen (x : Word) : (s.withHostData x).inLen = s.inLen := rfl
@[simp] theorem State.withHostData_inPresent (x : Word) : (s.withHostData x).inPresent = s.inPresent := rfl
@[simp] theorem State.withHostData_outPresent (x : Word) : (s.withHostData x).outPresent = s.outPresent := rfl
@[simp] theorem State.withHostData_outSize (x : Word) : (s.withHostData x).outSize = s.outSize := rfl
@[simp] theorem State.withHostData_cur (x : Word) : (s.withHostData x).cur = s.cur := rfl
@[simp] theorem State.withHostData_bld (x : Word) : (s.withHostData x).bld = s.bld := rfl
@[simp] theorem State.withHostData_dict (x : Word) : (s.withHostData x).dict = s.dict := rfl
@[simp] theorem State.withHostData_sym (x : Word) : (s.withHostData x).sym = s.sym := rfl
@[simp] theorem State.withHostData_copy (x : Word) : (s.withHostData x).copy = s.copy := rfl
@[simp] theorem State.withHostData_dictValid (x : Word) : (s.withHostData x).dictValid = s.dictValid := rfl
@[simp] theorem State.withHostData_dec (x : Word) : (s.withHostData x).dec = s.dec := rfl
@[simp] theorem State.withHostData_inMem (x : Word) : (s.withHostData x).inMem = s.inMem := rfl
@[simp] theorem State.withHostData_outMem (x : Word) : (s.withHostData x).outMem = s.outMem := rfl
@[simp] theorem State.withHostData_outLen (x : Word) : (s.withHostData x).outLen = s.outLen := rfl
@[simp] theorem State.withHostData_free (x : Word) : (s.withHostData x).free = s.free := rfl
@[simp] theorem State.withHostData_inputs (x : Word) : (s.withHostData x).inputs = s.inputs := rfl
@[simp] theorem State.withHostData_hostData (x : Word) : (s.withHostData x).hostData = x := rfl

/-! #### withPresent -/

@[simp] theorem State.withPresent_cfg (i o : Bool) : (s.withPresent i o).cfg = s.cfg := rfl
@[simp] theorem State.withPresent_err (i o : Bool) : (s.withPresent i o).err = s.err := rfl
@[simp] theorem State.withPresent_result (i o : Bool) : (s.withPresent i o).result = s.result := rfl
@[simp] theorem State.withPresent_inLen (i o : Bool) : (s.withPresent i o).inLen = s.inLen := rfl
@[simp] theorem State.withPresent_inPresent (i o : Bool) : (s.withPresent i o).inPresent = i := rfl
@[simp] theorem State.withPresent_outPresent (i o : Bool) : (s.withPresent i o).outPresent = o := rfl
@[simp] theorem State.withPresent_outSize (i o : Bool) : (s.withPresent i o).outSize = s.outSize := rfl
@[simp] theorem State.withPresent_cur (i o : Bool) : (s.withPresent i o).cur = s.cur := rfl
@[simp] theorem State.withPresent_bld (i o : Bool) : (s.withPresent i o).bld = s.bld := rfl
@[simp] theorem State.withPresent_dict (i o : Bool) : (s.withPresent i o).dict = s.dict := rfl
@[simp] theorem State.withPresent_sym (i o : Bool) : (s.withPresent i o).sym = s.sym := rfl
@[simp] theorem State.withPresent_copy (i o : Bool) : (s.withPresent i o).copy = s.copy := rfl
@[simp] theorem State.withPresent_dictValid (i o : Bool) : (s.withPresent i o).dictValid = s.dictValid := rfl
@[simp] theorem State.withPresent_dec (i o : Bool) : (s.withPresent i o).dec = s.dec := rfl
@[simp] theorem State.withPresent_inMem (i o : Bool) : (s.withPresent i o).inMem = s.inMem := rfl
@[simp] theorem State.withPresent_outMem (i o : Bool) : (s.withPresent i o).outMem = s.outMem := rfl
@[simp] theorem State.withPresent_outLen (i o : Bool) : (s.withPresent i o).outLen = s.outLen := rfl
@[simp] theorem State.withPresent_free (i o : Bool) : (s.withPresent i o).free = s.free := rfl
@[simp] theorem State.withPresent_inputs (i o : Bool) : (s.withPresent i o).inputs = s.inputs := rfl
@[simp] theorem State.withPresent_hostData (i o : Bool) : (s.withPresent i o).hostData = s.hostData := rfl

/-! #### a write of a value a field has already -/

@[simp] theorem State.withErr_self : s.withErr s.err = s := rfl
@[simp] theorem State.withResult_self : s.withResult s.result = s := rfl
@[simp] theorem State.withInLen_self : s.withInLen s.inLen = s := rfl
@[simp] theorem State.withOutSize_self : s.withOutSize s.outSize = s := rfl
@[simp] theorem State.withCur_self : s.withCur s.cur = s := rfl
@[simp] theorem State.withBld_self : s.withBld s.bld = s := rfl
@[simp] theorem State.withDict_self : s.withDict s.dict = s := rfl
@[simp] theorem State.withSym_self : s.withSym s.sym = s := rfl
@[simp] theorem State.withCopy_self : s.withCopy s.copy = s := rfl
@[simp] theorem State.withDictValid_self : s.withDictValid s.dictValid = s := rfl
@[simp] theorem State.withDec_self : s.withDec s.dec = s := rfl
@[simp] theorem State.withInMem_self : s.withInMem s.inMem = s := rfl
@[simp] theorem State.withOutMem_self : s.withOutMem s.outMem = s := rfl
@[simp] theorem State.withOutLen_self : s.withOutLen s.outLen = s := rfl
@[simp] theorem State.withFree_self : s.withFree s.free = s := rfl
@[simp] theorem State.withInputs_self : s.withInputs s.inputs = s := rfl
@[simp] theorem State.withHostData_self : s.withHostData s.hostData = s := rfl

/-! #### withSlot -/

@[simp] theorem State.withSlot_cfg (t : SlotId) (x : Slot) : (s.withSlot t x).cfg = s.cfg := by cases t <;> rfl
@[simp] theorem State.withSlot_err (t : SlotId) (x : Slot) : (s.withSlot t x).err = s.err := by cases t <;> rfl
@[simp] theorem State.withSlot_result (t : SlotId) (x : Slot) : (s.withSlot t x).result = s.result := by cases t <;> rfl
@[simp] theorem State.withSlot_inLen (t : SlotId) (x : Slot) : (s.withSlot t x).inLen = s.inLen := by cases t <;> rfl
@[simp] theorem State.withSlot_inPresent (t : SlotId) (x : Slot) : (s.withSlot t x).inPresent = s.inPresent := by cases t <;> rfl
@[simp] theorem State.withSlot_outPresent (t : SlotId) (x : Slot) : (s.withSlot t x).outPresent = s.outPresent := by cases t <;> rfl
@[simp] theorem State.withSlot_outSize (t : SlotId) (x : Slot) : (s.withSlot t x).outSize = s.outSize := by cases t <;> rfl
@[simp] theorem State.withSlot_cur (t : SlotId) (x : Slot) : (s.withSlot t x).cur = s.cur := by cases t <;> rfl
@[simp] theorem State.withSlot_bld (t : SlotId) (x : Slot) : (s.withSlot t x).bld = s.bld := by cases t <;> rfl
@[simp] theorem State.withSlot_dictValid (t : SlotId) (x : Slot) : (s.withSlot t x).dictValid = s.dictValid := by cases t <;> rfl
@[simp] theorem State.withSlot_dec (t : SlotId) (x : Slot) : (s.withSlot t x).dec = s.dec := by cases t <;> rfl
@[simp] theorem State.withSlot_inMem (t : SlotId) (x : Slot) : (s.withSlot t x).inMem = s.inMem := by cases t <;> rfl
@[simp] theorem State.withSlot_outMem (t : SlotId) (x : Slot) : (s.withSlot t x).outMem = s.outMem := by cases t <;> rfl
@[simp] theorem State.withSlot_outLen (t : SlotId) (x : Slot) : (s.withSlot t x).outLen = s.outLen := by cases t <;> rfl
@[simp] theorem State.withSlot_free (t : SlotId) (x : Slot) : (s.withSlot t x).free = s.free := by cases t <;> rfl
@[simp] theorem State.withSlot_inputs (t : SlotId) (x : Slot) : (s.withSlot t x).inputs = s.inputs := by cases t <;> rfl
@[simp] theorem State.withSlot_hostData (t : SlotId) (x : Slot) : (s.withSlot t x).hostData = s.hostData := by cases t <;> rfl
@[simp] theorem State.slot_withSlot (t : SlotId) (x : Slot) : (s.withSlot t x).slot t = x := by cases t <;> rfl
theorem State.slot_withSlot_of_ne {t u : SlotId} (h : u ≠ t) (x : Slot) : (s.withSlot t x).slot u = s.slot u := by
  cases t <;> cases u <;> first | rfl | exact absurd rfl h

/-! #### what an error leaves (R292, R293) -/

@[simp] theorem State.raise_cfg (c : Cause) : (s.raise c).cfg = s.cfg := rfl
@[simp] theorem State.raise_err (c : Cause) : (s.raise c).err = some (s.err.getD c.kind) := rfl
@[simp] theorem State.raise_result (c : Cause) : (s.raise c).result = s.result := rfl
@[simp] theorem State.raise_inLen (c : Cause) : (s.raise c).inLen = s.inLen := rfl
@[simp] theorem State.raise_inPresent (c : Cause) : (s.raise c).inPresent = s.inPresent := rfl
@[simp] theorem State.raise_outPresent (c : Cause) : (s.raise c).outPresent = s.outPresent := rfl
@[simp] theorem State.raise_outSize (c : Cause) : (s.raise c).outSize = s.outSize := rfl
@[simp] theorem State.raise_cur (c : Cause) : (s.raise c).cur = freeCursor s.free := rfl
@[simp] theorem State.raise_bld (c : Cause) : (s.raise c).bld = freeBuilder s.cfg s.free := rfl
@[simp] theorem State.raise_dict (c : Cause) : (s.raise c).dict = freeSlot s.cfg s.free 0 := rfl
@[simp] theorem State.raise_sym (c : Cause) : (s.raise c).sym = freeSlot s.cfg s.free 1 := rfl
@[simp] theorem State.raise_copy (c : Cause) : (s.raise c).copy = freeSlot s.cfg s.free 2 := rfl
@[simp] theorem State.raise_dictValid (c : Cause) : (s.raise c).dictValid = dictValidAfter c s.free := rfl
@[simp] theorem State.raise_dec (c : Cause) : (s.raise c).dec = freeDecoder s.cfg s.free := rfl
@[simp] theorem State.raise_inMem (c : Cause) : (s.raise c).inMem = s.inMem := rfl
@[simp] theorem State.raise_outMem (c : Cause) : (s.raise c).outMem = outAfterError s := rfl
@[simp] theorem State.raise_outLen (c : Cause) : (s.raise c).outLen = outLenAfterError s := rfl
@[simp] theorem State.raise_free (c : Cause) : (s.raise c).free = s.free + 1 := rfl
@[simp] theorem State.raise_inputs (c : Cause) : (s.raise c).inputs = s.inputs := rfl
@[simp] theorem State.raise_hostData (c : Cause) : (s.raise c).hostData = s.hostData := rfl

/-! #### what a reset leaves (R50, R320) -/

@[simp] theorem State.resetBlock_cfg : s.resetBlock.cfg = s.cfg := rfl
@[simp] theorem State.resetBlock_err : s.resetBlock.err = (State.resetOf s.cfg).err := rfl
@[simp] theorem State.resetBlock_result : s.resetBlock.result = (State.resetOf s.cfg).result := rfl
@[simp] theorem State.resetBlock_inLen : s.resetBlock.inLen = (State.resetOf s.cfg).inLen := rfl
@[simp] theorem State.resetBlock_inPresent : s.resetBlock.inPresent = (State.resetOf s.cfg).inPresent := rfl
@[simp] theorem State.resetBlock_outPresent : s.resetBlock.outPresent = (State.resetOf s.cfg).outPresent := rfl
@[simp] theorem State.resetBlock_outSize : s.resetBlock.outSize = (State.resetOf s.cfg).outSize := rfl
@[simp] theorem State.resetBlock_cur : s.resetBlock.cur = (State.resetOf s.cfg).cur := rfl
@[simp] theorem State.resetBlock_bld : s.resetBlock.bld = (State.resetOf s.cfg).bld := rfl
@[simp] theorem State.resetBlock_dict : s.resetBlock.dict = (State.resetOf s.cfg).dict := rfl
@[simp] theorem State.resetBlock_sym : s.resetBlock.sym = (State.resetOf s.cfg).sym := rfl
@[simp] theorem State.resetBlock_copy : s.resetBlock.copy = (State.resetOf s.cfg).copy := rfl
@[simp] theorem State.resetBlock_dictValid : s.resetBlock.dictValid = (State.resetOf s.cfg).dictValid := rfl
@[simp] theorem State.resetBlock_dec : s.resetBlock.dec = (State.resetOf s.cfg).dec := rfl
@[simp] theorem State.resetBlock_inMem : s.resetBlock.inMem = s.inMem := rfl
@[simp] theorem State.resetBlock_outMem : s.resetBlock.outMem = s.outMem := rfl
@[simp] theorem State.resetBlock_outLen : s.resetBlock.outLen = s.outLen := rfl
@[simp] theorem State.resetBlock_free : s.resetBlock.free = s.free := rfl
@[simp] theorem State.resetBlock_inputs : s.resetBlock.inputs = s.inputs := rfl
@[simp] theorem State.resetBlock_hostData : s.resetBlock.hostData = s.hostData := rfl

/-! #### equality of states -/

/-- Two states with the same fields are the same state. -/
theorem State.eq_of_fields {s t : State} (h_cfg : s.cfg = t.cfg) (h_err : s.err = t.err) (h_result : s.result = t.result)
    (h_inLen : s.inLen = t.inLen) (h_inPresent : s.inPresent = t.inPresent) (h_outPresent : s.outPresent = t.outPresent)
    (h_outSize : s.outSize = t.outSize) (h_cur : s.cur = t.cur) (h_bld : s.bld = t.bld)
    (h_dict : s.dict = t.dict) (h_sym : s.sym = t.sym) (h_copy : s.copy = t.copy)
    (h_dictValid : s.dictValid = t.dictValid) (h_dec : s.dec = t.dec) (h_inMem : s.inMem = t.inMem)
    (h_outMem : s.outMem = t.outMem) (h_outLen : s.outLen = t.outLen) (h_free : s.free = t.free) (h_inputs : s.inputs = t.inputs)
    (h_hostData : s.hostData = t.hostData) : s = t := by
  cases s
  cases t
  simp only at *
  simp_all only

end Sys2Proof.Machine
end

