-- ==== Sys2Proof/Laws/Ops.lean ====
section
/-! SUPPORT. What each shared operation can do, said once: how a sub-operation ends, each primitive's result, and one
induction that carries a relation over every state a composed operation reaches. -/

namespace Sys2Proof.Machine

variable {α β : Type}

/-! ### How a sub-operation ends -/

@[simp] theorem Res.ok_andThen (a : α) (s : State) (k : α → State → Res β) : (Res.ok a s).andThen k = k a s := rfl

@[simp] theorem Res.fail_andThen (c : Cause) (s : State) (k : α → State → Res β) :
    (Res.fail c s : Res α).andThen k = .fail c s := rfl

@[simp] theorem Res.settle_ok (u : Unit) (s : State) : (Res.ok u s).settle = s := rfl

@[simp] theorem Res.settle_fail (c : Cause) (s : State) : (Res.fail c s : Res Unit).settle = s.raise c := rfl

/-- A sequence ends with a value exactly when both halves do. -/
theorem Res.andThen_eq_ok {r : Res α} {k : α → State → Res β} {b : β} {t : State} :
    r.andThen k = .ok b t ↔ ∃ a s, r = .ok a s ∧ k a s = .ok b t := by
  cases r with
  | ok a s => exact ⟨fun h => ⟨a, s, rfl, h⟩, fun ⟨_, _, h, h'⟩ => by cases h; exact h'⟩
  | fail c s =>
    constructor
    · intro h; cases h
    · rintro ⟨_, _, h, _⟩; cases h

/-- A sequence ends in a raise exactly when one of its halves does. -/
theorem Res.andThen_eq_fail {r : Res α} {k : α → State → Res β} {c : Cause} {t : State} :
    r.andThen k = .fail c t ↔ r = .fail c t ∨ ∃ a s, r = .ok a s ∧ k a s = .fail c t := by
  cases r with
  | ok a s =>
    constructor
    · exact fun h => .inr ⟨a, s, rfl, h⟩
    · rintro (h | ⟨_, _, h, h'⟩) <;> cases h
      exact h'
  | fail c' s =>
    constructor
    · intro h; cases h; exact .inl rfl
    · rintro (h | ⟨_, _, h, _⟩) <;> cases h
      rfl

theorem Res.andThen_assoc {γ : Type} (r : Res α) (k : α → State → Res β) (l : β → State → Res γ) :
    (r.andThen k).andThen l = r.andThen fun a s => (k a s).andThen l := by cases r <;> rfl

/-- A command answers the state its body settles to. -/
@[simp] theorem finish_eq (r : Res Unit) : finish r = .next r.settle := rfl

/-- A command answers without error from a state without one only where its body ended with a value. -/
theorem Res.ok_of_settle {r : Res Unit} {t : State} (h : r.settle = t) (ht : t.err = none) : r = .ok () t := by
  cases r with
  | ok u s => subst h; rfl
  | fail c s => subst h; cases ht

/-! ### Every instruction and every step answers a next state -/

theorem exec_answers_next (i : Instr) (s : State) : ∃ t, exec i s = .next t := by
  cases i with
  | bldBuild tr => cases tr <;> exact ⟨_, rfl⟩
  | hufRead tr => cases tr <;> exact ⟨_, rfl⟩
  | descRead tr => cases tr <;> exact ⟨_, rfl⟩
  | _ => exact ⟨_, rfl⟩

/-- A step answers a next state, but for a host access past the OUT the block provided (log 14). -/
theorem step_answers (s : State) : (∃ t, step s = .next t) ∨ step s = .fault .noSuchOutByte := by
  unfold step
  cases nextAction s with
  | done t => exact .inl ⟨t, rfl⟩
  | stop f => cases f; exact .inr rfl
  | run i t => exact .inl (exec_answers_next i t)

/-! ### The cursor's operations -/

/-- What `NEED(n)` can do (R142). -/
theorem Cursor.need_cases {cfg : Config} {m : Memory} {c : Cursor} {n : Nat} {r : Except ErrKind Cursor}
    (h : c.need cfg m n = r) :
    (32 < n ∧ r = .error .invalidInput) ∨ (n ≤ 32 ∧ c.bits.toNat < n ∧ r = c.pull cfg m) ∨
    (n ≤ 32 ∧ n ≤ c.bits.toNat ∧ r = .ok c) := by
  unfold Cursor.need at h
  split at h
  · exact .inl ⟨‹_›, h.symm⟩
  · split at h
    · exact .inr (.inl ⟨by omega, ‹_›, h.symm⟩)
    · exact .inr (.inr ⟨by omega, by omega, h.symm⟩)

/-- What `PULL()` can do (R145, R146, R147). -/
theorem Cursor.pull_cases {cfg : Config} {m : Memory} {c : Cursor} {r : Except ErrKind Cursor}
    (h : c.pull cfg m = r) :
    (c.limit.toNat ≤ skipIndex cfg c.pos.toNat ∧ c.exh = true ∧ r = .error .truncated) ∨
    (c.limit.toNat ≤ skipIndex cfg c.pos.toNat ∧ c.exh = false ∧
      r = .ok ({ c with exh := true }.merge (skipIndex cfg c.pos.toNat) 0)) ∨
    (skipIndex cfg c.pos.toNat < c.limit.toNat ∧
      r = .ok (c.merge (skipIndex cfg c.pos.toNat) (inWord m (skipIndex cfg c.pos.toNat)))) := by
  simp only [Cursor.pull] at h
  split at h
  · split at h
    · exact .inl ⟨‹_›, ‹_›, h.symm⟩
    · exact .inr (.inl ⟨‹_›, by simp_all, h.symm⟩)
  · exact .inr (.inr ⟨by omega, h.symm⟩)

/-- What `READ(n)` can do (R144). -/
theorem Cursor.read_cases {c : Cursor} {n : Nat} {r : Except ErrKind Word} (h : c.read n = r) :
    (32 < n ∧ r = .error .invalidInput) ∨
    (n ≤ 32 ∧ ∃ v, r = .ok v ∧ v.toNat = c.head.toNat / 2 ^ (32 - n)) := by
  unfold Cursor.read at h
  split at h
  · exact .inl ⟨‹_›, h.symm⟩
  · refine .inr ⟨by omega, ?_⟩
    split at h
    · subst ‹n = 0›
      exact ⟨0, h.symm, (Nat.div_eq_of_lt c.head.isLt).symm⟩
    · exact ⟨_, h.symm, by simp [BitVec.toNat_ushiftRight, Nat.shiftRight_eq_div_pow]⟩

/-- What `DROP(n)` can do (R148). -/
theorem Cursor.drop_cases {c : Cursor} {n : Nat} {r : Except ErrKind Cursor} (h : c.drop n = r) :
    ((32 < n ∨ c.bits.toNat < n) ∧ r = .error .invalidInput) ∨
    (n ≤ 32 ∧ n ≤ c.bits.toNat ∧ r = .ok (c.dropped n)) := by
  unfold Cursor.drop at h
  split at h
  · exact .inl ⟨.inl ‹_›, h.symm⟩
  · split at h
    · exact .inl ⟨.inr ‹_›, h.symm⟩
    · exact .inr ⟨by omega, by omega, h.symm⟩

@[simp] theorem Cursor.window_withWindow (c : Cursor) (w : BitVec 64) : (c.withWindow w).window = w := by
  simp only [Cursor.window, Cursor.withWindow]
  ext i hi
  simp only [BitVec.getElem_append, BitVec.getElem_extractLsb']
  split
  · simp [BitVec.getLsbD_eq_getElem hi]
  · rw [show 32 + (i - 32) = i by omega, BitVec.getLsbD_eq_getElem hi]

@[simp] theorem Cursor.dropped_window (c : Cursor) (n : Nat) : (c.dropped n).window = c.window <<< n := by
  have := c.window_withWindow (c.window <<< n)
  simpa [Cursor.dropped, Cursor.window, Cursor.withWindow] using this

@[simp] theorem Cursor.dropped_pos (c : Cursor) (n : Nat) : (c.dropped n).pos = c.pos := rfl
@[simp] theorem Cursor.dropped_limit (c : Cursor) (n : Nat) : (c.dropped n).limit = c.limit := rfl
@[simp] theorem Cursor.dropped_exh (c : Cursor) (n : Nat) : (c.dropped n).exh = c.exh := rfl

theorem Cursor.dropped_bits {c : Cursor} {n : Nat} (hn : n ≤ c.bits.toNat) :
    (c.dropped n).bits.toNat = c.bits.toNat - n := by
  have := c.bits.isLt
  simp only [Cursor.dropped, BitVec.toNat_sub, BitVec.toNat_ofNat]
  omega

@[simp] theorem Cursor.merge_window (c : Cursor) (p : Nat) (v : Word) :
    (c.merge p v).window = c.window ||| (v.setWidth 64 <<< (32 - c.bits.toNat)) := by
  have := c.window_withWindow (c.window ||| (v.setWidth 64 <<< (32 - c.bits.toNat)))
  simpa [Cursor.merge, Cursor.window, Cursor.withWindow] using this

@[simp] theorem Cursor.merge_pos (c : Cursor) (p : Nat) (v : Word) : (c.merge p v).pos = BitVec.ofNat 32 (p + 1) := rfl
@[simp] theorem Cursor.merge_limit (c : Cursor) (p : Nat) (v : Word) : (c.merge p v).limit = c.limit := rfl
@[simp] theorem Cursor.merge_exh (c : Cursor) (p : Nat) (v : Word) : (c.merge p v).exh = c.exh := rfl

theorem Cursor.merge_bits {c : Cursor} (p : Nat) (v : Word) (h : c.bits.toNat < 32) :
    (c.merge p v).bits.toNat = c.bits.toNat + 32 := by
  simp only [Cursor.merge, BitVec.toNat_add]
  have : (32 : BitVec 6).toNat = 32 := rfl
  omega

/-- `HEAD` is the upper half of the window (R34). -/
theorem Cursor.window_toNat (c : Cursor) : c.window.toNat = c.head.toNat * 2 ^ 32 + c.buf.toNat := by
  rw [Cursor.window, BitVec.toNat_append, ← Nat.shiftLeft_add_eq_or_of_lt c.buf.isLt, Nat.shiftLeft_eq]

theorem Cursor.head_toNat (c : Cursor) : c.head.toNat = c.window.toNat / 2 ^ 32 := by
  have := c.buf.isLt
  rw [c.window_toNat]
  omega

/-! ### The primitives on the state -/

/-- A cursor operation either writes the cursor alone or raises where it stands. -/
theorem onCursor_cases (r : Except ErrKind Cursor) (s : State) :
    (∃ c, r = .ok c ∧ onCursor r s = .ok () (s.withCur c)) ∨
    (∃ k, r = .error k ∧ onCursor r s = .fail (.err k) s) := by
  cases r with
  | ok c => exact .inl ⟨c, rfl, rfl⟩
  | error k => exact .inr ⟨k, rfl, rfl⟩

theorem needBits_of_ok {n : Nat} {s : State} {c : Cursor} (h : s.cur.need s.cfg s.inMem n = .ok c) :
    needBits n s = .ok () (s.withCur c) := by rw [needBits, h]; rfl

theorem needBits_of_error {n : Nat} {s : State} {k : ErrKind} (h : s.cur.need s.cfg s.inMem n = .error k) :
    needBits n s = .fail (.err k) s := by rw [needBits, h]; rfl

theorem dropBits_of_le {n : Nat} {s : State} (h32 : n ≤ 32) (h : n ≤ s.cur.bits.toNat) :
    dropBits n s = .ok () (s.withCur (s.cur.dropped n)) := by
  rw [dropBits, Cursor.drop, if_neg (by omega), if_neg (by omega)]; rfl

theorem readBits_of_le {n : Nat} {s : State} (h32 : n ≤ 32) :
    ∃ v : Word, readBits n s = .ok v s ∧ v.toNat = s.cur.head.toNat / 2 ^ (32 - n) := by
  obtain ⟨h, -⟩ | ⟨-, v, hv, hval⟩ := Cursor.read_cases (c := s.cur) (n := n) rfl
  · omega
  · exact ⟨v, by rw [readBits, hv], hval⟩

/-- A `NEED` that succeeds makes its bits valid (R142). -/
theorem Cursor.need_bits {cfg : Config} {m : Memory} {c c' : Cursor} {n : Nat} (h : c.need cfg m n = .ok c') :
    n ≤ 32 ∧ n ≤ c'.bits.toNat := by
  obtain ⟨-, h'⟩ | ⟨hn, hlt, h'⟩ | ⟨hn, hle, h'⟩ := Cursor.need_cases h
  · cases h'
  · refine ⟨hn, ?_⟩
    obtain ⟨-, -, h''⟩ | ⟨-, -, h''⟩ | ⟨-, h''⟩ := Cursor.pull_cases h'.symm <;> cases h''
    · rw [Cursor.merge_bits _ _ (by simpa using (show c.bits.toNat < 32 by omega))]; omega
    · rw [Cursor.merge_bits _ _ (by omega)]; omega
  · cases h'; exact ⟨hn, hle⟩

/-- A field of k bits that the cursor can supply: its value and the cursor behind it. -/
theorem readField_of_need {k : Nat} {s : State} {c : Cursor} (h : s.cur.need s.cfg s.inMem k = .ok c) :
    ∃ v : Word, readField k s = .ok v (s.withCur (c.dropped k)) ∧ v.toNat = c.head.toNat / 2 ^ (32 - k) := by
  obtain ⟨hk, hb⟩ := Cursor.need_bits h
  obtain ⟨v, hv, hval⟩ := readBits_of_le (s := s.withCur c) hk
  refine ⟨v, ?_, hval⟩
  rw [readField, needBits_of_ok h, Res.ok_andThen, hv, Res.ok_andThen, dropBits_of_le hk (by simpa using hb)]
  rfl

theorem readField_of_error {k : Nat} {s : State} {e : ErrKind} (h : s.cur.need s.cfg s.inMem k = .error e) :
    readField k s = .fail (.err e) s := by rw [readField, needBits_of_error h]; rfl

/-- What `ADD(s, L)` can do (R171). -/
theorem Builder.add_cases {cfg : Config} {b : Builder} {sy len : Nat} {r : Except ErrKind Builder}
    (h : b.add cfg sy len = r) :
    ((len < 1 ∨ 32 < len ∨ cfg.maxSymbols ≤ sy ∨ b.present sy = true) ∧
      r = .error .invalidInput) ∨
    (1 ≤ len ∧ len ≤ 32 ∧ sy < cfg.maxSymbols ∧ b.present sy = false ∧
      r = .ok (b.insert sy len)) := by
  unfold Builder.add at h
  split at h
  · rename_i hl; exact .inl ⟨by simp only [maxCodeBits] at hl; omega, h.symm⟩
  · rename_i hl
    simp only [maxCodeBits] at hl
    split at h
    · exact .inl ⟨by omega, h.symm⟩
    · split at h
      · exact .inl ⟨by simp_all, h.symm⟩
      · exact .inr ⟨by omega, by omega, by omega, by simp_all, h.symm⟩

/-- What `DICTINIT()` can do (R180). -/
theorem dictInit_cases (s : State) :
    (s.dictValid = true ∧ dictInit s = .ok () s) ∨
    (s.dictValid = false ∧ ∃ b x, dictTables s.cfg = .ok (b, x) ∧
      dictInit s = .ok () (((s.withBld b).withDict x).withDictValid true)) ∨
    (s.dictValid = false ∧ ∃ k, dictTables s.cfg = .error k ∧ dictInit s = .fail (.dict k) s) := by
  unfold dictInit
  cases hv : s.dictValid with
  | true => exact .inl ⟨rfl, rfl⟩
  | false =>
    cases ht : dictTables s.cfg with
    | ok p => exact .inr (.inl ⟨rfl, p.1, p.2, rfl, rfl⟩)
    | error k => exact .inr (.inr ⟨rfl, k, rfl, rfl⟩)

/-- `BUILD(t)` writes the slot alone, or raises `Corrupt` (R172, R175). -/
theorem buildSlot_cases (t : SlotId) (s : State) :
    (∃ x, s.bld.build s.cfg = some x ∧ buildSlot t s = .ok () (s.withSlot t x)) ∨
    (s.bld.build s.cfg = none ∧ buildSlot t s = .fail (.err .corrupt) s) := by
  unfold buildSlot
  cases h : s.bld.build s.cfg with
  | some x => exact .inl ⟨x, rfl, rfl⟩
  | none => exact .inr ⟨rfl, rfl⟩

/-- `ADD` writes the builder alone, or raises `InvalidInput` (R171). -/
theorem addSymbol_cases (sy len : Nat) (s : State) :
    (∃ b, s.bld.add s.cfg sy len = .ok b ∧ addSymbol sy len s = .ok () (s.withBld b)) ∨
    (s.bld.add s.cfg sy len = .error .invalidInput ∧ addSymbol sy len s = .fail (.err .invalidInput) s) := by
  unfold addSymbol
  cases h : s.bld.add s.cfg sy len with
  | ok b => exact .inl ⟨b, rfl, rfl⟩
  | error k =>
    obtain ⟨-, hk⟩ | ⟨-, -, -, -, hk⟩ := Builder.add_cases h <;> cases hk
    exact .inr ⟨rfl, rfl⟩

/-- `READCODE` of a slot, after its `NEED(32)` (R210, R213). -/
theorem readSlot_of_need {t : SlotId} {s : State} {c : Cursor} (he : (s.slot t).empty = false)
    (hc : s.cur.need s.cfg s.inMem 32 = .ok c) :
    readSlot t s = match (s.slot t).lookup s.cfg.hashBits c.head with
      | none => .fail (.err .corrupt) (s.withCur c)
      | some (sy, len) => (dropBits len (s.withCur c)).andThen fun _ s => .ok sy s := by
  have hs : (s.withCur c).slot t = s.slot t := by cases t <;> rfl
  rw [readSlot, he, needBits_of_ok hc]
  simp only [Res.ok_andThen, hs, State.withCur_cfg, State.withCur_cur]
  rfl

theorem readSlot_of_empty {t : SlotId} {s : State} (he : (s.slot t).empty = true) :
    readSlot t s = .fail (.err .corrupt) s := by rw [readSlot, he]; rfl

/-- `READCODE(DICT)` with the dictionary built is `READCODE` of its slot (R181). -/
theorem readCode_of_valid {t : SlotId} {s : State} (h : t = .dict → s.dictValid = true) :
    readCode t s = readSlot t s := by
  cases t with
  | dict => rw [readCode, dictInit, h rfl]; rfl
  | sym => rfl
  | copy => rfl

/-! ### A relation over every state an operation reaches -/

/-- Whatever state `r` ends in, by a value or by a raise, stands in relation `R` to `s`. -/
def Res.Leads (R : State → State → Prop) (s : State) : Res α → Prop
  | .ok _ t => R s t
  | .fail _ t => R s t

theorem Res.Leads.andThen {R : State → State → Prop} (trans : ∀ a b c, R a b → R b c → R a c) {s : State}
    {r : Res α} {k : α → State → Res β} (hr : r.Leads R s) (hk : ∀ a t, (k a t).Leads R t) :
    (r.andThen k).Leads R s := by
  cases r with
  | fail c t => exact hr
  | ok a t =>
    have h := hk a t
    simp only [Res.ok_andThen]
    generalize k a t = q at h
    cases q <;> exact trans _ _ _ hr h

/-- Relations that the cursor's primitives respect. -/
structure CursorStable (R : State → State → Prop) : Prop where
  refl : ∀ s, R s s
  trans : ∀ a b c, R a b → R b c → R a c
  need : ∀ n s c, s.cur.need s.cfg s.inMem n = .ok c → R s (s.withCur c)
  drop : ∀ n s c, s.cur.drop n = .ok c → R s (s.withCur c)

/-- And the first use of the dictionary. -/
structure DictStable (R : State → State → Prop) : Prop extends CursorStable R where
  dict : ∀ s b x, s.dictValid = false → dictTables s.cfg = .ok (b, x) →
    R s (((s.withBld b).withDict x).withDictValid true)

/-- And the primitives a tree description for slot t adds. -/
structure DescStable (t : SlotId) (R : State → State → Prop) : Prop extends DictStable R where
  clear : ∀ s, R s (s.withBld (Builder.clear s.cfg))
  add : ∀ s sy len b, s.bld.add s.cfg sy len = .ok b → R s (s.withBld b)
  build : ∀ s x, s.bld.build s.cfg = some x → R s (s.withSlot t x)
  rem : ∀ s r, R s (setRem r s)

/-- And the primitives of the token loop. -/
structure TokenStable (R : State → State → Prop) : Prop extends DictStable R where
  size : ∀ s v, R s (s.withDec { s.dec with copySize := v })
  lit : ∀ s b, s.dec.outPos < s.dec.eff →
    R s ((s.withOutMem (s.outMem.write s.dec.outPos.toNat b)).withDec { s.dec with outPos := s.dec.outPos + 1 })
  copy : ∀ s off, 1 ≤ off → off ≤ s.dec.outPos.toNat → R s (copyBytes s.dec.copySize off s)

/-- And the primitives of the outer loop. -/
structure BlockStable (R : State → State → Prop) : Prop extends TokenStable R where
  desc : ∀ t, t ≠ .dict → DescStable t R
  constAdd : ∀ s v, R s (s.withDec { s.dec with constAdd := v })
  maxCount : ∀ s v, R s (s.withDec { s.dec with maxCount := s.cfg.countReg v, count := 0 })
  count : ∀ s v, R s (s.withDec { s.dec with count := s.cfg.countReg v })

section
variable {R : State → State → Prop}

theorem needBits_leads (h : CursorStable R) (n : Nat) (s : State) : (needBits n s).Leads R s := by
  obtain ⟨c, hc, he⟩ | ⟨k, hk, he⟩ := onCursor_cases (s.cur.need s.cfg s.inMem n) s
  · rw [needBits, he]; exact h.need n s c hc
  · rw [needBits, he]; exact h.refl s

theorem dropBits_leads (h : CursorStable R) (n : Nat) (s : State) : (dropBits n s).Leads R s := by
  obtain ⟨c, hc, he⟩ | ⟨k, hk, he⟩ := onCursor_cases (s.cur.drop n) s
  · rw [dropBits, he]; exact h.drop n s c hc
  · rw [dropBits, he]; exact h.refl s

theorem readBits_leads (h : CursorStable R) (n : Nat) (s : State) : (readBits n s).Leads R s := by
  unfold readBits
  cases s.cur.read n <;> exact h.refl s

theorem readField_leads (h : CursorStable R) (k : Nat) (s : State) : (readField k s).Leads R s :=
  (needBits_leads h k s).andThen h.trans fun _ _ => (readBits_leads h k _).andThen h.trans fun _ _ =>
    (dropBits_leads h k _).andThen h.trans fun _ _ => h.refl _

theorem dictInit_leads (h : DictStable R) (s : State) : (dictInit s).Leads R s := by
  obtain ⟨-, he⟩ | ⟨hv, b, x, ht, he⟩ | ⟨-, k, -, he⟩ := dictInit_cases s <;> rw [he]
  · exact h.refl s
  · exact h.dict s b x hv ht
  · exact h.refl s

theorem readSlot_leads (h : CursorStable R) (t : SlotId) (s : State) : (readSlot t s).Leads R s := by
  unfold readSlot
  split
  · exact h.refl s
  · refine (needBits_leads h 32 s).andThen h.trans fun _ s' => ?_
    split
    · exact h.refl s'
    · exact (dropBits_leads h _ s').andThen h.trans fun _ _ => h.refl _

theorem readCode_leads_of_ne (h : CursorStable R) {t : SlotId} (ht : t ≠ .dict) (s : State) :
    (readCode t s).Leads R s := by
  cases t with
  | dict => exact absurd rfl ht
  | sym => exact readSlot_leads h .sym s
  | copy => exact readSlot_leads h .copy s

theorem readCode_leads (h : DictStable R) (t : SlotId) (s : State) : (readCode t s).Leads R s := by
  cases t with
  | dict => exact (dictInit_leads h s).andThen h.trans fun _ s' => readSlot_leads h.toCursorStable .dict s'
  | sym => exact readSlot_leads h.toCursorStable .sym s
  | copy => exact readSlot_leads h.toCursorStable .copy s

variable {t : SlotId}

theorem addSymbol_leads (h : DescStable t R) (sy len : Nat) (s : State) : (addSymbol sy len s).Leads R s := by
  obtain ⟨b, hb, he⟩ | ⟨-, he⟩ := addSymbol_cases sy len s <;> rw [he]
  · exact h.add s sy len b hb
  · exact h.refl s

theorem buildSlot_leads (h : DescStable t R) (s : State) : (buildSlot t s).Leads R s := by
  obtain ⟨x, hx, he⟩ | ⟨-, he⟩ := buildSlot_cases t s <;> rw [he]
  · exact h.build s x hx
  · exact h.refl s

theorem descRun_leads (h : DescStable t R) (len cnt : Nat) (s : State) : (descRun len cnt s).Leads R s := by
  induction cnt generalizing s with
  | zero => exact h.refl s
  | succ cnt ih =>
    unfold descRun
    split
    · exact h.refl s
    · refine (addSymbol_leads h _ _ s).andThen h.trans fun _ s' => ?_
      have := ih (setRem (s'.dec.descRem - 1) s')
      generalize descRun len cnt _ = q at this ⊢
      cases q <;> exact h.trans _ _ _ (h.rem s' _) this

theorem descCode_leads (h : DescStable t R) (c : Sym) (s : State) : (descCode c s).Leads R s := by
  unfold descCode
  dsimp only
  split
  · exact h.rem s _
  · exact descRun_leads h _ _ s

theorem descLoop_leads (h : DescStable t R) (n : Nat) (s : State) : (descLoop n s).Leads R s := by
  induction n generalizing s with
  | zero => exact h.refl s
  | succ n ih =>
    unfold descLoop
    split
    · exact h.refl s
    · exact (readCode_leads h.toDictStable .dict s).andThen h.trans fun c s' =>
        (descCode_leads h c s').andThen h.trans fun _ s'' => ih s''

theorem desc_leads (h : DescStable t R) (s : State) : (desc t s).Leads R s := by
  refine (dictInit_leads h.toDictStable s).andThen h.trans fun _ s₁ =>
    (readField_leads h.toCursorStable 16 s₁).andThen h.trans fun v s₂ => ?_
  split
  · exact h.refl s₂
  · refine Res.Leads.andThen h.trans (show (clearBuilder s₂).Leads R s₂ from h.clear s₂) fun _ s₃ => ?_
    refine Res.Leads.andThen h.trans ?_ fun _ s₄ =>
      (buildSlot_leads h s₄).andThen h.trans fun _ s₅ => h.refl s₅
    have := descLoop_leads h v.toNat (setRem ((v.toNat : Int) - 1) s₃)
    generalize descLoop v.toNat _ = q at this ⊢
    cases q <;> exact h.trans _ _ _ (h.rem s₃ _) this

theorem extraBits_leads (h : CursorStable R) (k : Nat) (s : State) : (extraBits k s).Leads R s := by
  unfold extraBits
  split
  · exact h.refl s
  · exact (readField_leads h k s).andThen h.trans fun _ _ => h.refl _

theorem writeSize_leads (h : CursorStable R) (code : Nat) (s : State) : (writeSize code s).Leads R s := by
  unfold writeSize
  dsimp only
  split
  · exact h.refl s
  · split
    · exact (extraBits_leads h _ s).andThen h.trans fun _ _ => h.refl _
    · split <;> exact h.refl s

theorem writeOffset_leads (h : CursorStable R) (code : Nat) (s : State) : (writeOffset code s).Leads R s := by
  unfold writeOffset
  dsimp only
  split
  · exact h.refl s
  · split
    · exact (extraBits_leads h _ s).andThen h.trans fun _ _ => h.refl _
    · exact h.refl s

theorem copySymbol_leads (h : TokenStable R) (code : Nat) (s : State) : (copySymbol code s).Leads R s :=
  (writeSize_leads h.toCursorStable code s).andThen h.trans fun _ s' => h.size s' _

theorem offsetSymbol_leads (h : TokenStable R) (code : Nat) (s : State) : (offsetSymbol code s).Leads R s := by
  refine (writeOffset_leads h.toCursorStable code s).andThen h.trans fun v s' => ?_
  dsimp only
  split
  · exact h.refl s'
  · exact h.copy s' _ (by omega) (by omega)

theorem literal_leads (h : TokenStable R) (b : Byte) (s : State) : (literal b s).Leads R s := by
  unfold literal
  split
  · exact h.lit s b ‹_›
  · exact h.refl s

theorem tokenSymbol_leads (h : TokenStable R) (sy : Sym) (s : State) : (tokenSymbol sy s).Leads R s := by
  unfold tokenSymbol
  split
  · exact literal_leads h _ s
  · exact copySymbol_leads h _ s

/-- A relation that holds of the state an operation ends in with a value. -/
theorem Res.Leads.of_ok {s : State} {r : Res α} {a : α} {t : State} (h : r.Leads R s) (hr : r = .ok a t) : R s t := by
  subst hr; exact h

/-- `READCODE` leaves the decoder's registers and OUT alone. -/
theorem readCode_keeps_output (t : SlotId) (s : State) :
    (readCode t s).Leads (fun s s' => s'.dec = s.dec ∧ s'.outMem = s.outMem) s :=
  readCode_leads { refl := fun _ => ⟨rfl, rfl⟩
                   trans := fun _ _ _ h h' => ⟨h'.1.trans h.1, h'.2.trans h.2⟩
                   need := fun _ _ _ _ => ⟨rfl, rfl⟩
                   drop := fun _ _ _ _ => ⟨rfl, rfl⟩
                   dict := fun _ _ _ _ _ => ⟨rfl, rfl⟩ } t s

theorem Res.Leads.andThen_of_ok (trans : ∀ a b c, R a b → R b c → R a c) {s : State} {r : Res α}
    {k : α → State → Res β} (hr : r.Leads R s) (hk : ∀ a t, r = .ok a t → (k a t).Leads R t) :
    (r.andThen k).Leads R s := by
  cases r with
  | fail c t => exact hr
  | ok a t =>
    have h := hk a t rfl
    simp only [Res.ok_andThen]
    generalize k a t = q at h
    cases q <;> exact trans _ _ _ hr h

theorem token_leads (h : TokenStable R) (s : State) : (token s).Leads R s := by
  refine (readCode_leads h.toDictStable .sym s).andThen h.trans fun sy s₁ =>
    (tokenSymbol_leads h sy s₁).andThen h.trans fun _ s₂ => ?_
  split
  · exact h.refl s₂
  · exact (readCode_leads h.toDictStable .copy s₂).andThen h.trans fun t s₃ => offsetSymbol_leads h t s₃

theorem tokenLoop_leads (h : BlockStable R) (n : Nat) (s : State) : (tokenLoop n s).Leads R s := by
  induction n generalizing s with
  | zero => exact h.refl s
  | succ n ih =>
    unfold tokenLoop
    split
    · refine Res.Leads.andThen h.trans ?_ fun _ s' => ih s'
      have := token_leads h.toTokenStable (s.withDec { s.dec with count := s.cfg.countReg (s.dec.count + 1) })
      generalize token _ = q at this ⊢
      cases q <;> exact h.trans _ _ _ (h.count s _) this
    · exact h.refl s

theorem constField_leads (h : BlockStable R) (s : State) : (constField s).Leads R s :=
  (needBits_leads h.toCursorStable 8 s).andThen h.trans fun _ _ =>
    (dropBits_leads h.toCursorStable 4 _).andThen h.trans fun _ _ =>
    (readBits_leads h.toCursorStable 4 _).andThen h.trans fun _ _ =>
    (dropBits_leads h.toCursorStable 4 _).andThen h.trans fun _ s' => h.constAdd s' _

theorem constFieldAt_leads (h : BlockStable R) (p : ConstAddScope) (s : State) : (constFieldAt p s).Leads R s := by
  unfold constFieldAt
  split
  · exact constField_leads h s
  · exact h.refl s

theorem maxCountField_leads (h : BlockStable R) (s : State) : (maxCountField s).Leads R s :=
  (readField_leads h.toCursorStable _ s).andThen h.trans fun _ s' => h.maxCount s' _

theorem datHeader_leads (h : CursorStable R) (hs : ∀ s d, R s (startOutput d s)) (s : State) :
    (datHeader s).Leads R s :=
  (needBits_leads h 32 s).andThen h.trans fun _ _ => (dropBits_leads h 32 _).andThen h.trans fun _ _ =>
    (readField_leads h 32 _).andThen h.trans fun d s' => hs s' d

theorem blockLoop_leads (h : BlockStable R) (n : Nat) (s : State) : (blockLoop n s).Leads R s := by
  induction n generalizing s with
  | zero => exact h.refl s
  | succ n ih =>
    unfold blockLoop
    split
    · refine (constFieldAt_leads h _ s).andThen h.trans fun _ s₁ =>
        (desc_leads (h.desc .sym (by decide)) s₁).andThen h.trans fun nSym s₂ => ?_
      split
      · exact h.refl s₂
      · refine (desc_leads (h.desc .copy (by decide)) s₂).andThen h.trans fun nCopy s₃ => ?_
        split
        · exact h.refl s₃
        · exact (maxCountField_leads h s₃).andThen h.trans fun _ s₄ =>
            (tokenLoop_leads h _ s₄).andThen h.trans fun _ s₅ => ih s₅
    · exact h.refl s

end

/-! ### What no sub-operation writes -/

/-- `t` has the parameters, the error, the host's registers, IN and the model's own fields of `s`. -/
structure KeepsHost (s t : State) : Prop where
  cfg : t.cfg = s.cfg
  err : t.err = s.err
  result : t.result = s.result
  inLen : t.inLen = s.inLen
  inPresent : t.inPresent = s.inPresent
  outPresent : t.outPresent = s.outPresent
  outSize : t.outSize = s.outSize
  inMem : t.inMem = s.inMem
  free : t.free = s.free
  inputs : t.inputs = s.inputs
  hostData : t.hostData = s.hostData

theorem KeepsHost.refl (s : State) : KeepsHost s s := by constructor <;> rfl

theorem KeepsHost.trans {s t u : State} (h : KeepsHost s t) (h' : KeepsHost t u) : KeepsHost s u where
  cfg := h'.cfg.trans h.cfg
  err := h'.err.trans h.err
  result := h'.result.trans h.result
  inLen := h'.inLen.trans h.inLen
  inPresent := h'.inPresent.trans h.inPresent
  outPresent := h'.outPresent.trans h.outPresent
  outSize := h'.outSize.trans h.outSize
  inMem := h'.inMem.trans h.inMem
  free := h'.free.trans h.free
  inputs := h'.inputs.trans h.inputs
  hostData := h'.hostData.trans h.hostData

theorem keepsHost_descStable (t : SlotId) : DescStable t KeepsHost where
  refl := KeepsHost.refl
  trans _ _ _ h h' := h.trans h'
  need _ _ _ _ := by constructor <;> rfl
  drop _ _ _ _ := by constructor <;> rfl
  dict _ _ _ _ _ := by constructor <;> rfl
  clear _ := by constructor <;> rfl
  add _ _ _ _ _ := by constructor <;> rfl
  build s x _ := by constructor <;> simp
  rem _ _ := by constructor <;> rfl

theorem keepsHost_blockStable : BlockStable KeepsHost where
  toDictStable := (keepsHost_descStable .sym).toDictStable
  size _ _ := by constructor <;> rfl
  lit _ _ _ := by constructor <;> rfl
  copy _ _ _ _ := by constructor <;> rfl
  desc t _ := keepsHost_descStable t
  constAdd _ _ := by constructor <;> rfl
  maxCount _ _ := by constructor <;> rfl
  count _ _ := by constructor <;> rfl

/-- The header of a `DAT_DECODE` writes none of these either. -/
theorem datHeader_keepsHost (s : State) : (datHeader s).Leads KeepsHost s :=
  datHeader_leads (keepsHost_descStable .sym).toCursorStable (fun _ _ => by
    unfold startOutput; dsimp only; split <;> constructor <;> rfl) s

end Sys2Proof.Machine
end

