-- ==== Sys2Proof/Laws/Output.lean ====
section
/-! SUPPORT. The elements of the dat stream: their extra bits, the size and offset they give, what a copy writes, and
what the reads of the dat stream give. -/

namespace Sys2Proof.Machine

/-- An extra-bits field that can be read has a value of k bits (R107). -/
theorem extraBits_of_field {k : Nat} {s : State} {c : Cursor} {x : Nat} (h : ExtraBits k s c x) :
    extraBits k s = .ok x (s.withCur c) ∧ x < 2 ^ k := by
  unfold ExtraBits at h
  unfold extraBits
  split at h
  · rename_i hk
    obtain ⟨rfl, rfl⟩ := h
    exact ⟨if_pos hk, Nat.two_pow_pos k⟩
  · rename_i hk
    obtain ⟨c₀, hn, rfl, rfl⟩ := h
    obtain ⟨v, hv, hval⟩ := readField_of_need hn
    rw [if_neg hk, hv, ← hval]
    refine ⟨rfl, ?_⟩
    have hk32 := (Cursor.need_bits hn).1
    rw [hval, Nat.div_lt_iff_lt_mul (Nat.two_pow_pos _), ← Nat.pow_add, show k + (32 - k) = 32 by omega]
    exact c₀.head.isLt

/-- Setting extra bits in a bucket's base is adding them (R107). -/
theorem base_or_extra {k a x : Nat} (hx : x < 2 ^ k) : (1 <<< k) * a ||| x = 2 ^ k * a + x := by
  rw [Nat.shiftLeft_eq, Nat.one_mul, Nat.two_pow_add_eq_or_of_lt hx]

/-- What the copy loop writes (R255): the bytes before it, repeated with period `off`, cut at `eff`; and nothing else. -/
theorem copyRun_spec {off eff : Nat} (ho : 1 ≤ off) {n pos : Nat} {m : Memory} (h : off ≤ pos) :
    (copyRun off eff n pos m).1 = pos + min n (eff - pos) ∧
    (∀ j < min n (eff - pos), (copyRun off eff n pos m).2.read? (pos + j) = m.read? (pos - off + j % off)) ∧
    ∀ a, a < pos ∨ pos + min n (eff - pos) ≤ a → (copyRun off eff n pos m).2.read? a = m.read? a := by
  induction n generalizing pos m with
  | zero => simp [copyRun]
  | succ n ih =>
    by_cases hp : pos < eff
    · simp only [copyRun, if_pos hp]
      obtain ⟨hpos, hin, hout⟩ := ih (pos := pos + 1) (m := m.put pos (m.read? (pos - off))) (by omega)
      have hm : min (n + 1) (eff - pos) = min n (eff - (pos + 1)) + 1 := by omega
      refine ⟨by rw [hpos, hm]; omega, fun j hj => ?_, fun a ha => ?_⟩
      · cases j with
        | zero => rw [hout _ (by omega), Memory.read?_put]; simp
        | succ j =>
          have hj' := hin j (by omega)
          rw [show pos + 1 + j = pos + (j + 1) by omega] at hj'
          have hlt := Nat.mod_lt j (show 0 < off by omega)
          rw [hj', Memory.read?_put]
          by_cases hd : j % off = off - 1
          · have h0 : (j + 1) % off = 0 := by
              rw [Nat.add_mod, hd]
              by_cases h1 : off = 1
              · subst h1; simp
              · rw [Nat.mod_eq_of_lt (show 1 < off by omega), show off - 1 + 1 = off by omega, Nat.mod_self]
            rw [if_pos (by omega), h0, Nat.add_zero]
          · have h1 : (j + 1) % off = j % off + 1 := by
              rw [Nat.add_mod, Nat.mod_eq_of_lt (show 1 < off by omega), Nat.mod_eq_of_lt (by omega)]
            rw [if_neg (by omega), h1]
            congr 1
            omega
      · rw [hout a (by omega), Memory.read?_put, if_neg (by omega)]
    · have h0 : eff - pos = 0 := by omega
      simp [copyRun, if_neg hp, h0]

theorem copyRun_wf {off eff : Nat} (heff : eff ≤ 2 ^ 32) {n pos : Nat} {m : Memory} (hm : m.wf = true) :
    (copyRun off eff n pos m).2.wf = true := by
  induction n generalizing pos m with
  | zero => exact hm
  | succ n ih =>
    unfold copyRun
    split
    · exact ih (Memory.put_wf _ (by omega) hm)
    · exact hm

/-- The argument checks of R241. -/
theorem datArguments_cases (s : State) :
    ((s.inPresent = false ∨ (s.outPresent = true ∧ s.outSize = 0)) ∧
      datArguments s = .fail (.err .invalidInput) s) ∨
    (s.inPresent = true ∧ (s.outPresent = true → s.outSize ≠ 0) ∧ datArguments s = .ok () s) := by
  unfold datArguments
  cases hi : s.inPresent with
  | false => exact .inl ⟨.inl rfl, rfl⟩
  | true =>
    cases ho : s.outPresent with
    | false => exact .inr ⟨rfl, (fun h => nomatch h), rfl⟩
    | true =>
      by_cases hz : s.outSize = 0
      · exact .inl ⟨.inr ⟨rfl, hz⟩, by simp [hz, failWith]⟩
      · exact .inr ⟨rfl, fun _ => hz, by simp [show s.outSize ≠ 0#32 from hz]⟩

/-- What the header leaves of OUT: the host's as it was, or one of the block's of exactly `EFF` bytes (R67, R245). -/
theorem startOutput_out (declared : Word) (s : State) :
    (s.outPresent = true ∧ (startOutput declared s).outMem = s.outMem ∧ (startOutput declared s).outLen = s.outLen) ∨
    (s.outPresent = false ∧ (startOutput declared s).outMem = [] ∧
      (startOutput declared s).outLen = some (effectiveSize declared s.outSize)) := by
  cases h : s.outPresent <;> simp [startOutput, h]

theorem startOutput_dec (declared : Word) (s : State) : (startOutput declared s).dec =
    { s.dec with eff := effectiveSize declared s.outSize, outPos := 0 } := by
  cases h : s.outPresent <;> simp [startOutput, h]

/-- `EFF` is at most what the stream declares, and at most what the host asked for (R244). -/
theorem effectiveSize_le (declared outSize : Word) :
    effectiveSize declared outSize ≤ declared ∧ (outSize ≠ 0 → effectiveSize declared outSize ≤ outSize) := by
  unfold effectiveSize
  split
  · exact ⟨BitVec.le_refl _, fun h => absurd ‹_› h⟩
  · split
    · exact ⟨BitVec.le_refl _, fun _ => ‹_›⟩
    · rename_i h
      exact ⟨BitVec.le_of_lt (BitVec.not_le.mp h), fun _ => BitVec.le_refl _⟩

/-! ### The dat stream, in read order -/

/-- A field is read exactly where the stream has it ("Dat stream syntax"). -/
theorem readField_eq_ok {k : Nat} {s s' : State} {w : Word} :
    readField k s = .ok w s' ↔ ReadsField k s w.toNat s' := by
  unfold ReadsField
  cases hn : s.cur.need s.cfg s.inMem k with
  | error e => rw [readField_of_error hn]; simp
  | ok c =>
    obtain ⟨v, hv, hval⟩ := readField_of_need hn
    rw [hv]
    constructor
    · intro h; cases h; exact ⟨c, rfl, hval, rfl⟩
    · rintro ⟨c', hc, hw, rfl⟩
      cases hc
      rw [show v = w from BitVec.eq_of_toNat_eq (hval.trans hw.symm)]

/-- `DROP(n)` succeeds exactly where n bits are valid (R148). -/
theorem dropBits_eq_ok {n : Nat} {s s' : State} {u : Unit} :
    dropBits n s = .ok u s' ↔ n ≤ 32 ∧ n ≤ s.cur.bits.toNat ∧ s' = s.withCur (s.cur.dropped n) := by
  constructor
  · intro h
    obtain ⟨-, h'⟩ | ⟨h1, h2, h'⟩ := Cursor.drop_cases (c := s.cur) (n := n) rfl
    · rw [dropBits, h'] at h; cases h
    · rw [dropBits, h'] at h; cases h; exact ⟨h1, h2, rfl⟩
  · rintro ⟨h1, h2, rfl⟩; exact dropBits_of_le h1 h2

/-- `READCODE(t)` gives a symbol exactly where a code of the slot begins the window (R210 to R213). -/
theorem readSlot_eq_ok {t : SlotId} {s s' : State} {y : Sym} :
    readSlot t s = .ok y s' ↔ ReadsCode t s y s' := by
  unfold ReadsCode
  cases he : (s.slot t).empty with
  | true => rw [readSlot_of_empty he]; simp
  | false =>
    cases hn : s.cur.need s.cfg s.inMem 32 with
    | error e => rw [readSlot, he, needBits_of_error hn]; simp
    | ok c =>
      have hb := (Cursor.need_bits hn).2
      rw [readSlot_of_need he hn]
      cases hl : (s.slot t).lookup s.cfg.hashBits c.head with
      | none => simp [hl]
      | some p =>
        obtain ⟨z, len⟩ := p
        simp only [Res.andThen_eq_ok, dropBits_eq_ok]
        constructor
        · rintro ⟨_, _, ⟨h1, h2, rfl⟩, h⟩
          cases h
          exact ⟨trivial, c, len, rfl, hl, h1, rfl⟩
        · rintro ⟨-, c', len', hc, hl', h32, rfl⟩
          cases hc
          rw [hl] at hl'
          cases hl'
          exact ⟨(), _, ⟨h32, Nat.le_trans h32 hb, rfl⟩, rfl⟩

/-- The const-add field, where its scope puts it (R102, R247). -/
theorem constFieldAt_eq_ok {p : ConstAddScope} {s s' : State} :
    constFieldAt p s = .ok () s' ↔ ReadsConstAdd p s s' := by
  unfold constFieldAt ReadsConstAdd
  split
  · cases hn : s.cur.need s.cfg s.inMem 8 with
    | error e => rw [constField, needBits_of_error hn]; simp
    | ok c =>
      have hb := (Cursor.need_bits hn).2
      have h4 : 4 ≤ c.bits.toNat := by omega
      obtain ⟨v, hv, hval⟩ := readBits_of_le (s := (s.withCur c).withCur (c.dropped 4)) (n := 4) (by decide)
      have hv' : v.toNat = c.head.toNat / 2 ^ 24 % 16 := by
        rw [hval]
        show (c.dropped 4).head.toNat / 2 ^ 28 = _
        have hw := c.window_toNat
        have := c.buf.isLt
        have := c.head.isLt
        rw [Cursor.head_toNat, Cursor.dropped_window, BitVec.toNat_shiftLeft, hw, Nat.shiftLeft_eq]
        omega
      have he : constField s = .ok () ((s.withCur ((c.dropped 4).dropped 4)).withDec
          { s.dec with constAdd := BitVec.ofNat 5 (c.head.toNat / 2 ^ 24 % 16 + 1) }) := by
        rw [constField, needBits_of_ok hn, Res.ok_andThen, dropBits_of_le (by decide) (by simpa using h4),
          Res.ok_andThen]
        simp only [State.withCur_cur]
        rw [hv, Res.ok_andThen, dropBits_of_le (by decide) (by simp [Cursor.dropped_bits h4]; omega), Res.ok_andThen,
          hv']
        rfl
      rw [he]
      constructor
      · intro h; cases h; exact ⟨c, rfl, rfl⟩
      · rintro ⟨c', hc, rfl⟩; cases hc; rfl
  · constructor
    · intro h; cases h; rfl
    · rintro rfl; rfl

/-- An instruction whose work keeps `ERR` ends without error exactly where that work succeeds. -/
theorem completes_finish {r : Res Unit} {s t : State} (hs : s.err = none) (hk : r.Leads KeepsHost s)
    {i : Instr} (hi : exec i s = finish r) : Completes i s t ↔ r = .ok () t := by
  unfold Completes
  rw [hi, finish_eq]
  constructor
  · rintro ⟨h, he⟩
    cases h
    exact Res.ok_of_settle rfl he
  · intro h
    subst h
    exact ⟨rfl, hk.err.trans hs⟩

end Sys2Proof.Machine
end

