-- ==== Sys2Proof/Laws/PerInstr.lean ====
section
/-! SUPPORT. Per instruction: the encoding matches the instruction's row of spec/opcode_table.json, in the row's format. -/

namespace Sys2Proof.Laws.MatchesRow

/-- A row of the opcode table: its format, its mask and its match; the symbol rows are written for `SYM_BITS` = 16 (log 7). -/
inductive Row
  | command (mask pat : Word)
  | token (mask pat : BitVec 16)
  | offset (mask pat : BitVec 16)
  | desc (mask pat : BitVec 16)
  deriving DecidableEq, Repr

/-- The row of each instruction (R92, R104, R106, R108). -/
def row : Instr → Row
  | .nop => .command 0xFFFFFFFF 0x00000000
  | .curInit => .command 0xFFFFFFFF 0x01000000
  | .curNeed _ => .command 0xFFC0FFFF 0x02000000
  | .curRead _ => .command 0xFFC0FFFF 0x03000000
  | .curDrop _ => .command 0xFFC0FFFF 0x04000000
  | .bldClear => .command 0xFFFFFFFF 0x10000000
  | .bldAdd _ _ => .command 0xFFC00000 0x11000000
  | .bldBuild _ => .command 0xFF3FFFFF 0x12000000
  | .dictInit => .command 0xFFFFFFFF 0x13000000
  | .hufRead _ => .command 0xFF3FFFFF 0x20000000
  | .descRead _ => .command 0xFF3FFFFF 0x21000000
  | .datDecode => .command 0xFFFFFFFF 0x30000000
  | .softReset => .command 0xFFFFFFFF 0xFF000000
  | .lit _ => .token 0xFF00 0x0000
  | .cpyB0 _ => .token 0xFFFC 0x0100
  | .cpyB1 _ => .token 0xFFFC 0x0104
  | .cpyB2 _ => .token 0xFFFC 0x0108
  | .cpyB3 _ => .token 0xFFFC 0x010C
  | .cpyB4 _ => .token 0xFFFC 0x0110
  | .cpyB5 _ => .token 0xFFFC 0x0114
  | .cpyB6 _ => .token 0xFFFC 0x0118
  | .cpyFF => .token 0xFFFF 0x011C
  | .cpyRsv _ => .token 0x0000 0x0000
  | .offB0 _ => .offset 0xFFFE 0x0000
  | .offB1 _ => .offset 0xFFFE 0x0002
  | .offB2 _ => .offset 0xFFFE 0x0004
  | .offB3 _ => .offset 0xFFFE 0x0006
  | .offB4 _ => .offset 0xFFFE 0x0008
  | .offB5 _ => .offset 0xFFFE 0x000A
  | .offB6 _ => .offset 0xFFFE 0x000C
  | .offB7 _ => .offset 0xFFFE 0x000E
  | .offB8 _ => .offset 0xFFFE 0x0010
  | .offB9 _ => .offset 0xFFFE 0x0012
  | .offB10 _ => .offset 0xFFFE 0x0014
  | .offB11 _ => .offset 0xFFFE 0x0016
  | .offB12 _ => .offset 0xFFFE 0x0018
  | .offB13 _ => .offset 0xFFFE 0x001A
  | .offB14 _ => .offset 0xFFFE 0x001C
  | .offB15 _ => .offset 0xFFFE 0x001E
  | .offB16 _ => .offset 0xFFFE 0x0020
  | .offRsv _ => .offset 0x0000 0x0000
  | .descSkip _ => .desc 0x001F 0x0000
  | .descRun _ _ => .desc 0x0000 0x0000

/-- What a decoder is given lies in a row: the format is the row's, and the fixed bits are the row's (R94). -/
def Row.Holds : Row → Fetched → Prop
  | .command m p, .command v => v &&& m = p
  | .token m p, .element (.token s) => BitVec.ofNat 16 s &&& m = p
  | .offset m p, .element (.offset t) => BitVec.ofNat 16 t &&& m = p
  | .desc m p, .element (.desc c) => BitVec.ofNat 16 c &&& m = p
  | _, _ => False

/-- The encoding of a well-formed instruction lies in the instruction's row. -/
def Statement (i : Instr) : Prop := i.wf 16 = true → (row i).Holds (encode i)

/-- A command whose `NB` is free matches its row. -/
theorem nb_row (opc : BitVec 8) (nb : BitVec 6) :
    packCommand opc 0 nb 0 &&& 0xFFC0FFFF = packCommand opc 0 0 0 := by
  have h : (0xFFC0FFFF : Word) = BitVec.allOnes 8 ++ BitVec.allOnes 2 ++ (0 : BitVec 6) ++ BitVec.allOnes 16 := by decide
  rw [packCommand, h, BitVec.and_append, BitVec.and_append, BitVec.and_append,
    BitVec.and_allOnes]
  simp [packCommand]

/-- A command whose `TR` is free matches its row. -/
theorem tr_row (opc : BitVec 8) (tr : BitVec 2) :
    packCommand opc tr 0 0 &&& 0xFF3FFFFF = packCommand opc 0 0 0 := by
  have h : (0xFF3FFFFF : Word) = BitVec.allOnes 8 ++ (0 : BitVec 2) ++ BitVec.allOnes 6 ++ BitVec.allOnes 16 := by decide
  rw [packCommand, h, BitVec.and_append, BitVec.and_append, BitVec.and_append,
    BitVec.and_allOnes]
  simp [packCommand]

/-- A command whose `NB` and `SYM` are free matches its row. -/
theorem nb_sym_row (opc : BitVec 8) (nb : BitVec 6) (sy : BitVec 16) :
    packCommand opc 0 nb sy &&& 0xFFC00000 = packCommand opc 0 0 0 := by
  have h : (0xFFC00000 : Word) = BitVec.allOnes 8 ++ BitVec.allOnes 2 ++ (0 : BitVec 6) ++ (0 : BitVec 16) := by decide
  rw [packCommand, h, BitVec.and_append, BitVec.and_append, BitVec.and_append,
    BitVec.and_allOnes]
  simp [packCommand]

theorem nop : Statement .nop := fun _ => rfl
theorem curInit : Statement .curInit := fun _ => rfl
theorem curNeed (nb : BitVec 6) : Statement (.curNeed nb) := fun _ => (nb_row _ nb).trans (by decide)
theorem curRead (nb : BitVec 6) : Statement (.curRead nb) := fun _ => (nb_row _ nb).trans (by decide)
theorem curDrop (nb : BitVec 6) : Statement (.curDrop nb) := fun _ => (nb_row _ nb).trans (by decide)
theorem bldClear : Statement .bldClear := fun _ => rfl
theorem bldAdd (nb : BitVec 6) (sy : BitVec 16) : Statement (.bldAdd nb sy) := fun _ => (nb_sym_row _ nb sy).trans (by decide)
theorem bldBuild (tr : TreeSel) : Statement (.bldBuild tr) := fun _ => (tr_row _ _).trans (by decide)
theorem dictInit : Statement .dictInit := fun _ => rfl
theorem hufRead (tr : TreeSel) : Statement (.hufRead tr) := fun _ => (tr_row _ _).trans (by decide)
theorem descRead (tr : TreeSel) : Statement (.descRead tr) := fun _ => (tr_row _ _).trans (by decide)
theorem datDecode : Statement .datDecode := fun _ => rfl
theorem softReset : Statement .softReset := fun _ => rfl
theorem lit (b : Byte) : Statement (.lit b) := fun _ =>
  (show ∀ b : Byte, BitVec.ofNat 16 b.toNat &&& 0xFF00 = 0x0000 by decide) b
theorem cpyB0 (r : BitVec 2) : Statement (.cpyB0 r) := fun _ =>
  (show ∀ r : BitVec 2, BitVec.ofNat 16 (0x100 + 4 * 0 + r.toNat) &&& 0xFFFC = 0x0100 by decide) r
theorem cpyB1 (r : BitVec 2) : Statement (.cpyB1 r) := fun _ =>
  (show ∀ r : BitVec 2, BitVec.ofNat 16 (0x100 + 4 * 1 + r.toNat) &&& 0xFFFC = 0x0104 by decide) r
theorem cpyB2 (r : BitVec 2) : Statement (.cpyB2 r) := fun _ =>
  (show ∀ r : BitVec 2, BitVec.ofNat 16 (0x100 + 4 * 2 + r.toNat) &&& 0xFFFC = 0x0108 by decide) r
theorem cpyB3 (r : BitVec 2) : Statement (.cpyB3 r) := fun _ =>
  (show ∀ r : BitVec 2, BitVec.ofNat 16 (0x100 + 4 * 3 + r.toNat) &&& 0xFFFC = 0x010C by decide) r
theorem cpyB4 (r : BitVec 2) : Statement (.cpyB4 r) := fun _ =>
  (show ∀ r : BitVec 2, BitVec.ofNat 16 (0x100 + 4 * 4 + r.toNat) &&& 0xFFFC = 0x0110 by decide) r
theorem cpyB5 (r : BitVec 2) : Statement (.cpyB5 r) := fun _ =>
  (show ∀ r : BitVec 2, BitVec.ofNat 16 (0x100 + 4 * 5 + r.toNat) &&& 0xFFFC = 0x0114 by decide) r
theorem cpyB6 (r : BitVec 2) : Statement (.cpyB6 r) := fun _ =>
  (show ∀ r : BitVec 2, BitVec.ofNat 16 (0x100 + 4 * 6 + r.toNat) &&& 0xFFFC = 0x0118 by decide) r
theorem cpyFF : Statement .cpyFF := fun _ => rfl
theorem cpyRsv (s : Sym) : Statement (.cpyRsv s) := fun _ => BitVec.and_zero
theorem offB0 (r : BitVec 1) : Statement (.offB0 r) := fun _ =>
  (show ∀ r : BitVec 1, BitVec.ofNat 16 (2 * 0 + r.toNat) &&& 0xFFFE = 0x0000 by decide) r
theorem offB1 (r : BitVec 1) : Statement (.offB1 r) := fun _ =>
  (show ∀ r : BitVec 1, BitVec.ofNat 16 (2 * 1 + r.toNat) &&& 0xFFFE = 0x0002 by decide) r
theorem offB2 (r : BitVec 1) : Statement (.offB2 r) := fun _ =>
  (show ∀ r : BitVec 1, BitVec.ofNat 16 (2 * 2 + r.toNat) &&& 0xFFFE = 0x0004 by decide) r
theorem offB3 (r : BitVec 1) : Statement (.offB3 r) := fun _ =>
  (show ∀ r : BitVec 1, BitVec.ofNat 16 (2 * 3 + r.toNat) &&& 0xFFFE = 0x0006 by decide) r
theorem offB4 (r : BitVec 1) : Statement (.offB4 r) := fun _ =>
  (show ∀ r : BitVec 1, BitVec.ofNat 16 (2 * 4 + r.toNat) &&& 0xFFFE = 0x0008 by decide) r
theorem offB5 (r : BitVec 1) : Statement (.offB5 r) := fun _ =>
  (show ∀ r : BitVec 1, BitVec.ofNat 16 (2 * 5 + r.toNat) &&& 0xFFFE = 0x000A by decide) r
theorem offB6 (r : BitVec 1) : Statement (.offB6 r) := fun _ =>
  (show ∀ r : BitVec 1, BitVec.ofNat 16 (2 * 6 + r.toNat) &&& 0xFFFE = 0x000C by decide) r
theorem offB7 (r : BitVec 1) : Statement (.offB7 r) := fun _ =>
  (show ∀ r : BitVec 1, BitVec.ofNat 16 (2 * 7 + r.toNat) &&& 0xFFFE = 0x000E by decide) r
theorem offB8 (r : BitVec 1) : Statement (.offB8 r) := fun _ =>
  (show ∀ r : BitVec 1, BitVec.ofNat 16 (2 * 8 + r.toNat) &&& 0xFFFE = 0x0010 by decide) r
theorem offB9 (r : BitVec 1) : Statement (.offB9 r) := fun _ =>
  (show ∀ r : BitVec 1, BitVec.ofNat 16 (2 * 9 + r.toNat) &&& 0xFFFE = 0x0012 by decide) r
theorem offB10 (r : BitVec 1) : Statement (.offB10 r) := fun _ =>
  (show ∀ r : BitVec 1, BitVec.ofNat 16 (2 * 10 + r.toNat) &&& 0xFFFE = 0x0014 by decide) r
theorem offB11 (r : BitVec 1) : Statement (.offB11 r) := fun _ =>
  (show ∀ r : BitVec 1, BitVec.ofNat 16 (2 * 11 + r.toNat) &&& 0xFFFE = 0x0016 by decide) r
theorem offB12 (r : BitVec 1) : Statement (.offB12 r) := fun _ =>
  (show ∀ r : BitVec 1, BitVec.ofNat 16 (2 * 12 + r.toNat) &&& 0xFFFE = 0x0018 by decide) r
theorem offB13 (r : BitVec 1) : Statement (.offB13 r) := fun _ =>
  (show ∀ r : BitVec 1, BitVec.ofNat 16 (2 * 13 + r.toNat) &&& 0xFFFE = 0x001A by decide) r
theorem offB14 (r : BitVec 1) : Statement (.offB14 r) := fun _ =>
  (show ∀ r : BitVec 1, BitVec.ofNat 16 (2 * 14 + r.toNat) &&& 0xFFFE = 0x001C by decide) r
theorem offB15 (r : BitVec 1) : Statement (.offB15 r) := fun _ =>
  (show ∀ r : BitVec 1, BitVec.ofNat 16 (2 * 15 + r.toNat) &&& 0xFFFE = 0x001E by decide) r
theorem offB16 (r : BitVec 1) : Statement (.offB16 r) := fun _ =>
  (show ∀ r : BitVec 1, BitVec.ofNat 16 (2 * 16 + r.toNat) &&& 0xFFFE = 0x0020 by decide) r
theorem offRsv (t : Sym) : Statement (.offRsv t) := fun _ => BitVec.and_zero
theorem descSkip (cm1 : Nat) : Statement (.descSkip cm1) := fun _ => by
  show BitVec.ofNat 16 (32 * cm1) &&& 0x001F = 0x0000
  apply BitVec.eq_of_toNat_eq
  rw [BitVec.toNat_and, BitVec.toNat_ofNat]
  show 32 * cm1 % 2 ^ 16 &&& (2 ^ 5 - 1) = 0
  rw [Nat.and_two_pow_sub_one_eq_mod]
  omega
theorem descRun (len : BitVec 5) (cm1 : Nat) : Statement (.descRun len cm1) := fun _ => BitVec.and_zero

end Sys2Proof.Laws.MatchesRow
end

