-- ==== Sys2Proof/Laws/Step.lean ====
section
/-! SUPPORT. What a step does with each input, so that proofs about a step never unfold it. -/

namespace Sys2Proof.Machine

/-- R94: where a write to `CMD` is executed, it runs what its word decodes to. -/
theorem issueCommand_of_executed {s : State} {v : Word} (h : s.err = none ∨ v = softResetWord) :
    issueCommand v s = match decodeCommand v with
      | .ok i => .run i s
      | .error _ => .done (reservedCommand s) := by
  unfold issueCommand
  have hc : ¬ (s.err ≠ none ∧ v ≠ softResetWord) := by obtain h | h := h <;> simp [h]
  exact if_neg hc

/-- R294: in the stop state a write to `CMD` of anything but `SOFT_RESET` is ignored. -/
theorem issueCommand_of_stopped {s : State} {v : Word} (h : s.err ≠ none) (hv : v ≠ softResetWord) :
    issueCommand v s = .done s := by
  unfold issueCommand
  rw [if_pos ⟨h, hv⟩]

theorem decode_softResetWord : decodeCommand softResetWord = .ok .softReset := by decide

theorem issueCommand_softReset (s : State) : issueCommand softResetWord s = .run .softReset s := by
  rw [issueCommand_of_executed (.inr rfl), decode_softResetWord]

/-- A step that serves an input which leads to no instruction. -/
theorem step_of_done {s t : State} {i : Input} {rest : List Input} (h : s.inputs = i :: rest)
    (hs : serve i (s.withInputs rest) = .done t) : step s = .next t := by
  have hn : nextAction s = .done t := by
    unfold nextAction
    rw [h]
    exact hs
  unfold step
  rw [hn]

/-- A step that serves an input which leads to an instruction is `exec` of it. -/
theorem step_of_run {s t : State} {i : Input} {j : Instr} {rest : List Input} (h : s.inputs = i :: rest)
    (hs : serve i (s.withInputs rest) = .run j t) : step s = exec j t := by
  have hn : nextAction s = .run j t := by
    unfold nextAction
    rw [h]
    exact hs
  unfold step
  rw [hn]

/-- A step that serves a host access past the OUT the block provided (log 14). -/
theorem step_of_stop {s : State} {i : Input} {f : Fault} {rest : List Input} (h : s.inputs = i :: rest)
    (hs : serve i (s.withInputs rest) = .stop f) : step s = .fault f := by
  have hn : nextAction s = .stop f := by
    unfold nextAction
    rw [h]
    exact hs
  unfold step
  rw [hn]

/-- With no input the machine waits (log 1). -/
theorem step_of_no_input {s : State} (h : s.inputs = []) : step s = .next s := by
  unfold step nextAction
  rw [h]

/-- `withFetchWord` puts the word first: the next step takes it (log 1). -/
theorem withFetchWord_inputs (s : State) (nbits w : Nat) :
    (s.withFetchWord nbits w).inputs = inputOf (fetchedOfTableWord nbits w) :: s.inputs := rfl

/-- What serving one input can lead to: an instruction, `NOP`'s like inaction, or a host access (R20, R94, R294). -/
theorem serve_cases (i : Input) (s : State) :
    (∃ v, i = .regWrite 0 v ∧ serve i s = issueCommand v s) ∨
    (∃ off v, i = .regWrite off v ∧ off ≠ 0 ∧ serve i s = .done (writeReg s off v)) ∨
    (∃ off, i = .regRead off ∧ serve i s = .done (s.withHostData (readReg s off))) ∨
    (∃ m a b, i = .memWrite m a b ∧ hostReaches s m a = true ∧ serve i s = .done (hostPoke s m a b)) ∨
    (∃ m a, i = .memRead m a ∧ hostReaches s m a = true ∧
      serve i s = .done ((s.withHostData (zext32 (hostByte s m a))).withFree (s.free + 1))) ∨
    (∃ m a, ((∃ b, i = .memWrite m a b) ∨ i = .memRead m a) ∧ hostReaches s m a = false ∧
      serve i s = .stop .noSuchOutByte) ∨
    (i = .hardReset ∧ serve i s = .done s.resetBlock) ∨
    (∃ e, i = .element e ∧ serve i s = issueElement e s) := by
  cases i with
  | regWrite off v =>
    by_cases h : off = 0
    · subst h; exact .inl ⟨v, rfl, rfl⟩
    · exact .inr (.inl ⟨off, v, rfl, h, if_neg h⟩)
  | regRead off => exact .inr (.inr (.inl ⟨off, rfl, rfl⟩))
  | memWrite m a b =>
    cases h : hostReaches s m a with
    | true => exact .inr (.inr (.inr (.inl ⟨m, a, b, rfl, h, if_pos h⟩)))
    | false => exact .inr (.inr (.inr (.inr (.inr (.inl ⟨m, a, .inl ⟨b, rfl⟩, h, if_neg (by simp [h])⟩)))))
  | memRead m a =>
    cases h : hostReaches s m a with
    | true => exact .inr (.inr (.inr (.inr (.inl ⟨m, a, rfl, h, if_pos h⟩))))
    | false => exact .inr (.inr (.inr (.inr (.inr (.inl ⟨m, a, .inr rfl, h, if_neg (by simp [h])⟩)))))
  | hardReset => exact .inr (.inr (.inr (.inr (.inr (.inr (.inl ⟨rfl, rfl⟩))))))
  | element e => exact .inr (.inr (.inr (.inr (.inr (.inr (.inr ⟨e, rfl, rfl⟩))))))

/-- The three ways a write to `CMD` ends (R93, R94, R294). -/
theorem issueCommand_cases (v : Word) (s : State) :
    (s.err ≠ none ∧ v ≠ softResetWord ∧ issueCommand v s = .done s) ∨
    (∃ i, (s.err = none ∨ v = softResetWord) ∧ decodeCommand v = .ok i ∧ issueCommand v s = .run i s) ∨
    (∃ e, s.err = none ∧ decodeCommand v = .error e ∧ issueCommand v s = .done (reservedCommand s)) := by
  by_cases h : s.err = none ∨ v = softResetWord
  · rw [issueCommand_of_executed h]
    cases hd : decodeCommand v with
    | ok i => exact .inr (.inl ⟨i, h, rfl, rfl⟩)
    | error e =>
      refine .inr (.inr ⟨e, ?_, rfl, rfl⟩)
      obtain h | rfl := h
      · exact h
      · rw [decode_softResetWord] at hd; cases hd
  · obtain ⟨h₁, h₂⟩ := not_or.mp h
    exact .inl ⟨h₁, h₂, issueCommand_of_stopped h₁ h₂⟩

end Sys2Proof.Machine
end

