-- ==== Sys2Proof/Laws/Tables.lean ====
section
/-! SUPPORT. The builder and the tree slots: what each table operation leaves, entry by entry, and that every one keeps
the tables' sizes. -/

namespace Sys2Proof.Machine

/-! ### What an insertion leaves (R171) -/

theorem Builder.insert_shaped {cfg : Config} {b : Builder} (h : b.shaped cfg) (sy : Sym) (len : Nat) :
    (b.insert sy len).shaped cfg := by
  obtain ⟨h₁, h₂, h₃, h₄, h₅⟩ := h
  refine ⟨?_, ?_, ?_, ?_, ?_⟩ <;> simp only [Builder.insert]
  · simpa using h₁
  · simpa using h₂
  · split <;> simpa using h₃
  · simpa using h₄
  · simpa using h₅

/-- A bucket's head and mark after an insertion: the bucket inserted into has the new symbol at its head. -/
theorem Builder.insert_bucketHead {cfg : Config} {b : Builder} (h : b.shaped cfg) (sy : Sym) {len l : Nat}
    (h₁ : 1 ≤ len) (h₂ : len ≤ maxCodeBits) (hl : 1 ≤ l) :
    (b.insert sy len).headOf l = (if l = len then sy else b.headOf l) ∧
    (b.insert sy len).valid l = (if l = len then true else b.valid l) := by
  obtain ⟨s₁, s₂, -, -, -⟩ := h
  by_cases e : l = len
  · subst e
    have hlt : l - 1 < 32 := by simp only [maxCodeBits] at h₂; omega
    simp [Builder.headOf, Builder.valid, Builder.insert, s₁, s₂, hlt]
  · have hne : ¬ len - 1 = l - 1 := by omega
    simp [Builder.headOf, Builder.valid, Builder.insert, hne, e]

/-- A symbol's entries after an insertion: only the new symbol's change. -/
theorem Builder.insert_entries {cfg : Config} {b : Builder} (h : b.shaped cfg) {sy : Sym}
    (hsy : sy < cfg.maxSymbols) (len j : Nat) :
    (b.insert sy len).bpres.getD j false = (if j = sy then true else b.bpres.getD j false) ∧
    (b.insert sy len).bnv.getD j false = (if j = sy then b.valid len else b.bnv.getD j false) ∧
    (b.insert sy len).bnext.getD j 0 =
      (if j = sy ∧ b.valid len = true then b.headOf len else b.bnext.getD j 0) := by
  obtain ⟨-, -, s₃, s₄, s₅⟩ := h
  by_cases e : j = sy
  · subst e
    cases hv : b.valid len <;> simp [Builder.insert, s₃, s₄, s₅, hsy, hv]
  · have hne : ¬ sy = j := Ne.symm e
    cases hv : b.valid len <;> simp [Builder.insert, hne, e, hv]

theorem Builder.reset_shaped (cfg : Config) : (Builder.reset cfg).shaped cfg := by
  refine ⟨?_, ?_, ?_, ?_, ?_⟩ <;> exact List.length_replicate

theorem freeBuilder_shaped (cfg : Config) (n : Nat) : (freeBuilder cfg n).shaped cfg := by
  refine ⟨?_, ?_, ?_, ?_, ?_⟩ <;> simp [freeBuilder]

theorem Builder.add_shaped {cfg : Config} {b b' : Builder} {sy len : Nat} (h : b.shaped cfg)
    (ha : b.add cfg sy len = .ok b') : b'.shaped cfg := by
  obtain ⟨-, ha⟩ | ⟨-, -, -, -, ha⟩ := Builder.add_cases ha <;> cases ha
  exact b.insert_shaped h _ _

theorem Builder.addAll_shaped {cfg : Config} {l : List (Sym × BitVec 6)} {b b' : Builder} (h : b.shaped cfg)
    (ha : b.addAll cfg l = .ok b') : b'.shaped cfg := by
  induction l generalizing b with
  | nil => cases ha; exact h
  | cons p l ih =>
    rw [Builder.addAll] at ha
    split at ha
    · exact ih (Builder.add_shaped h ‹_›) ha
    · cases ha

/-! ### Slots -/

theorem Slot.reset_shaped (cfg : Config) : (Slot.reset cfg).shaped cfg := List.length_replicate

theorem freeSlot_shaped (cfg : Config) (n t : Nat) : (freeSlot cfg n t).shaped cfg := by
  simp [Slot.shaped, freeSlot]

/-- What `BUILD` leaves (R172, R175, R179). -/
theorem Builder.build_cases {cfg : Config} {b : Builder} {r : Option Slot} (h : b.build cfg = r) :
    (b.isEmpty = true ∧ r = some (Slot.reset cfg)) ∨
    (b.isEmpty = false ∧ ∃ gs, b.assign cfg = some gs ∧ r = some (Slot.ofGroups cfg.hashBits gs)) ∨
    (b.isEmpty = false ∧ b.assign cfg = none ∧ r = none) := by
  unfold Builder.build at h
  split at h
  · exact .inl ⟨‹_›, h.symm⟩
  · cases ha : b.assign cfg with
    | some gs => exact .inr (.inl ⟨by simp_all, gs, rfl, by rw [← h, ha]; rfl⟩)
    | none => exact .inr (.inr ⟨by simp_all, rfl, by rw [← h, ha]; rfl⟩)

theorem Builder.build_shaped {cfg : Config} {b : Builder} {x : Slot} (h : b.build cfg = some x) : x.shaped cfg := by
  obtain ⟨-, h⟩ | ⟨-, gs, -, h⟩ | ⟨-, -, h⟩ := Builder.build_cases h <;> cases h
  · exact Slot.reset_shaped cfg
  · simp [Slot.shaped, Slot.ofGroups, fillHash]

/-- What `DICTINIT` makes: the table added in order, then built (R180). -/
theorem dictTables_eq_ok {cfg : Config} {b : Builder} {x : Slot} :
    dictTables cfg = .ok (b, x) ↔ (Builder.reset cfg).addAll cfg cfg.dictTable = .ok b ∧ b.build cfg = some x := by
  unfold dictTables Builder.clear
  constructor
  · intro h
    split at h
    · cases h
    · split at h
      · cases h
      · cases h; exact ⟨‹_›, ‹_›⟩
  · rintro ⟨h, hb⟩
    rw [h]
    simp only [hb]

/-- The table's own errors are `InvalidInput` and `Corrupt` (R180). -/
theorem Builder.addAll_error {cfg : Config} {l : List (Sym × BitVec 6)} {b : Builder} {k : ErrKind}
    (h : b.addAll cfg l = .error k) : k = .invalidInput := by
  induction l generalizing b with
  | nil => cases h
  | cons p l ih =>
    rw [Builder.addAll] at h
    split at h
    · exact ih h
    · cases h
      obtain ⟨-, ha⟩ | ⟨-, -, -, -, ha⟩ := Builder.add_cases ‹_› <;> cases ha
      rfl

theorem dictTables_error {cfg : Config} {k : ErrKind} (h : dictTables cfg = .error k) :
    k = .invalidInput ∨ k = .corrupt := by
  unfold dictTables at h
  split at h
  · cases h; exact .inl (Builder.addAll_error ‹_›)
  · split at h
    · cases h; exact .inr rfl
    · cases h

/-! ### The widths of symbols and counters (R5, R40, R41, R44, R46, R48) -/

theorem countReg_lt (c : Config) (n : Nat) : c.countReg n < 2 ^ c.countBits := Nat.mod_lt _ (Nat.two_pow_pos _)

theorem countReg_of_lt {c : Config} {n : Nat} (h : n < 2 ^ c.countBits) : c.countReg n = n := Nat.mod_eq_of_lt h

/-- The largest count of R248 fits the registers. -/
theorem largestCount_lt {c : Config} {v : Nat} (h : v < 2 ^ c.maxCountBits) :
    (v + 1) <<< c.maxCountShift < 2 ^ c.countBits := by
  rw [Nat.shiftLeft_eq]
  calc (v + 1) * 2 ^ c.maxCountShift ≤ 2 ^ c.maxCountBits * 2 ^ c.maxCountShift := Nat.mul_le_mul_right _ h
    _ = 2 ^ (c.maxCountBits + c.maxCountShift) := (Nat.pow_add ..).symm
    _ < 2 ^ c.countBits := Nat.pow_lt_pow_right (by decide) (by simp [Config.countBits])

theorem Decoder.reset_fits (cfg : Config) : Decoder.reset.fits cfg :=
  ⟨Nat.two_pow_pos _, Nat.two_pow_pos _⟩

theorem freeDecoder_fits (cfg : Config) (n : Nat) : (freeDecoder cfg n).fits cfg :=
  ⟨countReg_lt cfg _, countReg_lt cfg _⟩

theorem Builder.reset_fits (cfg : Config) : (Builder.reset cfg).fits cfg := by
  constructor <;> intro y hy <;> rw [List.eq_of_mem_replicate hy] <;> exact Nat.two_pow_pos _

theorem freeSym_lt (cfg : Config) (n : Nat) (path : List Nat) : freeSym cfg n path < 2 ^ cfg.symBits :=
  Nat.mod_lt _ (Nat.two_pow_pos _)

theorem freeBuilder_fits (cfg : Config) (n : Nat) : (freeBuilder cfg n).fits cfg := by
  constructor <;> intro y hy <;> obtain ⟨i, -, rfl⟩ := List.mem_map.mp hy <;> exact freeSym_lt cfg n _

theorem Slot.reset_fits (cfg : Config) : (Slot.reset cfg).fits cfg :=
  ⟨fun e he => by rw [List.eq_of_mem_replicate he]; exact Nat.two_pow_pos _, fun y hy => absurd hy List.not_mem_nil⟩

theorem freeSlot_fits (cfg : Config) (n t : Nat) : (freeSlot cfg n t).fits cfg := by
  constructor
  · intro e he
    obtain ⟨i, -, rfl⟩ := List.mem_map.mp he
    exact freeSym_lt cfg n _
  · intro y hy
    obtain ⟨i, -, rfl⟩ := List.mem_map.mp hy
    exact freeSym_lt cfg n _

theorem getD_lt {l : List Nat} {n : Nat} (h : ∀ y ∈ l, y < 2 ^ n) (i : Nat) : l.getD i 0 < 2 ^ n := by
  rw [List.getD_eq_getElem?_getD]
  cases hi : l[i]? with
  | none => exact Nat.two_pow_pos n
  | some y => exact h y (List.mem_of_getElem? hi)

/-- An insertion of a symbol of `SYM_BITS` bits keeps every entry within `SYM_BITS` bits. -/
theorem Builder.insert_fits {cfg : Config} {b : Builder} (h : b.fits cfg) {sy : Sym} (hsy : sy < 2 ^ cfg.symBits)
    (len : Nat) : (b.insert sy len).fits cfg := by
  constructor
  · intro y hy
    obtain hy | rfl := List.mem_or_eq_of_mem_set hy
    · exact h.1 y hy
    · exact hsy
  · intro y hy
    simp only [Builder.insert] at hy
    split at hy
    · obtain hy | rfl := List.mem_or_eq_of_mem_set hy
      · exact h.2 y hy
      · exact getD_lt h.1 _
    · exact h.2 y hy

theorem Builder.add_fits {cfg : Config} (hc : cfg.maxSymbols ≤ 2 ^ cfg.symBits) {b b' : Builder} {sy len : Nat}
    (h : b.fits cfg) (ha : b.add cfg sy len = .ok b') : b'.fits cfg := by
  obtain ⟨-, ha⟩ | ⟨-, -, hsy, -, ha⟩ := Builder.add_cases ha <;> cases ha
  exact Builder.insert_fits h (Nat.lt_of_lt_of_le hsy hc) len

/-- Every symbol of a bucket list has `SYM_BITS` bits. -/
theorem Builder.bucket_lt {cfg : Config} {b : Builder} (h : b.fits cfg) {len : Nat} :
    ∀ y ∈ b.bucket cfg len, y < 2 ^ cfg.symBits := by
  have hf (n : Nat) : ∀ y < 2 ^ cfg.symBits, ∀ z ∈ b.follow n y, z < 2 ^ cfg.symBits := by
    induction n with
    | zero => exact fun _ _ z hz => absurd hz List.not_mem_nil
    | succ n ih =>
      intro y hy z hz
      obtain rfl | hz := List.mem_cons.mp hz
      · exact hy
      · split at hz
        · exact ih _ (getD_lt h.2 _) z hz
        · exact absurd hz List.not_mem_nil
  unfold Builder.bucket
  split
  · exact hf _ _ (getD_lt h.1 _)
  · exact fun _ hy => absurd hy List.not_mem_nil

/-- Every group of an assignment holds the bucket of its length. -/
theorem assignLong_syms {bucket : Nat → List Sym} {n : Nat} {st : Option Nat} {gs : List Group}
    (h : assignLong bucket n st = some gs) : ∀ g ∈ gs, g.syms = (bucket g.len).reverse := by
  induction n generalizing st gs with
  | zero => cases h; exact fun _ hg => absurd hg List.not_mem_nil
  | succ n ih =>
    unfold assignLong at h
    dsimp only at h
    split at h
    · exact ih h
    · split at h
      · cases h
      · obtain ⟨gs', hgs, rfl⟩ := Option.map_eq_some_iff.mp h
        intro g hg
        obtain rfl | hg := List.mem_cons.mp hg
        · rfl
        · exact ih hgs g hg

theorem assignShort_syms {bucket : Nat → List Sym} {n f : Nat} {gs : List Group}
    (h : assignShort bucket n f = some gs) : ∀ g ∈ gs, g.syms = (bucket g.len).reverse := by
  induction n generalizing f gs with
  | zero => cases h; exact fun _ hg => absurd hg List.not_mem_nil
  | succ n ih =>
    simp only [assignShort] at h
    split at h
    · exact ih h
    · split at h
      · cases h
      · obtain ⟨gs', hgs, rfl⟩ := Option.map_eq_some_iff.mp h
        intro g hg
        obtain rfl | hg := List.mem_cons.mp hg
        · rfl
        · exact ih hgs g hg

theorem Builder.assign_syms {cfg : Config} {b : Builder} {gs : List Group} (h : b.assign cfg = some gs) :
    ∀ g ∈ gs, g.syms = (b.bucket cfg g.len).reverse := by
  unfold Builder.assign at h
  split at h
  · exact assignLong_syms h
  · exact assignShort_syms h

theorem mem_insertByThr {g x : Group} {l : List Group} : x ∈ insertByThr g l ↔ x = g ∨ x ∈ l := by
  induction l with
  | nil => simp [insertByThr]
  | cons y l ih =>
    unfold insertByThr
    split
    · simp
    · rw [List.mem_cons, ih, List.mem_cons]; tauto

theorem mem_sortByThr {x : Group} {l : List Group} : x ∈ sortByThr l ↔ x ∈ l := by
  induction l with
  | nil => rfl
  | cons y l ih => rw [sortByThr, mem_insertByThr, ih, List.mem_cons]

/-- What `BUILD` fills a slot with has `SYM_BITS` bits if the builder's symbols have. -/
theorem Builder.build_fits {cfg : Config} {b : Builder} {x : Slot} (hb : b.fits cfg) (h : b.build cfg = some x) :
    x.fits cfg := by
  obtain ⟨-, h⟩ | ⟨-, gs, hgs, h⟩ | ⟨-, -, h⟩ := Builder.build_cases h <;> cases h
  · exact Slot.reset_fits cfg
  · have hg : ∀ g ∈ gs, ∀ y ∈ g.syms, y < 2 ^ cfg.symBits := fun g hg y hy => by
      rw [Builder.assign_syms hgs g hg, List.mem_reverse] at hy
      exact Builder.bucket_lt hb y hy
    constructor
    · intro e he
      obtain ⟨i, -, rfl⟩ := List.mem_map.mp he
      unfold hashEntryAt
      split
      · exact getD_lt (hg _ (List.mem_of_find?_eq_some ‹_›)) _
      · exact Nat.two_pow_pos _
    · intro y hy
      obtain ⟨g, hmem, hy⟩ := List.mem_flatMap.mp hy
      exact hg g (List.mem_filter.mp (mem_sortByThr.mp hmem)).1 y hy

/-! ### The scan and the lookup (R210 to R213) -/

/-- The scan stops at the first entry whose threshold is at most the window (R212). -/
theorem scanLong_eq_some {w : Word} {l : List LongEntry} {e : LongEntry} :
    scanLong w l = some e ↔ ∃ j : Nat, l[j]? = some e ∧ e.thr ≤ w ∧
      ∀ j' < j, ∀ e' : LongEntry, l[j']? = some e' → w < e'.thr := by
  induction l with
  | nil => simp [scanLong]
  | cons x l ih =>
    rw [scanLong]
    split
    · rename_i hlt
      rw [ih]
      constructor
      · rintro ⟨j, hj, hle, hall⟩
        refine ⟨j + 1, by simpa using hj, hle, fun j' hj' e' he' => ?_⟩
        cases j' with
        | zero => simp only [List.getElem?_cons_zero, Option.some.injEq] at he'; subst he'; exact hlt
        | succ j' => exact hall j' (by omega) e' (by simpa using he')
      · rintro ⟨j, hj, hle, hall⟩
        cases j with
        | zero =>
          simp only [List.getElem?_cons_zero, Option.some.injEq] at hj
          subst hj
          exact absurd hlt (BitVec.not_lt.mpr hle)
        | succ j =>
          exact ⟨j, by simpa using hj, hle, fun j' hj' e' he' => hall (j' + 1) (by omega) e' (by simpa using he')⟩
    · rename_i hge
      constructor
      · rintro h
        cases h
        exact ⟨0, by simp, BitVec.not_lt.mp hge, fun j' hj' => absurd hj' (by omega)⟩
      · rintro ⟨j, hj, hle, hall⟩
        cases j with
        | zero => simpa using hj
        | succ j => exact absurd (hall 0 (by omega) x (by simp)) hge

theorem scanLong_eq_none {w : Word} {l : List LongEntry} : scanLong w l = none ↔ ∀ e ∈ l, w < e.thr := by
  induction l with
  | nil => simp [scanLong]
  | cons x l ih =>
    rw [scanLong]
    split
    · rename_i hlt; simp [ih, hlt]
    · rename_i hge; simp [hge]

/-- What a lookup can find (R211, R212, R213). -/
theorem Slot.lookup_cases (hb : Nat) (sl : Slot) (w : Word) :
    (∃ e, sl.hash.getD (w >>> (32 - hb)).toNat ⟨0, 0⟩ = e ∧ e.len ≠ 0 ∧ sl.lookup hb w = some (e.sym, e.len)) ∨
    ((sl.hash.getD (w >>> (32 - hb)).toNat ⟨0, 0⟩).len = 0 ∧ sl.lookup hb w = sl.scan w) := by
  unfold Slot.lookup
  by_cases h : (sl.hash.getD (w >>> (32 - hb)).toNat ⟨0, 0⟩).len = 0
  · exact .inr ⟨h, if_neg (by simpa using h)⟩
  · exact .inl ⟨_, rfl, h, if_pos h⟩

end Sys2Proof.Machine
end

