-- ==== Sys2Proof/Tests/Slice0.lean ====
section
/-! SUPPORT. Small tests: ill-formed terms, words written out from the spec's encodings, one-step vectors of
95_test_vectors.md and hand calculations, and for each obligation with hypotheses a state that meets them. -/

namespace Sys2Proof.Tests

open Sys2Proof.Machine

set_option Elab.async false

/-! ### Ill-formed terms -/

/-- 0x11C is `CPY_FF`'s symbol (R106). -/
theorem test_wf_refuses_cpyRsv_11C : (Instr.cpyRsv 0x11C).wf 16 = false := by decide

/-- 33 is `OFF_B16`'s symbol (R108). -/
theorem test_wf_refuses_offRsv_33 : (Instr.offRsv 33).wf 16 = false := by decide

/-- Length 0 is `DESC_SKIP`'s (R104). -/
theorem test_wf_refuses_descRun_length_0 : (Instr.descRun 0 5).wf 16 = false := by decide

/-- R5, R104: with `SYM_BITS` = 9 a symbol is below 512 and a count field below 16. -/
theorem test_wf_refuses_what_has_no_bits :
    (Instr.cpyRsv 512).wf 9 = false ∧ (Instr.offRsv 512).wf 9 = false ∧ (Instr.descSkip 16).wf 9 = false ∧
    (Instr.descRun 1 16).wf 9 = false ∧ (Instr.descRun 1 15).wf 9 = true := by decide

theorem test_wf_takes_the_neighbours :
    (Instr.cpyRsv 0x11D).wf 16 = true ∧ (Instr.offRsv 34).wf 16 = true ∧ (Instr.descRun 1 5).wf 16 = true := by decide

/-! ### Words written out from the encodings -/

/-- The encodings column of R96's examples and of 95_test_vectors.md section 7: opcode, `TR`, `NB`, `SYM` bit by bit. -/
theorem test_decode_commands :
    decodeCommand 0b00000000_00_000000_0000000000000000 = .ok .nop ∧
    decodeCommand 0b00000001_00_000000_0000000000000000 = .ok .curInit ∧
    decodeCommand 0b00000010_00_100000_0000000000000000 = .ok (.curNeed 32) ∧
    decodeCommand 0b00000011_00_010000_0000000000000000 = .ok (.curRead 16) ∧
    decodeCommand 0b00000100_00_010100_0000000000000000 = .ok (.curDrop 20) ∧
    decodeCommand 0b00010000_00_000000_0000000000000000 = .ok .bldClear ∧
    decodeCommand 0b00010001_00_000010_0000000001000010 = .ok (.bldAdd 2 0x42) ∧
    decodeCommand 0b00010010_01_000000_0000000000000000 = .ok (.bldBuild .sym) ∧
    decodeCommand 0b00010011_00_000000_0000000000000000 = .ok .dictInit ∧
    decodeCommand 0b00100000_10_000000_0000000000000000 = .ok (.hufRead .copy) ∧
    decodeCommand 0b00100001_01_000000_0000000000000000 = .ok (.descRead .sym) ∧
    decodeCommand 0b00110000_00_000000_0000000000000000 = .ok .datDecode ∧
    decodeCommand 0b11111111_00_000000_0000000000000000 = .ok .softReset := by decide

/-- R93, R94: an unknown opcode, an unused field that is not 0, and `TR` = 3, which decodes and is reserved (R91). -/
theorem test_decode_reserved_commands :
    decodeCommand 0x05000000 = .error .unknownOpcode ∧ decodeCommand 0x00000001 = .error .nonzeroField ∧
    decodeCommand 0x02600000 = .error .nonzeroField ∧ decodeCommand 0x20C00000 = .ok (.hufRead .rsv) := by decide

/-- The symbols of R106, bits 15:2 and bits 1:0. -/
theorem test_decode_tokens :
    decodeToken 0b00000000_01000001 = .lit 0x41 ∧ decodeToken 0b00000001_000000_01 = .cpyB0 1 ∧
    decodeToken 0b00000001_000001_10 = .cpyB1 2 ∧ decodeToken 0b00000001_000010_11 = .cpyB2 3 ∧
    decodeToken 0b00000001_000011_00 = .cpyB3 0 ∧ decodeToken 0b00000001_000100_01 = .cpyB4 1 ∧
    decodeToken 0b00000001_000101_10 = .cpyB5 2 ∧ decodeToken 0b00000001_000110_11 = .cpyB6 3 ∧
    decodeToken 0b00000001_00011100 = .cpyFF ∧ decodeToken 0b00000001_00011101 = .cpyRsv 0x11D ∧
    decodeToken 0b00000010_00000000 = .cpyRsv 0x200 := by decide

/-- The symbols of R108, bits 15:1 and bit 0. -/
theorem test_decode_offsets :
    decodeOffset 0b00000_1 = .offB0 1 ∧ decodeOffset 0b00001_0 = .offB1 0 ∧ decodeOffset 0b00010_1 = .offB2 1 ∧
    decodeOffset 0b00011_0 = .offB3 0 ∧ decodeOffset 0b00100_1 = .offB4 1 ∧ decodeOffset 0b00101_0 = .offB5 0 ∧
    decodeOffset 0b00110_1 = .offB6 1 ∧ decodeOffset 0b00111_0 = .offB7 0 ∧ decodeOffset 0b01000_1 = .offB8 1 ∧
    decodeOffset 0b01001_0 = .offB9 0 ∧ decodeOffset 0b01010_1 = .offB10 1 ∧ decodeOffset 0b01011_0 = .offB11 0 ∧
    decodeOffset 0b01100_1 = .offB12 1 ∧ decodeOffset 0b01101_0 = .offB13 0 ∧ decodeOffset 0b01110_1 = .offB14 1 ∧
    decodeOffset 0b01111_0 = .offB15 0 ∧ decodeOffset 0b10000_1 = .offB16 1 ∧ decodeOffset 34 = .offRsv 34 := by decide

/-- R104: count minus one in bits 15:5, length in bits 4:0 (the symbols of `TDICT`). -/
theorem test_decode_descs :
    decodeDesc 16 0b00000000111_00000 = .descSkip 7 ∧ decodeDesc 16 0b00000000001_00010 = .descRun 2 1 ∧
    decodeDesc 16 0b11111111111_11111 = .descRun 31 2047 := by decide

/-- R5, R104: the count field is c[`SYM_BITS` - 1 : 5], four bits with `SYM_BITS` = 9 and fifteen with 20. -/
theorem test_decode_descs_of_another_width :
    decodeDesc 9 0b1111_00010 = .descRun 2 15 ∧ decodeDesc 9 0b1_0001_00010 = .descRun 2 1 ∧
    decodeDesc 20 0b111111111111111_00001 = .descRun 1 32767 := by decide

/-- Log 3: table words take the row with the most fixed bits. -/
theorem test_decodeTableWord :
    decodeTableWord 32 0x02200000 = some (.curNeed 32) ∧ decodeTableWord 32 0x05000000 = none ∧
    decodeTableWord 16 0x0104 = some (.cpyB1 0) ∧ decodeTableWord 16 0x0021 = some (.offB16 1) ∧
    decodeTableWord 8 0x00 = some (.descSkip 0) := by decide

/-! ### States for the vectors -/

/-- `TDICT`, the stand-in dictionary of 95_test_vectors.md section 2. -/
def tdict : List (Sym × BitVec 6) := [(0xE0, 1), (0x00, 3), (0x01, 3), (0x02, 3), (0x22, 4), (0x03, 4)]

/-- The default parameters with `TDICT`. -/
def cfgT : Config := { dictTable := tdict }

/-- Reset with `TDICT`. -/
def base : State := State.resetOf cfgT

/-- Bytes from address `a` on. -/
def bytesFrom : Nat → List Byte → Memory
  | _, [] => []
  | a, b :: bs => (a, b) :: bytesFrom (a + 1) bs

/-- A state with these IN bytes, `IN_LEN` and `CTRL` = 1. -/
def withIn (s : State) (bs : List Byte) : State :=
  ((s.withInMem (bytesFrom 0 bs)).withInLen (BitVec.ofNat 32 bs.length)).withPresent true false

/-- The state an instruction leaves. -/
def after (i : Instr) (s : State) : State :=
  match exec i s with
  | .next t => t
  | _ => s

/-- The state a step leaves. -/
def afterStep (s : State) : State :=
  match step s with
  | .next t => t
  | _ => s

/-- IN of program PA. -/
def inPA : List Byte := [0xef, 0xbe, 0xad, 0xde, 0x78, 0x56, 0x34, 0x12, 0xf0, 0xde, 0xbc, 0x9a]

/-- A state of program PA with a cursor in the middle of the stream. -/
def pa (head buf : Word) (bits : BitVec 6) (pos : Word) : State :=
  (withIn base inPA).withCur ⟨head, buf, bits, pos, 3, false⟩

/-- A builder with symbols added in order. -/
def built (l : List (Sym × BitVec 6)) : Builder :=
  match (Builder.reset cfgT).addAll cfgT l with
  | .ok b => b
  | .error _ => Builder.reset cfgT

/-- The slot built from symbols added in order. -/
def slotOf (l : List (Sym × BitVec 6)) : Slot := ((built l).build cfgT).getD (Slot.reset cfgT)

/-- `base` with the dictionary built. -/
def dictBase : State := after .dictInit base

/-- A cursor whose window starts with a word and has 32 valid bits, the input exhausted. -/
def at32 (w : Word) : Cursor := ⟨w, 0, 32, 0, 0, true⟩

/-! ### One-step vectors -/

/-- PA step 1. -/
theorem test_curInit : (after .curInit (withIn base inPA)).cur = ⟨0, 0, 0, 0, 3, false⟩ := by decide +kernel

/-- P15, R141: no input memory. -/
theorem test_curInit_without_input : (after .curInit base).err = some .invalidInput := by decide +kernel

/-- PA step 5. -/
theorem test_curNeed_pulls :
    (after (.curNeed 16) (pa 0xeef00000 0 12 1)).cur = ⟨0xeef12345, 0x67800000, 44, 2, 3, false⟩ := by decide +kernel

/-- PA steps 10 and 13: the tolerated pull, and the next. -/
theorem test_curNeed_past_the_end :
    (after (.curNeed 32) (pa 0xabcdef00 0 28 3)).cur = ⟨0xabcdef00, 0, 60, 4, 3, true⟩ ∧
    (after (.curNeed 32) ((pa 0 0 29 4).withCur ⟨0, 0, 29, 4, 3, true⟩)).err = some .truncated := by decide +kernel

/-- PA step 6. -/
theorem test_curRead : (after (.curRead 16) (pa 0xeef12345 0x67800000 44 2)).result = 0xEEF1 := by decide +kernel

/-- PA step 7. -/
theorem test_curDrop :
    (after (.curDrop 16) (pa 0xeef12345 0x67800000 44 2)).cur = ⟨0x23456780, 0, 28, 2, 3, false⟩ := by decide +kernel

/-- CV4, its last sentence: with the default stride word 0x3FFF is skipped (R146). -/
theorem test_pull_skips :
    (after (.curNeed 1) ((base.withInMem (bytesFrom 0x10000 [1, 2, 3, 4])).withCur
      ⟨0, 0, 0, 0x3FFF, 0x4002, false⟩)).cur = ⟨0x04030201, 0, 32, 0x4001, 0x4002, false⟩ := by decide +kernel

/-- PB steps 2 to 4: insertion at the head of a bucket (R171, R42). -/
theorem test_bldAdd_order :
    (after (.bldAdd 2 0x43) (base.withBld (built [(0x41, 1), (0x42, 2)]))).bld.bucket cfgT 2 = [0x43, 0x42] := by
  decide +kernel

/-- PE step 1, and a symbol added twice (R171). -/
theorem test_bldAdd_refuses :
    (after (.bldAdd 0 0x41) base).err = some .invalidInput ∧
    (after (.bldAdd 3 0x41) (base.withBld (built [(0x41, 1)]))).err = some .invalidInput := by decide +kernel

theorem test_bldClear : (after .bldClear (base.withBld (built [(0x41, 1)]))).bld = Builder.reset cfgT := by
  decide +kernel

/-- PB step 5: the codes 0, 10, 11 and their hash ranges (HV1). -/
theorem test_bldBuild :
    let s := after (.bldBuild .sym) (base.withBld (built [(0x41, 1), (0x42, 2), (0x43, 2)]))
    s.sym.hash[0x7F]? = some ⟨0x41, 1⟩ ∧ s.sym.hash[0x80]? = some ⟨0x42, 2⟩ ∧ s.sym.hash[0xC0]? = some ⟨0x43, 2⟩ ∧
    statusWord s = 0xA0 := by decide +kernel

/-- PE step 5, and three codes of one bit (R175). -/
theorem test_bldBuild_refuses :
    (after (.bldBuild .dict) base).err = some .invalidInput ∧
    (after (.bldBuild .copy) (base.withBld (built [(1, 1), (2, 1), (3, 1)]))).err = some .corrupt := by decide +kernel

/-- Section 2: the hash table of `TDICT`; PC step 1's `STATUS`. -/
theorem test_dictInit :
    dictBase.dict.hash[0x7F]? = some ⟨0xE0, 1⟩ ∧ dictBase.dict.hash[0x9F]? = some ⟨0, 3⟩ ∧
    dictBase.dict.hash[0xA0]? = some ⟨1, 3⟩ ∧ dictBase.dict.hash[0xDF]? = some ⟨2, 3⟩ ∧
    dictBase.dict.hash[0xEF]? = some ⟨0x22, 4⟩ ∧ dictBase.dict.hash[0xF0]? = some ⟨3, 4⟩ ∧
    dictBase.dict.long = [] ∧ statusWord dictBase = 0xD0 := by decide +kernel

/-- PB step 8. -/
theorem test_hufRead :
    let s := after (.hufRead .sym) (((withIn base [0, 0, 0, 0x58]).withSym (slotOf [(0x41, 1), (0x42, 2), (0x43, 2)])).withCur
      ⟨0xb0000000, 0, 31, 1, 1, false⟩)
    s.result = 0x42 ∧ s.cur = ⟨0xc0000000, 0, 61, 2, 1, true⟩ := by decide +kernel

/-- PE step 7, and PB step 11. -/
theorem test_hufRead_refuses :
    (after (.hufRead .rsv) base).err = some .invalidInput ∧ (after (.hufRead .rsv) base).cur = base.cur ∧
    (after (.hufRead .copy) base).err = some .corrupt := by decide +kernel

/-- PC step 3. -/
theorem test_descRead :
    let s := after (.descRead .sym) ((withIn dictBase [0x00, 0xbc, 0x03, 0x00]).withCur ⟨0, 0, 0, 0, 1, false⟩)
    statusWord s = 0x98 ∧ s.result = 3 ∧ s.cur.pos = 2 ∧ s.cur.bits = 41 ∧
    s.sym.hash[0x7F]? = some ⟨2, 1⟩ ∧ s.sym.hash[0x80]? = some ⟨1, 2⟩ ∧ s.sym.hash[0xC0]? = some ⟨0, 2⟩ := by
  decide +kernel

/-- R221, R223: rem after a skip of 8, and a description of too many symbols. -/
theorem test_descSkip : (after (.descSkip 7) (setRem 20 base)).dec.descRem = 12 := by decide +kernel

/-- DV1's second code: two symbols of length 2, in descending order (R220). -/
theorem test_descRun :
    (after (.descRun 2 1) (setRem 1 base)).bld.bucket cfgT 2 = [0, 1] ∧
    (after (.descRun 2 1) (setRem 0 base)).err = some .corrupt := by decide +kernel

/-- IN of P2 and PD. -/
def inP2 : List Byte :=
  [0x0d, 0xf0, 0xfe, 0xca, 0x07, 0x00, 0x00, 0x00, 0xa0, 0x05, 0x01, 0x00, 0x80, 0x13, 0x00, 0x00, 0x81, 0x15, 0x00,
   0x20, 0x00, 0x00, 0x00, 0xc8]

/-- PD: "ABABABA". -/
theorem test_datDecode :
    let s := after .datDecode (withIn base inP2)
    s.outMem = bytesFrom 0 [0x41, 0x42, 0x41, 0x42, 0x41, 0x42, 0x41] ∧ s.outSize = 7 ∧ s.result = 7 ∧
    statusWord s = 0x18 ∧ s.cur.pos = 7 ∧ s.cur.bits = 59 := by decide +kernel

/-- P12. -/
theorem test_datDecode_refuses :
    (after .datDecode ((withIn base inP2).withPresent true true)).err = some .invalidInput := by decide +kernel

/-- PA step 15. -/
theorem test_softReset :
    after .softReset ((withIn base inPA).withErr (some .truncated)) = base.withInMem (bytesFrom 0 inPA) := by
  decide +kernel

theorem test_nop : after .nop (withIn base inPA) = withIn base inPA := by decide +kernel

/-! #### Symbols: hand calculations from R106 and R108 with every extra bit 1 -/

/-- Every extra bit 1. -/
def ones : State := base.withCur (at32 0xFFFFFFFF)

/-- R251: r = 3 and all extra bits 1 give 2^(q+2) - 1 from q = 1 on. -/
theorem test_copy_sizes :
    (after (.cpyB0 3) ones).dec.copySize = 3 ∧ (after (.cpyB1 3) ones).dec.copySize = 7 ∧
    (after (.cpyB2 3) ones).dec.copySize = 15 ∧ (after (.cpyB3 3) ones).dec.copySize = 31 ∧
    (after (.cpyB4 3) ones).dec.copySize = 63 ∧ (after (.cpyB5 3) ones).dec.copySize = 127 ∧
    (after (.cpyB6 3) ones).dec.copySize = 255 ∧ (after (.cpyB6 3) ones).cur.bits = 27 := by decide +kernel

/-- P3: symbol 0x108, extra bit 1, `CONSTADD` = 3: size 12; and `CPY_FF` with it. -/
theorem test_const_add :
    (after (.cpyB2 0) (ones.withDec { ones.dec with constAdd := 3 })).dec.copySize = 12 ∧
    (after .cpyFF (ones.withDec { ones.dec with constAdd := 3 })).dec.copySize = 258 := by decide +kernel

theorem test_cpyRsv : (after (.cpyRsv 0x11D) ones).err = some .corrupt := by decide +kernel

/-- A copy of no bytes with the output at `n`: only the range check of R254 is left. -/
def outAt (n : Nat) : State := ones.withDec { ones.dec with outPos := BitVec.ofNat 32 n }

/-- Whether an offset symbol passes at `n` bytes of output and fails at one less (R254). -/
def offsetIs (i : Instr) (n : Nat) : Bool :=
  decide ((after i (outAt n)).err = none) && decide ((after i (outAt (n - 1))).err = some .corrupt)

/-- R253: r2 = 1 and all extra bits 1 give offset 2^(q2+1), from q2 = 0 on. -/
theorem test_offsets :
    offsetIs (.offB0 1) 2 ∧ offsetIs (.offB1 1) 4 ∧ offsetIs (.offB2 1) 8 ∧ offsetIs (.offB3 1) 16 ∧
    offsetIs (.offB4 1) 32 ∧ offsetIs (.offB5 1) 64 ∧ offsetIs (.offB6 1) 128 ∧ offsetIs (.offB7 1) 256 ∧
    offsetIs (.offB8 1) 512 ∧ offsetIs (.offB9 1) 1024 ∧ offsetIs (.offB10 1) 2048 ∧ offsetIs (.offB11 1) 4096 ∧
    offsetIs (.offB12 1) 8192 ∧ offsetIs (.offB13 1) 16384 ∧ offsetIs (.offB14 1) 32768 ∧
    offsetIs (.offB15 1) 65536 ∧ offsetIs (.offB16 1) 131072 := by decide +kernel

/-- A machine with a bucket 17, every extra bit 0, and n bytes produced. -/
def bucket17 (n : Nat) : State :=
  let s := State.resetOf { cfgT with offsetMaxBucket := 17 }
  (s.withCur (at32 0)).withDec { s.dec with outPos := BitVec.ofNat 32 n }

/-- Reserved at the default parameters (R108); with `OFFSET_MAX_BUCKET` = 17 the symbols 34 and 35 are bucket 17: offset
2^16 * 2 + 1 with every extra bit 0 (R253, log 8). -/
theorem test_offRsv :
    (after (.offRsv 34) ones).err = some .corrupt ∧
    ((after (.offRsv 34) (bucket17 131073)).err = none ∧ (after (.offRsv 34) (bucket17 131073)).cur.bits = 16 ∧
    (after (.offRsv 34) (bucket17 131072)).err = some .corrupt ∧
    (after (.offRsv 36) (bucket17 131073)).err = some .corrupt) := by decide +kernel

/-- "ab" written, four bytes to copy, ten in all. -/
def outAB : State :=
  (ones.withOutMem [(0, 0x61), (1, 0x62)]).withDec { ones.dec with outPos := 2, eff := 10, copySize := 4 }

/-- P5: t = 1 (off 2) after "ab" makes "ababab" (R255). -/
theorem test_copy_overlaps :
    (after (.offB0 1) outAB).outMem = bytesFrom 0 [0x61, 0x62, 0x61, 0x62, 0x61, 0x62] ∧
    (after (.offB0 1) outAB).dec.outPos = 6 := by decide +kernel

/-- P3 with a cap: the copy is cut at `EFF` (R255). -/
theorem test_copy_is_cut :
    (after (.offB0 0) (outAB.withDec { outAB.dec with eff := 3 })).outMem = bytesFrom 0 [0x61, 0x62, 0x62] := by
  decide +kernel

theorem test_literal :
    (after (.lit 0x63) outAB).outMem = bytesFrom 0 [0x61, 0x62, 0x63] ∧ (after (.lit 0x63) outAB).dec.outPos = 3 := by
  decide +kernel

/-! #### The host's side -/

/-- R94, R294: a command reaches the machine through `CMD`, and in the stop state is ignored. -/
theorem test_step_runs_a_command :
    (afterStep ((pa 0xdeadbeef 0 32 1).withFetchWord 32 0x03200000)).result = 0xDEADBEEF ∧
    (afterStep (((pa 0xdeadbeef 0 32 1).withErr (some .corrupt)).withFetchWord 32 0x03200000)).result = 0 := by
  decide +kernel

/-- R26, R27, R24: a write to `CTRL` keeps bits 1:0; reset's `STATUS` is 0xE0. -/
theorem test_step_registers :
    (afterStep (base.withInputs [.regWrite 0x10 0xFFFFFFFE])).outPresent = true ∧
    (afterStep (base.withInputs [.regWrite 0x10 0xFFFFFFFE])).inPresent = false ∧
    (afterStep (base.withInputs [.regRead 0x04])).hostData = 0xE0 := by decide +kernel

/-! ### Witnesses: for each obligation with hypotheses, a state and operands that meet them -/

theorem exec_after (i : Instr) (s : State) : exec i s = .next (after i s) := by
  obtain ⟨t, h⟩ := exec_answers_next i s
  rw [after, h]

/-- Whether a step answers a next state. -/
def goesOn (s : State) : Bool :=
  match step s with
  | .next _ => true
  | _ => false

theorem step_after {s : State} (h : goesOn s = true) : step s = .next (afterStep s) := by
  unfold goesOn at h
  unfold afterStep
  split at h
  · rw [‹step s = _›]
  · cases h

/-- A state in the stop state with one input. -/
def stopped (i : Input) : State := (base.withErr (some .corrupt)).withInputs [i]

theorem test_witness_NopAndReset :
    (base.withInputs [.hardReset]).inputs = .hardReset :: [] ∧
    (stopped (.regWrite 0 0xFF000000)).inputs = .regWrite 0 0xFF000000 :: [] := ⟨rfl, rfl⟩

theorem test_witness_StepRunsDecodedInstruction :
    ((base.withInputs [.regWrite 0 0x01000000]).inputs = .regWrite 0 0x01000000 :: [] ∧
      (base.withInputs [.regWrite 0 0x01000000]).err = none ∧ decodeCommand 0x01000000 = .ok .curInit) ∧
    ((stopped (.regWrite 0 0xFF000000)).err = some .corrupt ∧ decodeCommand 0xFF000000 = .ok .softReset) ∧
    ((base.withInputs [.element (.token 0x41)]).inputs = .element (.token 0x41) :: [] ∧
      decodeElement base.cfg.symBits (.token 0x41) = .lit 0x41) := by decide

theorem test_witness_ReservedWordRaisesOnly :
    (base.withInputs [.regWrite 0 0x05000000]).inputs = .regWrite 0 0x05000000 :: [] ∧
    (∀ r ∈ commandRows, (0x05000000 : Word) &&& r.mask ≠ r.pat) ∧
    ∀ r ∈ commandRows, (0x00000001 : Word) &&& r.mask ≠ r.pat := by decide

theorem test_witness_StopStateIgnoresCommands :
    (stopped (.regWrite 0 0)).err ≠ none ∧ (stopped (.regWrite 0 0)).inputs = .regWrite 0 0 :: [] ∧
    (0 : Word) ≠ 0xFF000000 ∧ (stopped (.regWrite 4 1)).inputs = .regWrite 4 1 :: [] ∧
    (stopped (.regRead 4)).inputs = .regRead 4 :: [] := by decide

theorem test_witness_OnlyResetLeavesStopState :
    step (stopped (.regWrite 0 0xFF000000)) = .next (afterStep (stopped (.regWrite 0 0xFF000000))) ∧
    (stopped (.regWrite 0 0xFF000000)).err ≠ none ∧
    (afterStep (stopped (.regWrite 0 0xFF000000))).err = none := ⟨step_after (by decide +kernel), by decide, by decide +kernel⟩

theorem test_witness_RegisterReads :
    (base.withInputs [.regRead 0x24]).inputs = .regRead 0x24 :: [] ∧
    (0x28 : Word) ∉ ([0x04, 0x08, 0x0C, 0x10, 0x14, 0x18, 0x1C, 0x20, 0x24] : List Word) := by decide

theorem test_witness_RegisterWrites :
    (base.withInputs [.regWrite 0x0C 7]).inputs = .regWrite 0x0C 7 :: [] ∧ (0x0C : Word) ≠ 0 := by decide

theorem test_witness_RaiseKeepsDefinedState : (base.withPresent true true).outPresent = true := rfl

theorem test_witness_FailedInstructionKeepsHostRegisters :
    exec (.curNeed 33) base = .next (after (.curNeed 33) base) ∧ base.err = none ∧
    (after (.curNeed 33) base).err ≠ none := ⟨exec_after _ _, rfl, by decide +kernel⟩

theorem test_witness_InputSideIsReadOnly :
    exec .bldClear base = .next (after .bldClear base) ∧ Instr.bldClear ≠ .softReset := ⟨exec_after _ _, by decide⟩

theorem test_witness_ResultWrittenOnlyByItsCommands :
    exec .dictInit base = .next (after .dictInit base) ∧ Instr.dictInit ≠ .softReset ∧
    (∀ nb, Instr.dictInit ≠ .curRead nb) ∧ (∀ tr, Instr.dictInit ≠ .hufRead tr) ∧
    (∀ tr, Instr.dictInit ≠ .descRead tr) ∧ Instr.dictInit ≠ .datDecode :=
  ⟨exec_after _ _, by decide, (fun _ h => nomatch h), (fun _ h => nomatch h), (fun _ h => nomatch h), by decide⟩

theorem test_witness_CommandsStoreNothing :
    exec (.cpyB2 3) ones = .next (after (.cpyB2 3) ones) ∧ (after (.cpyB2 3) ones).err = none ∧
    Instr.cpyB2 3 ≠ .datDecode ∧ (∀ b, Instr.cpyB2 3 ≠ .lit b) ∧ ∀ x, encode (.cpyB2 3) ≠ .element (.offset x) :=
  ⟨exec_after _ _, by decide +kernel, by decide, (fun _ h => nomatch h), (fun _ h => nomatch h)⟩

/-- A state in which every command can complete: the dictionary built, all three trees, a zero window of 60 bits. -/
def ready : State :=
  ((((dictBase.withSym (slotOf [(0x41, 1), (0x42, 1)])).withCopy (slotOf [(1, 1)])).withCur
    ⟨0, 0, 60, 0, 0, true⟩).withBld (built [(0x41, 1), (0x42, 1)])).withPresent true false

theorem test_witness_CommandFrames :
    (after (.curNeed 32) ready).err = none ∧ (after (.curDrop 32) ready).err = none ∧
    (after (.curRead 32) ready).err = none ∧ (after .bldClear ready).err = none ∧
    (after (.bldAdd 3 0x43) ready).err = none ∧ (after (.bldBuild .sym) ready).err = none ∧
    (after (.bldBuild .copy) ready).err = none ∧ (after .dictInit ready).err = none ∧
    (after (.hufRead .sym) ready).err = none ∧ (after (.hufRead .copy) (ready.withCur (at32 0x80000000))).err = none ∧
    (after (.hufRead .dict) ready).err = none ∧ (after (.descRead .sym) ready).err = none ∧
    (after (.descRead .copy) ready).err = none ∧ (after (.descRun 2 1) (setRem 1 base)).err = none ∧
    (after .datDecode (withIn base inP2)).err = none := by decide +kernel

theorem test_witness_DecodeOfEncode : (Instr.descRun 31 2047).wf 16 = true ∧ (Instr.descRun 31 15).wf 9 = true ∧ 9 ≤ 9 := by decide

theorem test_witness_EncodeOfDecode : decode 9 (.element (.token 0x11D)) = .ok (.cpyRsv 0x11D) ∧ (StreamSymbol.token 0x11D).fits 9 = true := by decide

theorem test_witness_InputWordsAreLittleEndian :
    4 * 2 + 3 < 2 ^ 32 ∧ (bytesFrom 0 inPA).read? (4 * 2) = some 0xf0 ∧ (bytesFrom 0 inPA).read? (4 * 2 + 1) = some 0xde ∧
    (bytesFrom 0 inPA).read? (4 * 2 + 2) = some 0xbc ∧ (bytesFrom 0 inPA).read? (4 * 2 + 3) = some 0x9a := by decide

theorem test_witness_CurInitStartsStream : (withIn base inPA).inPresent = true ∧ base.inPresent = false := ⟨rfl, rfl⟩

theorem test_witness_CurNeedWithEnoughBits :
    (32#6).toNat ≤ 32 ∧ (32#6).toNat ≤ ones.cur.bits.toNat ∧ 32 < (33#6).toNat := by decide

/-- The first pull, and one whose index falls on a skipped word. -/
theorem test_witness_CurNeedPullsOneWord :
    ((32#6).toNat ≤ 32 ∧ (pa 0 0 31 0).cur.bits.toNat < (32#6).toNat ∧ skipIndex cfgT 0 = 0 ∧ 0 < 3) ∧
    skipIndex cfgT 0x3FFF = 0x4000 := by decide

theorem test_witness_OneToleratedPull :
    (1#6).toNat ≤ 32 ∧ (pa 0 0 0 3).cur.bits.toNat < (1#6).toNat ∧
    (3 = if ((pa 0 0 0 3).cur.pos.toNat + 1) % (pa 0 0 0 3).cfg.skipStride = 0 then (pa 0 0 0 3).cur.pos.toNat + 1
      else (pa 0 0 0 3).cur.pos.toNat) ∧
    (pa 0 0 0 3).cur.limit.toNat ≤ 3 ∧ (pa 0 0 0 3).cur.exh = false ∧
    ((pa 0 0 0 3).withCur ⟨0, 0, 0, 3, 3, true⟩).cur.exh = true := by decide

theorem test_witness_CurReadPeeksTopBits : (32#6).toNat ≤ 32 ∧ (0#6).toNat ≤ 32 ∧ 32 < (33#6).toNat := by decide

theorem test_witness_CurDropShiftsWindow :
    ((32#6).toNat ≤ 32 ∧ (32#6).toNat ≤ ones.cur.bits.toNat) ∧ 32 < (33#6).toNat ∧
    base.cur.bits.toNat < (1#6).toNat := by decide

theorem test_witness_ReadDropReadSplitsWord : (13#6).toNat ≤ 32 ∧ 32 ≤ ones.cur.bits.toNat := by decide

theorem test_witness_CursorDeliversTheStream :
    (pa 0xeef00000 0 12 1).cur.zeroFilled ∧ (pa 0xeef00000 0 12 1).cur.pos.toNat + 2 < 2 ^ 32 ∧
    (pa 0xeef00000 0 12 1).cur.need cfgT (bytesFrom 0 inPA) 16 = .ok ⟨0xeef12345, 0x67800000, 44, 2, 3, false⟩ ∧
    (pa 0xeef00000 0 12 1).cur.drop 12 = .ok ⟨0, 0, 0, 1, 3, false⟩ ∧
    (pa 0xeef00000 0 12 1).cur.read 12 = .ok 0xeef := by
  unfold Cursor.zeroFilled
  decide

theorem test_witness_BldAddInsertsAtHead :
    (base.bld.shaped base.cfg ∧ 1 ≤ (1#6).toNat ∧ (32#6).toNat ≤ 32 ∧ 284 = (284#16).toNat ∧ 284 < base.cfg.maxSymbols ∧
      base.bld.present 284 = false) ∧
    (0#6).toNat = 0 ∧ 32 < (33#6).toNat ∧ base.cfg.maxSymbols ≤ 285 ∧
    (built [(0x41, 1)]).present 0x41 = true := by
  unfold Builder.shaped
  decide +kernel

/-- An empty builder has empty, hence disjoint, buckets. -/
theorem base_linked : base.bld.linked base.cfg := by
  have h (len : Nat) : base.bld.bucket base.cfg len = [] := by
    have : base.bld.valid len = false := by
      simp [base, State.resetOf, Builder.reset, Builder.valid, List.getD_eq_getElem?_getD, List.getElem?_replicate]
      split <;> rfl
    simp [Builder.bucket, this]
  refine ⟨fun len _ _ => ?_, fun l₁ l₂ _ _ _ _ _ => ?_⟩ <;> simp [h]

theorem base_shaped : base.bld.shaped base.cfg := by
  unfold Builder.shaped
  decide +kernel

theorem test_witness_BucketListIsInsertionReversed :
    base.bld.shaped base.cfg ∧ base.bld.linked base.cfg ∧
    base.bld.add base.cfg 284 32 = .ok (base.bld.insert 284 32) :=
  ⟨base_shaped, base_linked, by decide +kernel⟩

/-- Two codes of one bit fill the code space; a third passes it. -/
theorem test_witness_BldBuildCompletesWithinCodeSpace :
    (base.withBld (built [(1, 1), (2, 1)])).bld.kraft cfgT = 2 ^ 32 ∧
    2 ^ 32 < (base.withBld (built [(1, 1), (2, 1), (3, 32)])).bld.kraft cfgT := by decide +kernel

theorem test_witness_TreeSelectorChecks : base.err = none := rfl

theorem test_witness_BuildOfNoSymbolsIsEmpty : ∀ len < 33, 1 ≤ len → base.bld.valid len = false := by decide +kernel

/-- HV3 of section 4: long codes, up to a full code space. -/
def hv3 : List (Sym × BitVec 6) :=
  [(0, 1), (1, 2), (2, 3), (3, 4), (4, 5), (5, 6), (6, 7), (7, 8), (8, 9), (9, 10), (10, 10)]

/-- HV3's tree in `SYM` and a window. -/
def hvState (w : Word) : State := (base.withSym (slotOf hv3)).withCur (at32 w)

/-- The groups of HV3, shortest last. -/
def hvGroups : List Group :=
  [⟨10, 0x3FE, [9, 10]⟩, ⟨9, 0x1FE, [8]⟩, ⟨8, 0xFE, [7]⟩, ⟨7, 0x7E, [6]⟩, ⟨6, 0x3E, [5]⟩, ⟨5, 0x1E, [4]⟩,
   ⟨4, 0xE, [3]⟩, ⟨3, 6, [2]⟩, ⟨2, 2, [1]⟩, ⟨1, 0, [0]⟩]

theorem test_witness_AssignedCodesAreCanonicalPrefixFree : (built hv3).assign cfgT = some hvGroups := by
  decide +kernel

theorem test_witness_DictInitBuildsOnce :
    dictBase.dictValid = true ∧
    (base.dictValid = false ∧ (Builder.reset base.cfg).addAll base.cfg base.cfg.dictTable = .ok (built tdict) ∧
      (built tdict).build base.cfg = some (slotOf tdict)) ∧
    dictTables { dictTable := [(1, 1), (1, 2)] } = .error .invalidInput ∧
    dictTables { dictTable := [(1, 1), (2, 1), (3, 1)] } = .error .corrupt := by decide +kernel

theorem test_witness_FirstUseBuildsDictionary :
    exec .dictInit base = .next dictBase ∧ dictBase.dictValid = true ∧ dictBase.err = base.err ∧
    (withIn base inP2).inPresent = true ∧ (withIn base inP2).outPresent = false :=
  ⟨exec_after _ _, by decide +kernel, by decide +kernel, rfl, rfl⟩

theorem test_witness_DictionaryIsFrozen :
    step (ready.withInputs [.regWrite 0 0x10000000]) = .next (afterStep (ready.withInputs [.regWrite 0 0x10000000])) ∧
    ready.err = none ∧ (afterStep (ready.withInputs [.regWrite 0 0x10000000])).err = none ∧
    ready.dictValid = true := ⟨step_after (by decide +kernel), by decide +kernel, by decide +kernel, by decide +kernel⟩

theorem test_witness_HufReadHashHit :
    operandTR .sym = some .sym ∧ (ready.slot .sym).empty = false ∧
    ready.cur.need ready.cfg ready.inMem 32 = .ok ready.cur ∧
    (ready.slot .sym).hash[ready.cur.head.toNat / 2 ^ (32 - ready.cfg.hashBits)]? = some ⟨0x41, 1⟩ := by
  decide +kernel

/-- HV3, window 0xFF000000: the hash misses, the first threshold is passed over, the second decides. -/
theorem test_witness_HufReadLongCode :
    let s := hvState 0xFF000000
    (s.slot .sym).empty = false ∧ s.cur.need s.cfg s.inMem 32 = .ok s.cur ∧
    ((s.slot .sym).hash.getD (s.cur.head.toNat / 2 ^ (32 - s.cfg.hashBits)) ⟨0, 0⟩).len = 0 ∧
    (s.slot .sym).long = [⟨0xFF800000, 10, 0, 2⟩, ⟨0xFF000000, 9, 2, 1⟩] ∧ s.cur.head < 0xFF800000 ∧
    (0xFF000000 : Word) ≤ s.cur.head ∧ 0 = (s.cur.head.toNat - 0xFF000000) / 2 ^ (32 - 9) ∧
    (s.slot .sym).symArr[2 + 0]? = some 8 ∧ (after (.hufRead .sym) s).result = 8 := by decide +kernel

/-- HV0; HV1 with a window no code begins; and a slot of one 9-bit code, with a window past it. -/
theorem test_witness_HufReadNoCodeIsCorrupt :
    (base.slot .sym).empty = true ∧
    (let s := (base.withSym (slotOf [(0x41, 1)])).withCur (at32 0)
     (s.slot .sym).empty = false ∧ s.cur.need s.cfg s.inMem 32 = .ok s.cur ∧
     ((s.slot .sym).hash.getD 0 ⟨0, 0⟩).len = 0 ∧ (s.slot .sym).long = []) ∧
    (let s := (base.withCopy { slotOf [(5, 9)] with long := [⟨0x10000000, 9, 0, 1⟩] }).withCur (at32 0x20000000)
     (s.slot .copy).empty = false ∧ ((s.slot .copy).hash.getD 0x20 ⟨0, 0⟩).len = 0 ∧
     (0x10000000 : Word) ≤ s.cur.head ∧ 1 ≤ (s.cur.head.toNat - 0x10000000) / 2 ^ (32 - 9)) := by decide +kernel

theorem test_witness_BuiltTreeDecodesItsCodes :
    cfgT.wf ∧ (built hv3).assign cfgT = some hvGroups ∧
    (built hv3).build cfgT = some ((hvState 0xFFFFFFFF).slot .sym) ∧ ((hvState 0xFFFFFFFF).slot .sym).empty = false ∧
    (hvState 0xFFFFFFFF).cur.need cfgT [] 32 = .ok (at32 0xFFFFFFFF) ∧
    (⟨10, 0x3FE, [9, 10]⟩ : Group) ∈ hvGroups ∧ ([9, 10] : List Sym)[1]? = some 10 ∧
    Begins 0xFFFFFFFF 10 (0x3FE + 1) := by
  unfold Begins
  decide +kernel

/-- HV1: the one code is 1, and no code begins a window of zeros. -/
theorem test_witness_BuiltTree_no_code :
    (built [(0x41, 1)]).assign cfgT = some [⟨1, 1, [0x41]⟩] ∧ ¬ Begins 0 1 (1 + 0) := by
  unfold Begins
  decide +kernel

theorem test_witness_DescReadEndMarker :
    operandTR .copy = some .copy ∧ SlotId.copy ≠ .dict ∧ ready.dictValid = true ∧
    ready.cur.need ready.cfg ready.inMem 16 = .ok ready.cur ∧ ready.cur.head.toNat / 2 ^ 16 = 0 := by decide +kernel

/-- N = 286 is the first N that is too large. -/
theorem test_witness_DescReadTooManySymbols :
    (ready.withCur (at32 0x011E0000)).cur.need cfgT [] 16 = .ok (at32 0x011E0000) ∧
    ready.cfg.maxSymbols < (at32 0x011E0000).head.toNat / 2 ^ 16 ∧
    ¬ ready.cfg.maxSymbols < (at32 0x011D0000).head.toNat / 2 ^ 16 := by decide +kernel

/-- `ready` with a window of 60 valid bits. -/
def reading (w : Word) : State := ready.withCur ⟨w, 0, 60, 0, 0, true⟩

/-- DV1's bits: N = 3, then `101` (a length of 1 for symbol 2) and `1110` (a length of 2 for symbols 1 and 0). -/
theorem test_witness_DescReadBuildsDescription :
    ReadsCodes (reading 0x0003bc00) ((reading 0x0003bc00).cur.dropped 16) ([0x01] ++ [0x22]) ⟨0, 0, 37, 0, 0, true⟩ ∧
    (reading 0x0003bc00).dictValid = true ∧ (reading 0x0003bc00).dict.empty = false ∧
    (reading 0x0003bc00).cur.need cfgT [] 16 = .ok (reading 0x0003bc00).cur ∧
    3 = (reading 0x0003bc00).cur.head.toNat / 2 ^ 16 ∧ 3 ≤ cfgT.maxSymbols ∧
    (descLengths 16 [0x01]).length < 3 ∧ [1, 2, 2] = descLengths 16 ([0x01] ++ [0x22]) ∧
    ((describedBuilder cfgT 3 [1, 2, 2]).build cfgT).isSome = true ∧
    (after (.descRead .sym) (reading 0x0003bc00)).cur = ⟨0, 0, 37, 0, 0, true⟩ := by
  refine ⟨⟨(reading 0x0003bc00).cur.dropped 16, 3, ?_, ?_, by decide,
    ((reading 0x0003bc00).cur.dropped 16).dropped 3, 4, ?_, ?_, by decide,
    show (⟨0, 0, 37, 0, 0, true⟩ : Cursor) = _ from ?_⟩, ?_⟩ <;> decide +kernel

/-- The other cases of the same statement: two skips of 8 for N = 9 (the second passes symbol 0), a run of two for one
symbol (DV2), and three codes of one bit (DV6), which pass the code space. -/
theorem test_witness_DescRead_other_ends :
    ReadsCodes (reading 0x00090000) ((reading 0x00090000).cur.dropped 16) ([0xE0] ++ [0xE0]) ⟨0, 0, 42, 0, 0, true⟩ ∧
    (descLengths 16 [0xE0]).length < 9 ∧ 9 ≤ (descLengths 16 [0xE0, 0xE0]).length ∧
    (after (.descRead .sym) (reading 0x00090000)).sym.empty = true ∧
    ReadsCodes (reading 0x0001e000) ((reading 0x0001e000).cur.dropped 16) ([] ++ [0x22]) ⟨0, 0, 40, 0, 0, true⟩ ∧
    (descLengths 16 [0x22]).length = 2 ∧ (after (.descRead .sym) (reading 0x0001e000)).err = some .corrupt ∧
    (describedBuilder cfgT 3 (descLengths 16 [1, 1, 1])).build cfgT = none ∧
    (after (.descRead .copy) (reading 0x0003b680)).err = some .corrupt := by
  refine ⟨⟨(reading 0x00090000).cur.dropped 16, 1, ?_, ?_, by decide,
    ((reading 0x00090000).cur.dropped 16).dropped 1, 1, ?_, ?_, by decide,
    show (⟨0, 0, 42, 0, 0, true⟩ : Cursor) = _ from ?_⟩, ?_, ?_, ?_,
    ⟨(reading 0x0001e000).cur.dropped 16, 4, ?_, ?_, by decide,
    show (⟨0, 0, 40, 0, 0, true⟩ : Cursor) = _ from ?_⟩, ?_⟩ <;> decide +kernel

/-- A run of two symbols with rem = 1, the last that fits, and with rem = 0. -/
theorem test_witness_DescRunAssignsLengths :
    (2#5) ≠ 0 ∧ (setRem 1 base).dec.descRem < base.cfg.maxSymbols ∧
    (∀ j < 2, base.bld.present j = false) ∧ ((1 : Nat) : Int) ≤ (setRem 1 base).dec.descRem ∧
    (setRem 0 base).dec.descRem < ((1 : Nat) : Int) ∧ (setRem 0 base).err = none := by decide +kernel

/-- Eight bytes of output are left. -/
theorem test_witness_LiteralWritesOneByte : outAB.dec.outPos < outAB.dec.eff := by decide

/-- R258: with the output full a lone literal writes nothing (log 22). -/
theorem test_literal_when_full :
    after (.lit 0x63) (outAB.withDec { outAB.dec with eff := 2 }) = outAB.withDec { outAB.dec with eff := 2 } := by
  decide +kernel

/-- A symbol of `SYM_BITS` bits, and one for a wider machine. -/
theorem test_witness_LoopsRunTheirElements : 0xFFFF < 2 ^ base.cfg.symBits ∧ 0x10000 < 2 ^ 17 := by decide

/-- Five extra bits from a window of ones. -/
theorem test_witness_CopySymbolsGiveSize : ExtraBits 5 ones (ones.cur.dropped 5) 31 := by
  refine ⟨ones.cur, ?_⟩
  decide +kernel

theorem test_witness_ReservedOffsetSymbolIsCorrupt :
    0x11D ≤ 0x11D ∧ 2 * base.cfg.offsetMaxBucket + 2 ≤ 34 := by decide

/-- Offsets 2 and 3 with two bytes produced, and a machine with a smaller largest bucket. -/
theorem test_witness_OffsetSymbolsCopy :
    0 ≤ outAB.cfg.offsetMaxBucket ∧ ExtraBits 0 outAB outAB.cur 0 ∧ copyOffsetOf 0 1 0 + 1 ≤ outAB.dec.outPos.toNat ∧
    outAB.dec.outPos.toNat < copyOffsetOf 1 0 0 + 1 ∧
    (State.resetOf { cfgT with offsetMaxBucket := 15 }).cfg.offsetMaxBucket < 16 := by
  refine ⟨Nat.zero_le _, ⟨rfl, rfl⟩, ?_⟩
  decide +kernel

/-- Symbol 34 past the largest bucket, and as one of the largest bucket 17: its 16 extra bits and both sides of the range
check. -/
theorem test_witness_OffsetSymbolsCopy_34 :
    ones.cfg.offsetMaxBucket < 34 / 2 ∧ 34 / 2 ≤ (bucket17 131073).cfg.offsetMaxBucket ∧
    ExtraBits (34 / 2 - 1) (bucket17 131073) ((at32 0).dropped 16) 0 ∧
    copyOffsetOf (34 / 2) (34 % 2) 0 + 1 ≤ (bucket17 131073).dec.outPos.toNat ∧
    (bucket17 131072).dec.outPos.toNat < copyOffsetOf (34 / 2) (34 % 2) 0 + 1 := by
  refine ⟨by decide, by decide, ⟨at32 0, ?_⟩, ?_⟩ <;> decide +kernel

theorem test_witness_DatDecodeChecksArguments :
    base.inPresent = false ∧ (base.withPresent true true).outPresent = true ∧
    (base.withPresent true true).outSize = 0 := ⟨rfl, rfl, rfl⟩

/-- `dictBase` with an input of n bytes and no OUT of the host. -/
def dat (bs : List Byte) : State := withIn dictBase bs

theorem test_witness_DatDecodeTruncatedHeader :
    (dat [1, 2, 3]).inPresent = true ∧ (dat [1, 2, 3]).outPresent = false ∧ (dat [1, 2, 3]).dictValid = true ∧
    (dat [1, 2, 3]).err = none ∧ (dat [1, 2, 3]).inLen.toNat < 4 := by decide +kernel

/-- P14, seven bytes, and a declared size of 0. -/
theorem test_witness_DatDecodeOfNothing :
    (dat []).cfg.constAddScope = .perBlock ∧ 4 ≤ (dat []).cfg.skipStride ∧ 4 ≤ (dat [1, 2, 3, 4]).inLen.toNat ∧
    (dat [1, 2, 3, 4, 5, 6, 7]).inLen.toNat < 8 ∧ 8 ≤ (dat [1, 2, 3, 4, 0, 0, 0, 0]).inLen.toNat ∧
    inWord (dat [1, 2, 3, 4, 0, 0, 0, 0]).inMem 1 = 0 ∧ (dat []).dictValid = true := by decide +kernel

/-- `dat` with the const-add field read once per call (R247). -/
def datCall (bs : List Byte) : State := { dat bs with cfg := { cfgT with constAddScope := .perCall } }

/-- P14's layout with a const-add byte 0x05 behind the header: the value 6; without that word, the value 1; without word 1,
`Truncated` (R247, R147). -/
theorem test_perCall_const_add :
    (after .datDecode (datCall [1, 2, 3, 4, 0, 0, 0, 0, 0, 0, 0, 0xF5])).dec.constAdd = 6 ∧
    (after .datDecode (datCall [1, 2, 3, 4, 0, 0, 0, 0, 0, 0, 0, 0xF5])).cur.bits = 24 ∧
    (after .datDecode (datCall [1, 2, 3, 4, 0, 0, 0, 0])).dec.constAdd = 1 ∧
    (after .datDecode (datCall [1, 2, 3, 4])).err = some .truncated ∧
    (datCall []).cfg.constAddScope = .perCall ∧ (datCall []).dictValid = true := by decide +kernel

/-- What an operation gives, and the state it ends in. -/
def valueOf {α : Type} : Res α → Option α
  | .ok a _ => some a
  | .fail _ _ => none

def stateOf {α : Type} : Res α → State
  | .ok _ s => s
  | .fail _ s => s

theorem ok_of_value {α : Type} {r : Res α} {a : α} (h : valueOf r = some a) : r = .ok a (stateOf r) := by
  cases r <;> cases h
  rfl

theorem completes_after {i : Instr} {s : State} (h : (after i s).err = none) : Completes i s (after i s) :=
  ⟨exec_after i s, h⟩

/-- A description read by the machine's own `DESC_READ`. -/
def described (tr : TreeSel) (s : State) : State := (after (.descRead tr) s).withResult s.result

theorem readsDesc_described {tr : TreeSel} {s : State} {n : Nat} (h : (after (.descRead tr) s).err = none)
    (hn : n = (after (.descRead tr) s).result.toNat) : ReadsDesc tr s n (described tr s) :=
  ⟨_, completes_after h, hn, rfl⟩

/-- A stream up to its first block: the dictionary, the dropped bits and the declared size d. -/
def header (d : Word) (s : State) : State :=
  startOutput d (stateOf (readField 32 (stateOf (readField 32 ((after .dictInit s).withCur (Cursor.init s.inLen))))))

/-- What a stream's blocks give, the header's reads given. -/
theorem decodes_of_blocks {s t : State} {d : Word} (h₀ : (after .dictInit s).err = none)
    (h₁ : (valueOf (readField 32 ((after .dictInit s).withCur (Cursor.init s.inLen)))).isSome = true)
    (h₂ : valueOf (readField 32 (stateOf (readField 32 ((after .dictInit s).withCur (Cursor.init s.inLen))))) = some d)
    (h₃ : (header d s).cfg.constAddScope = .perBlock) (hb : Blocks (header d s) t) : Decodes s t := by
  obtain ⟨x, hx⟩ := Option.isSome_iff_exists.mp h₁
  refine ⟨_, _, _, header d s, _, d.toNat, completes_after h₀, readField_eq_ok.mp (ok_of_value hx),
    readField_eq_ok.mp (ok_of_value h₂), ?_, hb⟩
  rw [BitVec.ofNat_toNat, BitVec.setWidth_eq]
  unfold ReadsConstAdd
  rw [if_neg (by rw [show (startOutput d _).cfg.constAddScope = .perBlock from h₃]; decide)]
  rfl

/-- P10 with 12 bytes, and with 8 and 11, where the end marker is that of the tolerated zero word. -/
theorem test_witness_DatDecodeReadsItsBlocks :
    let s := dat [0x0d, 0xf0, 0xfe, 0xca, 0x64, 0, 0, 0, 0, 0, 0, 0]
    s.inPresent = true ∧ s.outPresent = false ∧ s.dictValid = true ∧ s.err = none ∧
    4 ≤ s.cfg.skipStride ∧ 12 ≤ s.inLen.toNat ∧ inWord s.inMem 1 ≠ 0 ∧
    (inWord s.inMem 2).toNat / 2 ^ 8 % 2 ^ 16 = 0 ∧
    8 ≤ (dat [1, 2, 3, 4, 100, 0, 0, 0]).inLen.toNat ∧ (dat [1, 2, 3, 4, 100, 0, 0, 0]).inLen.toNat < 12 ∧
    (after .datDecode (dat [1, 2, 3, 4, 100, 0, 0, 0])).cur = ⟨0, 0, 8, 3, 2, true⟩ ∧
    (after .datDecode (datCall [1, 2, 3, 4, 100, 0, 0, 0, 9, 9, 9])).cur = ⟨0, 0, 8, 3, 2, true⟩ ∧
    (after .datDecode (dat [1, 2, 3, 4, 100, 0, 0, 0])).dec.constAdd = 1 ∧
    (after .datDecode (dat [1, 2, 3, 4, 100, 0, 0, 0])).err = none := by decide +kernel

/-- P2's state after each field of its block: const-add, the two descriptions, max count. -/
def p2tokens : State :=
  let s := stateOf (readField 4 (described .copy (described .sym (stateOf (constFieldAt .perBlock
    (header 7 (withIn base inP2)))))))
  s.withDec { s.dec with maxCount := (0 + 1) * 2 ^ 12, count := 0 }

/-- The state before the element of the next token: counted, its symbol read (R249). -/
def counted (s : State) : State := stateOf (readSlot .sym (s.withDec { s.dec with count := s.dec.count + 1 }))

theorem readsCode_counted {s : State} {y : Sym}
    (h : valueOf (readSlot .sym (s.withDec { s.dec with count := s.dec.count + 1 })) = some y) :
    ReadsCode .sym (s.withDec { s.dec with count := s.dec.count + 1 }) y (counted s) :=
  readSlot_eq_ok.mp (ok_of_value h)

/-- P2's tokens "A" and "B", each a literal. -/
def p2A : State := after (.lit 0x41) (counted p2tokens)
def p2B : State := after (.lit 0x42) (counted p2A)

/-- P2's third token: the copy of five bytes from two before. -/
def p2C : State := after (.offB0 1) (stateOf (readSlot .copy (after (.cpyB1 0) (counted p2B))))

theorem p2A_round : TokenRound p2tokens p2A :=
  ⟨0x41, counted p2tokens, readsCode_counted (by decide +kernel), completes_after (by decide +kernel)⟩

theorem p2B_round : TokenRound p2A p2B :=
  ⟨0x42, counted p2A, readsCode_counted (by decide +kernel), completes_after (by decide +kernel)⟩

theorem p2C_round : TokenRound p2B p2C :=
  ⟨0x104, counted p2B, readsCode_counted (by decide +kernel), _, 1, _, completes_after (by decide +kernel),
    readSlot_eq_ok.mp (ok_of_value (by decide +kernel)), completes_after (by decide +kernel)⟩

theorem p2_tokens : BlockTokens p2tokens p2C := by
  have h : TokenRounds 3 p2tokens p2C :=
    ⟨by decide +kernel, _, p2A_round, by decide +kernel, _, p2B_round, by decide +kernel, _, p2C_round, rfl⟩
  refine ⟨?_, by decide +kernel, .inr (by decide +kernel)⟩
  rw [show p2C.dec.count = 3 by decide +kernel]
  exact h

/-- P2: a block that goes on, to a full output. -/
theorem test_witness_DatDecodeReadsItsBlocks_block : Decodes (withIn base inP2) p2C := by
  refine decodes_of_blocks (d := 7) (by decide +kernel) (by decide +kernel) (by decide +kernel) rfl ?_
  exact .block (n := 0x105) (m := 2) (v := 0) (by decide +kernel)
    (constFieldAt_eq_ok.mp (ok_of_value (by decide +kernel)))
    (readsDesc_described (by decide +kernel) (by decide +kernel)) (by decide)
    (readsDesc_described (by decide +kernel) (by decide +kernel)) (by decide)
    ((readField_eq_ok (w := 0)).mp (ok_of_value (by decide +kernel))) p2_tokens (.outputFull (by decide +kernel))

/-- A const-add of 0, N = 1 with DV6's `101` for symbol 0, and a copy description with N = 0. -/
def inMarker : List Byte := [0x0d, 0xf0, 0xfe, 0xca, 0x64, 0, 0, 0, 0xa0, 0x01, 0, 0, 0, 0, 0, 0]

def markerSym : State := described .sym (stateOf (constFieldAt .perBlock (header 100 (withIn base inMarker))))

theorem test_witness_DatDecodeReadsItsBlocks_copyMarker :
    Decodes (withIn base inMarker) (described .copy markerSym) ∧ markerSym.sym.empty = false ∧
    (described .copy markerSym).copy.empty = true ∧ (after .datDecode (withIn base inMarker)).result = 0 := by
  refine ⟨decodes_of_blocks (d := 100) (by decide +kernel) (by decide +kernel) (by decide +kernel) rfl ?_, ?_⟩
  · exact .copyMarker (n := 1) (by decide +kernel) (constFieldAt_eq_ok.mp (ok_of_value (by decide +kernel)))
      (readsDesc_described (by decide +kernel) (by decide +kernel)) (by decide)
      (readsDesc_described (by decide +kernel) (by decide +kernel))
  · decide +kernel

/-- R48, R105: 17 bits hold the largest count of the default field, v = 15; a state in which a field can be read; P2's three
tokens, and a loop whose output is full at once. -/
theorem test_witness_MaxCountLimitsTokens :
    (Config.machine.countBits = 17 ∧ (15 + 1) <<< 12 < 2 ^ 17 ∧
    ones.cur.need ones.cfg ones.inMem ones.cfg.maxCountBits = .ok ones.cur ∧
    ones.cur.head.toNat / 2 ^ (32 - ones.cfg.maxCountBits) = 15 ∧
    ((maxCountField ones).settle).dec.maxCount = 65536) ∧ BlockTokens p2tokens p2C ∧
    (p2tokens.err = none ∧ p2tokens.dec.outPos ≤ p2tokens.dec.eff ∧ p2tokens.dec.fits p2tokens.cfg ∧
    p2tokens.dec.count = 0 ∧ p2C.dec.outPos = p2C.dec.eff) :=
  ⟨by decide +kernel, p2_tokens, by unfold Decoder.fits; decide +kernel⟩

/-- R67, R245: P2's OUT has seven bytes, the last at address 6; an access at 7 stops the model (log 14), and a host that
then supplies OUT has no such bound. -/
theorem test_provided_out_ends :
    let s := after .datDecode (withIn base inP2)
    s.outLen = some 7 ∧ (afterStep (s.withInputs [.memRead .output 6])).hostData = 0x41 ∧
    goesOn (s.withInputs [.memRead .output 7]) = false ∧ goesOn (s.withInputs [.memWrite .output 7 0]) = false ∧
    (afterStep (s.withInputs [.regWrite 0x10 3])).outLen = none := by decide +kernel

/-- P3's cap on P2: a host's OUT of three bytes and a byte behind it. -/
theorem test_witness_DatDecodeOutputBound :
    let s := ((withIn base inP2).withPresent true true).withOutSize 3
    exec .datDecode s = .next (after .datDecode s) ∧ s.err = none ∧ (after .datDecode s).err = none ∧ s.outSize ≠ 0 ∧
    s.outPresent = true ∧ (withIn base inP2).outPresent = false :=
  ⟨exec_after _ _, rfl, by decide +kernel, by decide +kernel, rfl, rfl⟩

theorem base_sound : base.sound := by
  refine ⟨by decide, rfl, rfl, base_shaped, fun t => ?_, Builder.reset_fits _, fun t => ?_, Decoder.reset_fits _,
    ⟨fun _ => rfl, fun _ h => nomatch h⟩, by decide, fun _ => ⟨rfl, base_linked, fun t => ?_, (fun h => nomatch h)⟩⟩
  · cases t <;> exact Slot.reset_shaped _
  · cases t <;> exact Slot.reset_fits _
  · cases t <;> exact .inl rfl

theorem test_witness_ResetIsSound : cfgT.wf ∧ { cfgT with symBits := 9, maxSymbols := 0x11D }.wf := by decide

theorem test_witness_EveryStepKeepsSound : base.sound ∧ step base = .next (afterStep base) :=
  ⟨base_sound, step_after (by decide +kernel)⟩

end Sys2Proof.Tests
end

/-! ## What an instruction can do

An instruction but `SOFT_RESET` runs a chain of sub-operations. What all of them keep is proved once for any relation that
their primitives respect (`exec_cases`); the obligations about `exec` and `step` are uses of it. -/

namespace Sys2Proof

/-- The commands that write `RESULT` (R25). -/
def Instr.writesResult : Instr → Bool
  | .curRead _ | .hufRead _ | .descRead _ | .datDecode => true
  | _ => false

end Sys2Proof

namespace Sys2Proof.Machine

variable {α β : Type}

/-! ### The error kinds that a sub-operation raises (R290, R303) -/

/-- A sub-operation that raises, raises a kind other than the reserved one (R303). -/
def Res.RaisesDefined : Res α → Prop
  | .ok _ _ => True
  | .fail c _ => c.kind ≠ .unsupported

theorem Res.RaisesDefined.andThen {r : Res α} {k : α → State → Res β} (hr : r.RaisesDefined)
    (hk : ∀ a s, (k a s).RaisesDefined) : (r.andThen k).RaisesDefined := by
  cases r with
  | ok a s => exact hk a s
  | fail c s => exact hr

theorem ok_raisesDefined (a : α) (s : State) : (Res.ok a s).RaisesDefined := trivial

theorem invalidInput_raisesDefined (s : State) : (failWith .invalidInput s : Res α).RaisesDefined := nofun

theorem corrupt_raisesDefined (s : State) : (failWith .corrupt s : Res α).RaisesDefined := nofun

theorem needBits_raisesDefined (n : Nat) (s : State) : (needBits n s).RaisesDefined := by
  unfold needBits
  obtain ⟨-, h⟩ | ⟨-, -, h⟩ | ⟨-, -, h⟩ := Cursor.need_cases (c := s.cur) (n := n) rfl <;> rw [h]
  · exact invalidInput_raisesDefined s
  · obtain ⟨-, -, h⟩ | ⟨-, -, h⟩ | ⟨-, h⟩ := Cursor.pull_cases (cfg := s.cfg) (m := s.inMem) (c := s.cur) rfl <;> rw [h]
    · exact nofun
    · exact ok_raisesDefined _ _
    · exact ok_raisesDefined _ _
  · exact ok_raisesDefined _ _

theorem dropBits_raisesDefined (n : Nat) (s : State) : (dropBits n s).RaisesDefined := by
  unfold dropBits
  obtain ⟨-, h⟩ | ⟨-, -, h⟩ := Cursor.drop_cases (c := s.cur) (n := n) rfl <;> rw [h]
  · exact invalidInput_raisesDefined s
  · exact ok_raisesDefined _ _

theorem readBits_raisesDefined (n : Nat) (s : State) : (readBits n s).RaisesDefined := by
  unfold readBits
  obtain ⟨-, h⟩ | ⟨-, v, h, -⟩ := Cursor.read_cases (c := s.cur) (n := n) rfl <;> rw [h]
  · exact invalidInput_raisesDefined s
  · exact ok_raisesDefined _ _

theorem readField_raisesDefined (k : Nat) (s : State) : (readField k s).RaisesDefined :=
  (needBits_raisesDefined k s).andThen fun _ _ => (readBits_raisesDefined k _).andThen fun _ _ =>
    (dropBits_raisesDefined k _).andThen fun _ _ => ok_raisesDefined _ _

theorem dictInit_raisesDefined (s : State) : (dictInit s).RaisesDefined := by
  obtain ⟨-, h⟩ | ⟨-, b, x, -, h⟩ | ⟨-, k, hk, h⟩ := dictInit_cases s <;> rw [h]
  · exact ok_raisesDefined _ _
  · exact ok_raisesDefined _ _
  · obtain rfl | rfl := dictTables_error hk <;> exact nofun

theorem addSymbol_raisesDefined (sy len : Nat) (s : State) : (addSymbol sy len s).RaisesDefined := by
  obtain ⟨b, -, h⟩ | ⟨-, h⟩ := addSymbol_cases sy len s <;> rw [h]
  · exact ok_raisesDefined _ _
  · exact nofun

theorem buildSlot_raisesDefined (t : SlotId) (s : State) : (buildSlot t s).RaisesDefined := by
  obtain ⟨x, -, h⟩ | ⟨-, h⟩ := buildSlot_cases t s <;> rw [h]
  · exact ok_raisesDefined _ _
  · exact nofun

theorem readSlot_raisesDefined (t : SlotId) (s : State) : (readSlot t s).RaisesDefined := by
  unfold readSlot
  split
  · exact corrupt_raisesDefined s
  · refine (needBits_raisesDefined 32 s).andThen fun _ s' => ?_
    split
    · exact corrupt_raisesDefined s'
    · exact (dropBits_raisesDefined _ s').andThen fun _ _ => ok_raisesDefined _ _

theorem readCode_raisesDefined (t : SlotId) (s : State) : (readCode t s).RaisesDefined := by
  cases t with
  | dict => exact (dictInit_raisesDefined s).andThen fun _ _ => readSlot_raisesDefined .dict _
  | sym => exact readSlot_raisesDefined .sym s
  | copy => exact readSlot_raisesDefined .copy s

theorem descRun_raisesDefined (len cnt : Nat) (s : State) : (descRun len cnt s).RaisesDefined := by
  induction cnt generalizing s with
  | zero => exact ok_raisesDefined _ _
  | succ cnt ih =>
    unfold descRun
    split
    · exact corrupt_raisesDefined s
    · exact (addSymbol_raisesDefined _ _ s).andThen fun _ _ => ih _

theorem descCode_raisesDefined (c : Sym) (s : State) : (descCode c s).RaisesDefined := by
  unfold descCode
  dsimp only
  split
  · exact ok_raisesDefined _ _
  · exact descRun_raisesDefined _ _ s

theorem descLoop_raisesDefined (n : Nat) (s : State) : (descLoop n s).RaisesDefined := by
  induction n generalizing s with
  | zero => exact ok_raisesDefined _ _
  | succ n ih =>
    unfold descLoop
    split
    · exact ok_raisesDefined _ _
    · exact (readCode_raisesDefined .dict s).andThen fun c _ => (descCode_raisesDefined c _).andThen fun _ _ => ih _

theorem desc_raisesDefined (t : SlotId) (s : State) : (desc t s).RaisesDefined := by
  refine (dictInit_raisesDefined s).andThen fun _ _ => (readField_raisesDefined 16 _).andThen fun v s₁ => ?_
  split
  · exact invalidInput_raisesDefined s₁
  · exact (ok_raisesDefined _ _).andThen fun _ _ => (descLoop_raisesDefined _ _).andThen fun _ _ =>
      (buildSlot_raisesDefined t _).andThen fun _ _ => ok_raisesDefined _ _

theorem extraBits_raisesDefined (k : Nat) (s : State) : (extraBits k s).RaisesDefined := by
  unfold extraBits
  split
  · exact ok_raisesDefined _ _
  · exact (readField_raisesDefined k s).andThen fun _ _ => ok_raisesDefined _ _

theorem literal_raisesDefined (b : Byte) (s : State) : (literal b s).RaisesDefined := by
  unfold literal
  split <;> exact ok_raisesDefined _ _

theorem copySymbol_raisesDefined (code : Nat) (s : State) : (copySymbol code s).RaisesDefined := by
  refine Res.RaisesDefined.andThen ?_ fun _ _ => ok_raisesDefined _ _
  unfold writeSize
  dsimp only
  split
  · exact ok_raisesDefined _ _
  · split
    · exact (extraBits_raisesDefined _ s).andThen fun _ _ => ok_raisesDefined _ _
    · split
      · exact ok_raisesDefined _ _
      · exact corrupt_raisesDefined s

theorem writeOffset_raisesDefined (code : Nat) (s : State) : (writeOffset code s).RaisesDefined := by
  unfold writeOffset
  dsimp only
  split
  · exact ok_raisesDefined _ _
  · split
    · exact (extraBits_raisesDefined _ s).andThen fun _ _ => ok_raisesDefined _ _
    · exact corrupt_raisesDefined s

theorem offsetSymbol_raisesDefined (code : Nat) (s : State) : (offsetSymbol code s).RaisesDefined := by
  refine (writeOffset_raisesDefined code s).andThen fun v s' => ?_
  dsimp only
  split
  · exact corrupt_raisesDefined s'
  · exact ok_raisesDefined _ _

theorem token_raisesDefined (s : State) : (token s).RaisesDefined := by
  refine (readCode_raisesDefined .sym s).andThen fun sy s₁ => Res.RaisesDefined.andThen ?_ fun _ s₂ => ?_
  · unfold tokenSymbol
    split
    · exact literal_raisesDefined _ s₁
    · exact copySymbol_raisesDefined _ s₁
  · split
    · exact ok_raisesDefined _ _
    · exact (readCode_raisesDefined .copy s₂).andThen fun t _ => offsetSymbol_raisesDefined t _

theorem tokenLoop_raisesDefined (n : Nat) (s : State) : (tokenLoop n s).RaisesDefined := by
  induction n generalizing s with
  | zero => exact ok_raisesDefined _ _
  | succ n ih =>
    unfold tokenLoop
    split
    · exact (token_raisesDefined _).andThen fun _ _ => ih _
    · exact ok_raisesDefined _ _

theorem constFieldAt_raisesDefined (p : ConstAddScope) (s : State) : (constFieldAt p s).RaisesDefined := by
  unfold constFieldAt
  split
  · exact (needBits_raisesDefined 8 s).andThen fun _ _ => (dropBits_raisesDefined 4 _).andThen fun _ _ =>
      (readBits_raisesDefined 4 _).andThen fun _ _ => (dropBits_raisesDefined 4 _).andThen fun _ _ =>
      ok_raisesDefined _ _
  · exact ok_raisesDefined _ _

theorem blockLoop_raisesDefined (n : Nat) (s : State) : (blockLoop n s).RaisesDefined := by
  induction n generalizing s with
  | zero => exact ok_raisesDefined _ _
  | succ n ih =>
    unfold blockLoop
    split
    · refine (constFieldAt_raisesDefined _ s).andThen fun _ s₁ => (desc_raisesDefined .sym s₁).andThen fun nSym s₂ => ?_
      split
      · exact ok_raisesDefined _ _
      · refine (desc_raisesDefined .copy s₂).andThen fun nCopy s₃ => ?_
        split
        · exact ok_raisesDefined _ _
        · exact Res.RaisesDefined.andThen
            ((readField_raisesDefined _ s₃).andThen fun _ _ => ok_raisesDefined _ _)
            fun _ s₄ => (tokenLoop_raisesDefined _ s₄).andThen fun _ s₅ => ih s₅
    · exact ok_raisesDefined _ _

theorem datArguments_raisesDefined (s : State) : (datArguments s).RaisesDefined := by
  obtain ⟨-, h⟩ | ⟨-, -, h⟩ := datArguments_cases s <;> rw [h]
  · exact nofun
  · exact ok_raisesDefined _ _

theorem datHeader_raisesDefined (s : State) : (datHeader s).RaisesDefined :=
  (needBits_raisesDefined 32 s).andThen fun _ _ => (dropBits_raisesDefined 32 _).andThen fun _ _ =>
    (readField_raisesDefined 32 _).andThen fun _ _ => ok_raisesDefined _ _

theorem datRun_raisesDefined (s : State) : (datRun s).RaisesDefined :=
  (datArguments_raisesDefined s).andThen fun _ _ => (dictInit_raisesDefined _).andThen fun _ _ =>
    (ok_raisesDefined _ _).andThen fun _ _ => (datHeader_raisesDefined _).andThen fun _ _ =>
    (constFieldAt_raisesDefined _ _).andThen fun _ _ => (blockLoop_raisesDefined _ _).andThen fun _ _ =>
    ok_raisesDefined _ _

/-! ### The instructions -/

/-- Relations that the primitives of instruction i respect. -/
structure ExecStable (i : Instr) (R : State → State → Prop) : Prop extends BlockStable R where
  init : ∀ s, R s (s.withCur (Cursor.init s.inLen))
  result : i.writesResult = true → ∀ s v, R s (s.withResult v)
  outSize : i = .datDecode → ∀ s v, R s (s.withOutSize v)
  output : i = .datDecode → ∀ s declared, R s (startOutput declared s)

/-- The work `r` of an instruction in state s: whatever state it ends in stands in relation `R` to s, and a raise is of a
kind that some rule raises. -/
structure Res.Works (R : State → State → Prop) (s : State) (r : Res α) : Prop where
  leads : r.Leads R s
  raises : r.RaisesDefined

theorem Res.Works.andThen {R : State → State → Prop} (trans : ∀ a b c, R a b → R b c → R a c) {s : State}
    {r : Res α} {k : α → State → Res β} (hr : r.Works R s) (hk : ∀ a t, (k a t).Works R t) : (r.andThen k).Works R s :=
  ⟨hr.leads.andThen trans fun a t => (hk a t).leads, hr.raises.andThen fun a t => (hk a t).raises⟩

theorem datRun_leads {R : State → State → Prop} (h : ExecStable .datDecode R) (s : State) : (datRun s).Leads R s := by
  have hargs : (datArguments s).Leads R s := by
    obtain ⟨-, he⟩ | ⟨-, -, he⟩ := datArguments_cases s <;> rw [he] <;> exact h.refl s
  exact hargs.andThen h.trans fun _ s₀ =>
    (dictInit_leads h.toDictStable s₀).andThen h.trans fun _ s₁ =>
    Res.Leads.andThen h.trans (show (curInit s₁).Leads R s₁ from h.init s₁) fun _ s₂ =>
    (datHeader_leads h.toCursorStable (h.output rfl) s₂).andThen h.trans fun _ s₃ =>
    (constFieldAt_leads h.toBlockStable _ s₃).andThen h.trans fun _ s₄ =>
    (blockLoop_leads h.toBlockStable _ s₄).andThen h.trans fun _ s₅ =>
    h.trans _ _ _ (h.outSize rfl s₅ _) (h.result rfl _ _)

/-- What an instruction but `SOFT_RESET` can do: it is reserved, with no effect but `ERR` (R91), or its work ends with a
value or in a raise, in a state that is in relation `R` to the one it began in. -/
theorem exec_cases {i : Instr} {R : State → State → Prop} (h : ExecStable i R) (hi : i ≠ .softReset) (s : State) :
    exec i s = .next (reservedCommand s) ∨ ∃ r : Res Unit, exec i s = finish r ∧ r.Works R s := by
  have hresult : ∀ v t, i.writesResult = true → (putResult v t).Works R t :=
    fun v t hw => ⟨h.result hw t v, trivial⟩
  cases i with
  | softReset => exact absurd rfl hi
  | nop => exact .inr ⟨.ok () s, rfl, h.refl s, trivial⟩
  | curInit =>
    refine .inr ⟨_, rfl, ?_⟩
    split
    · exact ⟨h.init s, trivial⟩
    · exact ⟨h.refl s, invalidInput_raisesDefined s⟩
  | curNeed nb => exact .inr ⟨_, rfl, needBits_leads h.toCursorStable _ s, needBits_raisesDefined _ s⟩
  | curRead nb =>
    exact .inr ⟨_, rfl, Res.Works.andThen h.trans ⟨readBits_leads h.toCursorStable _ s, readBits_raisesDefined _ s⟩
      fun v t => hresult v t rfl⟩
  | curDrop nb => exact .inr ⟨_, rfl, dropBits_leads h.toCursorStable _ s, dropBits_raisesDefined _ s⟩
  | bldClear => exact .inr ⟨_, rfl, (h.desc .sym (by decide)).clear s, trivial⟩
  | bldAdd nb sy =>
    exact .inr ⟨_, rfl, addSymbol_leads (h.desc .sym (by decide)) _ _ s, addSymbol_raisesDefined _ _ s⟩
  | bldBuild tr =>
    cases tr with
    | rsv => exact .inl rfl
    | dict => exact .inr ⟨_, rfl, h.refl s, invalidInput_raisesDefined s⟩
    | sym => exact .inr ⟨_, rfl, buildSlot_leads (h.desc .sym (by decide)) s, buildSlot_raisesDefined _ s⟩
    | copy => exact .inr ⟨_, rfl, buildSlot_leads (h.desc .copy (by decide)) s, buildSlot_raisesDefined _ s⟩
  | dictInit => exact .inr ⟨_, rfl, dictInit_leads h.toDictStable s, dictInit_raisesDefined s⟩
  | hufRead tr =>
    have hread : ∀ t, ((readCode t s).andThen fun sy s => putResult (symbolWord sy) s).Works R s := fun t =>
      Res.Works.andThen h.trans ⟨readCode_leads h.toDictStable t s, readCode_raisesDefined t s⟩
        fun sy t => hresult _ t rfl
    cases tr with
    | rsv => exact .inl rfl
    | dict => exact .inr ⟨_, rfl, hread .dict⟩
    | sym => exact .inr ⟨_, rfl, hread .sym⟩
    | copy => exact .inr ⟨_, rfl, hread .copy⟩
  | descRead tr =>
    have hread : ∀ t, t ≠ .dict → ((desc t s).andThen fun n s => putResult (BitVec.ofNat 32 n) s).Works R s :=
      fun t ht => Res.Works.andThen h.trans ⟨desc_leads (h.desc t ht) s, desc_raisesDefined t s⟩
        fun n t => hresult _ t rfl
    cases tr with
    | rsv => exact .inl rfl
    | dict => exact .inr ⟨_, rfl, h.refl s, invalidInput_raisesDefined s⟩
    | sym => exact .inr ⟨_, rfl, hread .sym (by decide)⟩
    | copy => exact .inr ⟨_, rfl, hread .copy (by decide)⟩
  | datDecode => exact .inr ⟨_, rfl, datRun_leads h s, datRun_raisesDefined s⟩
  | lit b => exact .inr ⟨_, rfl, literal_leads h.toTokenStable b s, literal_raisesDefined b s⟩
  | cpyB0 r | cpyB1 r | cpyB2 r | cpyB3 r | cpyB4 r | cpyB5 r | cpyB6 r | cpyFF | cpyRsv sy =>
    exact .inr ⟨_, rfl, copySymbol_leads h.toTokenStable _ s, copySymbol_raisesDefined _ s⟩
  | offB0 r | offB1 r | offB2 r | offB3 r | offB4 r | offB5 r | offB6 r | offB7 r | offB8 r | offB9 r | offB10 r
  | offB11 r | offB12 r | offB13 r | offB14 r | offB15 r | offB16 r | offRsv t =>
    exact .inr ⟨_, rfl, offsetSymbol_leads h.toTokenStable _ s, offsetSymbol_raisesDefined _ s⟩
  | descSkip cm1 => exact .inr ⟨_, rfl, (h.desc .sym (by decide)).rem s _, trivial⟩
  | descRun len cm1 =>
    exact .inr ⟨_, rfl, descRun_leads (h.desc .sym (by decide)) _ _ s, descRun_raisesDefined _ _ s⟩

end Sys2Proof.Machine

/-! ## The builder's buckets (R41, R42, R171)

An insertion writes the entries of the new symbol alone. The chains that do not hold that symbol are therefore followed as
before, and the bucket inserted into gets the symbol in front of its old chain. -/

namespace Sys2Proof.Machine

theorem Builder.reset_atReset (cfg : Config) : (Builder.reset cfg).atReset := by
  simp [Builder.atReset, Builder.reset, Builder.headOf, Builder.valid]

theorem Builder.bucket_of_not_valid {cfg : Config} {b : Builder} {len : Nat} (h : b.valid len = false) :
    b.bucket cfg len = [] := by simp [Builder.bucket, h]

theorem Builder.reset_linked (cfg : Config) : (Builder.reset cfg).linked cfg := by
  have hempty : ∀ len, (Builder.reset cfg).bucket cfg len = [] :=
    fun len => Builder.bucket_of_not_valid ((Builder.reset_atReset cfg).1 len).2
  constructor
  · intro len _ _; simp [hempty]
  · intro l₁ l₂ _ _ _ _ _; simp [hempty]

/-- A symbol that was added has an entry. -/
theorem Builder.lt_of_present {cfg : Config} {b : Builder} (h : b.shaped cfg) {y : Nat} (hy : b.present y = true) :
    y < cfg.maxSymbols := by
  obtain ⟨-, -, -, -, hpres⟩ := h
  by_contra hge
  have hlen : b.bpres.length ≤ y := by omega
  rw [Builder.present, List.getD_eq_default _ _ hlen] at hy
  exact absurd hy (by decide)

/-- A symbol not yet added is in no bucket. -/
theorem Builder.linked.not_mem_bucket {cfg : Config} {b : Builder} (hl : b.linked cfg) {sy : Sym}
    (hsy : b.present sy = false) {l : Nat} (h₁ : 1 ≤ l) (h₂ : l ≤ maxCodeBits) : sy ∉ b.bucket cfg l := by
  intro hmem
  have := (hl.1 l h₁ h₂).2 sy hmem
  simp [hsy] at this

/-- While a symbol is left to add, a bucket is shorter than the bound to which it is followed (log 17). -/
theorem Builder.linked.length_bucket_lt {cfg : Config} {b : Builder} (hl : b.linked cfg) (hb : b.shaped cfg) {sy : Sym}
    (hlt : sy < cfg.maxSymbols) (hsy : b.present sy = false) {l : Nat} (h₁ : 1 ≤ l) (h₂ : l ≤ maxCodeBits) :
    (b.bucket cfg l).length < cfg.maxSymbols := by
  obtain ⟨hnodup, hpres⟩ := hl.1 l h₁ h₂
  have hcons : (sy :: b.bucket cfg l).Nodup := List.nodup_cons.mpr ⟨hl.not_mem_bucket hsy h₁ h₂, hnodup⟩
  have hsub : sy :: b.bucket cfg l ⊆ List.range cfg.maxSymbols := by
    intro y hy
    obtain rfl | hy := List.mem_cons.mp hy
    · exact List.mem_range.mpr hlt
    · exact List.mem_range.mpr (Builder.lt_of_present hb (hpres y hy))
  have hle := (hcons.subperm hsub).length_le
  rw [List.length_cons, List.length_range] at hle
  exact hle

/-- A chain that ends before the bound is the same with a bound one lower. -/
theorem Builder.follow_succ {b : Builder} {n : Nat} {y : Sym} (h : (b.follow (n + 1) y).length ≤ n) :
    b.follow (n + 1) y = b.follow n y := by
  induction n generalizing y with
  | zero => simp [Builder.follow] at h
  | succ n ih =>
    rw [Builder.follow] at h ⊢
    conv_rhs => rw [Builder.follow]
    cases hv : b.bnv.getD y false with
    | false => rfl
    | true =>
      rw [hv, if_pos rfl, List.length_cons] at h
      rw [if_pos rfl, if_pos rfl, ih (by omega)]

/-- A chain without the new symbol is followed as before. -/
theorem Builder.follow_insert {cfg : Config} {b : Builder} (hb : b.shaped cfg) {sy : Sym} (hlt : sy < cfg.maxSymbols)
    (len : Nat) {n : Nat} {y : Sym} (h : sy ∉ b.follow n y) : (b.insert sy len).follow n y = b.follow n y := by
  induction n generalizing y with
  | zero => rfl
  | succ n ih =>
    simp only [Builder.follow, List.mem_cons, not_or] at h ⊢
    obtain ⟨hne, htail⟩ := h
    obtain ⟨-, hbnv, hbnext⟩ := b.insert_entries hb hlt len y
    rw [if_neg (Ne.symm hne)] at hbnv
    rw [if_neg (fun hc => hne hc.1.symm)] at hbnext
    rw [hbnv, hbnext]
    cases hv : b.bnv.getD y false with
    | false => rfl
    | true =>
      rw [hv, if_pos rfl] at htail
      rw [if_pos rfl, if_pos rfl, ih htail]

section
variable {cfg : Config} {b : Builder} {sy len : Nat}

/-- R42: the bucket inserted into has the new symbol in front. -/
theorem Builder.bucket_insert_self (hb : b.shaped cfg) (hl : b.linked cfg) (h₁ : 1 ≤ len) (h₂ : len ≤ maxCodeBits)
    (hlt : sy < cfg.maxSymbols) (hsy : b.present sy = false) :
    (b.insert sy len).bucket cfg len = sy :: b.bucket cfg len := by
  obtain ⟨hhead, hvalid⟩ := b.insert_bucketHead hb sy h₁ h₂ h₁
  obtain ⟨-, hbnv, hbnext⟩ := b.insert_entries hb hlt len sy
  obtain ⟨n, hn⟩ : ∃ n, cfg.maxSymbols = n + 1 := ⟨cfg.maxSymbols - 1, by omega⟩
  have hshort := hl.length_bucket_lt hb hlt hsy h₁ h₂
  have hmem := hl.not_mem_bucket hsy h₁ h₂
  rw [Builder.bucket, hvalid, hhead, if_pos rfl, if_pos rfl, if_pos rfl, hn, Builder.follow, hbnv, if_pos rfl]
  cases hv : b.valid len with
  | false => rw [Builder.bucket_of_not_valid hv]; rfl
  | true =>
    rw [Builder.bucket, hv, if_pos rfl, hn] at hshort hmem
    have hfollow := Builder.follow_succ (Nat.le_of_lt_succ hshort)
    rw [hfollow] at hmem
    rw [if_pos ⟨rfl, hv⟩] at hbnext
    rw [hbnext, if_pos rfl, Builder.follow_insert hb hlt len hmem, Builder.bucket, hv, if_pos rfl, hn, hfollow]

/-- R42: the other buckets do not change. -/
theorem Builder.bucket_insert_of_ne (hb : b.shaped cfg) (hl : b.linked cfg) (h₁ : 1 ≤ len) (h₂ : len ≤ maxCodeBits)
    (hlt : sy < cfg.maxSymbols) (hsy : b.present sy = false) {l : Nat} (hl₁ : 1 ≤ l) (hl₂ : l ≤ maxCodeBits)
    (hne : l ≠ len) : (b.insert sy len).bucket cfg l = b.bucket cfg l := by
  obtain ⟨hhead, hvalid⟩ := b.insert_bucketHead hb sy h₁ h₂ hl₁
  have hmem := hl.not_mem_bucket hsy hl₁ hl₂
  rw [if_neg hne] at hhead hvalid
  rw [Builder.bucket, hhead, hvalid]
  cases hv : b.valid l with
  | false => rw [Builder.bucket_of_not_valid hv]; rfl
  | true =>
    rw [Builder.bucket, hv, if_pos rfl] at hmem ⊢
    rw [if_pos rfl, Builder.follow_insert hb hlt len hmem]

theorem Builder.mem_bucket_insert (hb : b.shaped cfg) (hl : b.linked cfg) (h₁ : 1 ≤ len) (h₂ : len ≤ maxCodeBits)
    (hlt : sy < cfg.maxSymbols) (hsy : b.present sy = false) {l : Nat} (hl₁ : 1 ≤ l) (hl₂ : l ≤ maxCodeBits) {y : Sym} :
    y ∈ (b.insert sy len).bucket cfg l ↔ (y = sy ∧ l = len) ∨ y ∈ b.bucket cfg l := by
  by_cases hne : l = len
  · subst hne
    simp [Builder.bucket_insert_self hb hl h₁ h₂ hlt hsy]
  · simp [Builder.bucket_insert_of_ne hb hl h₁ h₂ hlt hsy hl₁ hl₂ hne, hne]

/-- R41: buckets stay disjoint when a symbol that was not yet added is inserted. -/
theorem Builder.insert_linked (hb : b.shaped cfg) (hl : b.linked cfg) (h₁ : 1 ≤ len) (h₂ : len ≤ maxCodeBits)
    (hlt : sy < cfg.maxSymbols) (hsy : b.present sy = false) : (b.insert sy len).linked cfg := by
  have hself := Builder.bucket_insert_self hb hl h₁ h₂ hlt hsy
  have hother {l : Nat} := Builder.bucket_insert_of_ne hb hl h₁ h₂ hlt hsy (l := l)
  have hmem {l : Nat} (ha : 1 ≤ l) (hb' : l ≤ maxCodeBits) {y : Sym} :=
    Builder.mem_bucket_insert hb hl h₁ h₂ hlt hsy ha hb' (y := y)
  have hpres : ∀ y, y = sy ∨ b.present y = true → (b.insert sy len).present y = true := by
    intro y hy
    rw [Builder.present, (b.insert_entries hb hlt len y).1]
    obtain rfl | hy := hy
    · exact if_pos rfl
    · split
      · rfl
      · exact hy
  have hnew : ∀ l, 1 ≤ l → l ≤ maxCodeBits → sy ∉ b.bucket cfg l := fun l => hl.not_mem_bucket hsy
  obtain ⟨hnodup, hdisj⟩ := hl
  constructor
  · intro l hl₁ hl₂
    obtain ⟨hnd, hp⟩ := hnodup l hl₁ hl₂
    by_cases hne : l = len
    · subst hne
      rw [hself]
      exact ⟨List.nodup_cons.mpr ⟨hnew l hl₁ hl₂, hnd⟩,
        fun y hy => hpres y ((List.mem_cons.mp hy).imp_right (hp y))⟩
    · rw [hother hl₁ hl₂ hne]
      exact ⟨hnd, fun y hy => hpres y (.inr (hp y hy))⟩
  · intro l₁ l₂ ha₁ hb₁ ha₂ hb₂ hne y hy hy'
    obtain ⟨rfl, e₁⟩ | hy := (hmem ha₁ hb₁).mp hy <;> obtain ⟨e, e₂⟩ | hy' := (hmem ha₂ hb₂).mp hy'
    · exact hne (e₁.trans e₂.symm)
    · exact hnew l₂ ha₂ hb₂ hy'
    · exact hnew l₁ ha₁ hb₁ (e ▸ hy)
    · exact hdisj _ _ ha₁ hb₁ ha₂ hb₂ hne y hy hy'

end

theorem Builder.add_linked {cfg : Config} {b b' : Builder} {sy len : Nat} (hb : b.shaped cfg) (hl : b.linked cfg)
    (ha : b.add cfg sy len = .ok b') : b'.linked cfg := by
  obtain ⟨-, ha⟩ | ⟨h₁, h₂, hlt, hsy, ha⟩ := Builder.add_cases ha <;> cases ha
  exact Builder.insert_linked hb hl h₁ h₂ hlt hsy

/-- Settles O32: by `Builder.add_cases` an `ADD` that succeeds is an insertion of a symbol not yet added. -/
theorem bucketListIsInsertionReversed : Obligations.BucketListIsInsertionReversed := by
  intro cfg b b' sy len hb hl ha
  have hlinked := Builder.add_linked hb hl ha
  obtain ⟨-, ha⟩ | ⟨h₁, h₂, hlt, hsy, ha⟩ := Builder.add_cases ha <;> cases ha
  exact ⟨Builder.bucket_insert_self hb hl h₁ h₂ hlt hsy,
    fun l hl₁ hl₂ hne => Builder.bucket_insert_of_ne hb hl h₁ h₂ hlt hsy hl₁ hl₂ hne, hlinked⟩

end Sys2Proof.Machine

/-! ## What an instruction and a step leave, from what their primitives leave -/

namespace Sys2Proof.Machine

/-! ### From one relation to a weaker one -/

section
variable {R R' : State → State → Prop}

theorem DictStable.mono (h : DictStable R) (refl : ∀ s, R' s s) (trans : ∀ a b c, R' a b → R' b c → R' a c)
    (hle : ∀ s t, R s t → R' s t) : DictStable R' where
  refl := refl
  trans := trans
  need n s c hc := hle _ _ (h.need n s c hc)
  drop n s c hc := hle _ _ (h.drop n s c hc)
  dict s b x hv ht := hle _ _ (h.dict s b x hv ht)

theorem BlockStable.mono (h : BlockStable R) (refl : ∀ s, R' s s) (trans : ∀ a b c, R' a b → R' b c → R' a c)
    (hle : ∀ s t, R s t → R' s t) : BlockStable R' where
  toDictStable := h.toDictStable.mono refl trans hle
  size s v := hle _ _ (h.size s v)
  lit s b hb := hle _ _ (h.lit s b hb)
  copy s off h₁ h₂ := hle _ _ (h.copy s off h₁ h₂)
  desc t ht :=
    { toDictStable := h.toDictStable.mono refl trans hle
      clear := fun s => hle _ _ ((h.desc t ht).clear s)
      add := fun s sy len b hb => hle _ _ ((h.desc t ht).add s sy len b hb)
      build := fun s x hx => hle _ _ ((h.desc t ht).build s x hx)
      rem := fun s r => hle _ _ ((h.desc t ht).rem s r) }
  constAdd s v := hle _ _ (h.constAdd s v)
  maxCount s v := hle _ _ (h.maxCount s v)
  count s v := hle _ _ (h.count s v)

end

/-! ### What an instruction leaves -/

/-- The state an instruction but `SOFT_RESET` leaves: `ERR` alone written, the state its work ends in, or what a raise
makes of the state its work ends in (R91, R292). -/
theorem exec_next_cases {i : Instr} {R : State → State → Prop} (h : ExecStable i R) (hi : i ≠ .softReset) {s t : State}
    (he : exec i s = .next t) :
    t = reservedCommand s ∨ R s t ∨ ∃ c u, R s u ∧ c.kind ≠ .unsupported ∧ t = u.raise c := by
  obtain hr | ⟨r, hr, hw⟩ := exec_cases h hi s <;> rw [hr] at he
  · cases he; exact .inl rfl
  · cases he
    cases r with
    | ok _ u => exact .inr (.inl hw.leads)
    | fail c u => exact .inr (.inr ⟨c, u, hw.leads, hw.raises, rfl⟩)

/-- `t` has the parameters, IN, the pending inputs, `IN_LEN` and `CTRL` of `s`, and `RESULT` and `OUT_SIZE` but where
instruction i writes them (R25 to R28). -/
structure KeepsRegisters (i : Instr) (s t : State) : Prop where
  cfg : t.cfg = s.cfg
  inMem : t.inMem = s.inMem
  inputs : t.inputs = s.inputs
  inLen : t.inLen = s.inLen
  inPresent : t.inPresent = s.inPresent
  outPresent : t.outPresent = s.outPresent
  result : i.writesResult = false → t.result = s.result
  outSize : i ≠ .datDecode → t.outSize = s.outSize

theorem KeepsHost.keepsRegisters {s t : State} (h : KeepsHost s t) (i : Instr) : KeepsRegisters i s t where
  cfg := h.cfg
  inMem := h.inMem
  inputs := h.inputs
  inLen := h.inLen
  inPresent := h.inPresent
  outPresent := h.outPresent
  result _ := h.result
  outSize _ := h.outSize

theorem KeepsRegisters.trans {i : Instr} {s t u : State} (h : KeepsRegisters i s t) (h' : KeepsRegisters i t u) :
    KeepsRegisters i s u where
  cfg := h'.cfg.trans h.cfg
  inMem := h'.inMem.trans h.inMem
  inputs := h'.inputs.trans h.inputs
  inLen := h'.inLen.trans h.inLen
  inPresent := h'.inPresent.trans h.inPresent
  outPresent := h'.outPresent.trans h.outPresent
  result hi := (h'.result hi).trans (h.result hi)
  outSize hi := (h'.outSize hi).trans (h.outSize hi)

theorem keepsRegisters_execStable (i : Instr) : ExecStable i (KeepsRegisters i) where
  toBlockStable := keepsHost_blockStable.mono (fun s => (KeepsHost.refl s).keepsRegisters i)
    (fun _ _ _ h h' => h.trans h') (fun _ _ h => h.keepsRegisters i)
  init _ := by constructor <;> intros <;> rfl
  result hi _ _ :=
    { cfg := rfl, inMem := rfl, inputs := rfl, inLen := rfl, inPresent := rfl, outPresent := rfl
      result := fun hn => absurd (hi.symm.trans hn) nofun
      outSize := fun _ => rfl }
  outSize hi _ _ :=
    { cfg := rfl, inMem := rfl, inputs := rfl, inLen := rfl, inPresent := rfl, outPresent := rfl
      result := fun _ => rfl
      outSize := fun hn => absurd hi hn }
  output _ s _ := by
    unfold startOutput
    dsimp only
    split <;> constructor <;> intros <;> rfl

theorem exec_keepsRegisters {i : Instr} (hi : i ≠ .softReset) {s t : State} (he : exec i s = .next t) :
    KeepsRegisters i s t := by
  obtain rfl | h | ⟨c, u, h, -, rfl⟩ := exec_next_cases (keepsRegisters_execStable i) hi he
  · constructor <;> intros <;> rfl
  · exact h
  · exact h.trans (by constructor <;> intros <;> rfl)

/-- Settles O13: a reset leaves IN, the parameters and the inputs; any other instruction keeps the whole input side. -/
theorem inputSideIsReadOnly : Obligations.InputSideIsReadOnly := by
  intro i s t he
  by_cases hi : i = .softReset
  · subst hi
    cases he
    exact ⟨rfl, rfl, rfl, fun h => absurd rfl h⟩
  · have h := exec_keepsRegisters hi he
    exact ⟨h.inMem, h.cfg, h.inputs, fun _ => ⟨h.inLen, h.inPresent, h.outPresent⟩⟩

/-- Settles O14: the primitives keep `RESULT` and `OUT_SIZE`, and so does a raise. -/
theorem resultWrittenOnlyByItsCommands : Obligations.ResultWrittenOnlyByItsCommands := by
  intro i s t he hi
  have h := exec_keepsRegisters hi he
  refine ⟨fun hread hhuf hdesc hdat => h.result ?_, h.outSize⟩
  cases i with
  | curRead nb => exact absurd rfl (hread nb)
  | hufRead tr => exact absurd rfl (hhuf tr)
  | descRead tr => exact absurd rfl (hdesc tr)
  | datDecode => exact absurd rfl hdat
  | _ => rfl

/-! ### What a step runs -/

theorem eq_of_ite_eq {α : Type} {c : Prop} [Decidable c] {a b z : α} (h : (if c then a else b) = z) (ha : a ≠ z) :
    b = z := by
  split at h
  · exact absurd h ha
  · exact h

theorem ite_ne_of_ne {α : Type} {c : Prop} [Decidable c] {a b z : α} (ha : a ≠ z) (hb : b ≠ z) :
    (if c then a else b) ≠ z := fun h => hb (eq_of_ite_eq h ha)

/-- The only word that decodes to `SOFT_RESET` (R92). -/
theorem decodeCommand_softReset {v : Word} (h : decodeCommand v = .ok .softReset) : v = softResetWord := by
  unfold decodeCommand at h
  iterate 12 replace h := eq_of_ite_eq h nofun
  by_cases hrow : rowHit v 0xFFFFFFFF 0xFF000000 = true
  · have hmask : v &&& BitVec.allOnes 32 = softResetWord := of_decide_eq_true hrow
    rwa [BitVec.and_allOnes] at hmask
  · rw [if_neg hrow] at h
    exact absurd h (ite_ne_of_ne nofun nofun)

theorem decodeToken_ne_softReset (s : Sym) : decodeToken s ≠ .softReset := by
  unfold decodeToken
  repeat refine ite_ne_of_ne nofun ?_
  nofun

theorem decodeOffset_ne_softReset (t : Sym) : decodeOffset t ≠ .softReset := by
  unfold decodeOffset
  repeat refine ite_ne_of_ne nofun ?_
  nofun

/-- No stream element is a `SOFT_RESET` (R104, R106, R108). -/
theorem decodeElement_ne_softReset (symBits : Nat) (e : StreamSymbol) : decodeElement symBits e ≠ .softReset := by
  cases e with
  | token s => exact decodeToken_ne_softReset _
  | offset t => exact decodeOffset_ne_softReset _
  | desc c => exact ite_ne_of_ne nofun nofun

/-- An input that leads to an instruction is `SOFT_RESET`'s word, or is served outside the stop state (R94, R294). -/
theorem serve_run_cases {i : Input} {j : Instr} {s t : State} (h : serve i s = .run j t) :
    t = s ∧ ((j = .softReset ∧ i = .regWrite 0 softResetWord) ∨ (j ≠ .softReset ∧ s.err = none)) := by
  obtain ⟨v, rfl, hs⟩ | ⟨_, _, -, -, hs⟩ | ⟨_, -, hs⟩ | ⟨_, _, _, -, -, hs⟩ | ⟨_, _, -, -, hs⟩ | ⟨_, _, -, -, hs⟩ |
    ⟨-, hs⟩ | ⟨e, rfl, hs⟩ := serve_cases i s <;> rw [hs] at h
  case inl =>
    obtain ⟨-, -, hc⟩ | ⟨j', herr, hd, hc⟩ | ⟨_, -, -, hc⟩ := issueCommand_cases v s <;> rw [hc] at h <;> cases h
    refine ⟨rfl, ?_⟩
    by_cases hj : j = .softReset
    · subst hj
      rw [decodeCommand_softReset hd]
      exact .inl ⟨rfl, rfl⟩
    · obtain herr | rfl := herr
      · exact .inr ⟨hj, herr⟩
      · rw [decode_softResetWord] at hd
        cases hd
        exact absurd rfl hj
  case inr.inr.inr.inr.inr.inr.inr =>
    unfold issueElement at h
    split_ifs at h with herr
    cases h
    exact ⟨rfl, .inr ⟨decodeElement_ne_softReset _ _, not_not.mp herr⟩⟩
  all_goals cases h

/-- What serving an input without an instruction leaves (R20, R73, R93, R294, R320). -/
theorem serve_done_cases {i : Input} {s t : State} (h : serve i s = .done t) :
    t = s ∨ (s.err = none ∧ t = reservedCommand s) ∨ (∃ off v, t = writeReg s off v) ∨
    (∃ v, t = s.withHostData v) ∨ (∃ m a b, hostReaches s m a = true ∧ t = hostPoke s m a b) ∨
    (∃ v, t = (s.withHostData v).withFree (s.free + 1)) ∨ (i = .hardReset ∧ t = s.resetBlock) := by
  obtain ⟨v, rfl, hs⟩ | ⟨off, v, -, -, hs⟩ | ⟨off, -, hs⟩ | ⟨m, a, b, -, hr, hs⟩ | ⟨m, a, -, -, hs⟩ | ⟨m, a, -, -, hs⟩ |
    ⟨hi, hs⟩ | ⟨e, rfl, hs⟩ := serve_cases i s <;> rw [hs] at h
  · obtain ⟨-, -, hc⟩ | ⟨j, -, -, hc⟩ | ⟨_, herr, -, hc⟩ := issueCommand_cases v s <;> rw [hc] at h <;> cases h
    · exact .inl rfl
    · exact .inr (.inl ⟨herr, rfl⟩)
  · cases h; exact .inr (.inr (.inl ⟨off, v, rfl⟩))
  · cases h; exact .inr (.inr (.inr (.inl ⟨_, rfl⟩)))
  · cases h; exact .inr (.inr (.inr (.inr (.inl ⟨m, a, b, hr, rfl⟩))))
  · cases h; exact .inr (.inr (.inr (.inr (.inr (.inl ⟨_, rfl⟩)))))
  · cases h
  · cases h; exact .inr (.inr (.inr (.inr (.inr (.inr ⟨hi, rfl⟩)))))
  · unfold issueElement at h
    split_ifs at h
    cases h
    exact .inl rfl

/-- What a step can do: wait, serve an input without an instruction, or run the instruction its input leads to (log 1). -/
theorem step_cases {s t : State} (h : step s = .next t) :
    t = s ∨ ∃ i rest, s.inputs = i :: rest ∧ (serve i (s.withInputs rest) = .done t ∨
      ∃ j, serve i (s.withInputs rest) = .run j (s.withInputs rest) ∧ exec j (s.withInputs rest) = .next t) := by
  cases hin : s.inputs with
  | nil =>
    rw [step_of_no_input hin] at h
    cases h
    exact .inl rfl
  | cons i rest =>
    refine .inr ⟨i, rest, rfl, ?_⟩
    cases hs : serve i (s.withInputs rest) with
    | done u =>
      rw [step_of_done hin hs] at h
      cases h
      exact .inl rfl
    | stop f =>
      rw [step_of_stop hin hs] at h
      cases h
    | run j u =>
      obtain ⟨rfl, -⟩ := serve_run_cases hs
      rw [step_of_run hin hs] at h
      exact .inr ⟨j, rfl, h⟩

end Sys2Proof.Machine

/-! ## The reset values and the host's registers (R22 to R32, R50) -/

namespace Sys2Proof.Machine

theorem Slot.reset_atReset (cfg : Config) : (Slot.reset cfg).atReset :=
  ⟨rfl, rfl, fun h => by simp [Slot.reset], fun j => rfl⟩

theorem State.resetOf_atReset (cfg : Config) : (State.resetOf cfg).atReset :=
  ⟨rfl, rfl, rfl, rfl, rfl, rfl, rfl, rfl, rfl, rfl, rfl, rfl, rfl, Builder.reset_atReset cfg, Slot.reset_atReset cfg,
    Slot.reset_atReset cfg, Slot.reset_atReset cfg, rfl, rfl, rfl, rfl, rfl⟩

/-- R320: a reset puts every element at its value of R50. -/
theorem State.resetBlock_atReset (s : State) : s.resetBlock.atReset := State.resetOf_atReset s.cfg

theorem statusWord_reset : statusWord State.reset = 0x000000E0 := rfl

/-- Settles O3: R50's values, entry by entry, and the word `STATUS` makes of them. -/
theorem resetStateHoldsR50Values : Obligations.ResetStateHoldsR50Values :=
  ⟨State.resetOf_atReset Config.machine, statusWord_reset⟩

/-! ### The words the host reads -/

@[simp] theorem bit1_getLsbD (b : Bool) (i : Nat) : (bit1 b).getLsbD i = (decide (i = 0) && b) := by
  cases b <;> cases i <;> simp [bit1]

/-- R24: `STATUS` bits 31:8 are 0. -/
theorem statusWord_getLsbD_of_ge (s : State) {i : Nat} (h : 8 ≤ i) : (statusWord s).getLsbD i = false := by
  rw [statusWord, zext32, BitVec.getLsbD_setWidth, BitVec.getLsbD_of_ge _ _ h, Bool.and_false]

/-- R24: which element stands in each bit of `STATUS`. -/
theorem statusWord_getLsbD (s : State) (i : Nat) : (statusWord s).getLsbD i =
    if i < 3 then (errCode s.err).getLsbD i
    else if i = 3 then s.cur.exh
    else if i = 4 then s.dictValid
    else if i = 5 then s.dict.empty
    else if i = 6 then s.sym.empty
    else if i = 7 then s.copy.empty
    else false := by
  by_cases h : i < 8
  · unfold statusWord zext32
    simp only [BitVec.getLsbD_setWidth, BitVec.getLsbD_append, bit1_getLsbD]
    interval_cases i <;> simp
  · simp only [statusWord_getLsbD_of_ge s (Nat.le_of_not_lt h), show ¬ i < 3 by omega, show i ≠ 3 by omega,
      show i ≠ 4 by omega, show i ≠ 5 by omega, show i ≠ 6 by omega, show i ≠ 7 by omega, if_false]

/-- R27: `IN_PRESENT` and `OUT_PRESENT` are bits 0 and 1 of `CTRL`, and the other bits are 0. -/
theorem ctrlWord_fields (s : State) :
    (ctrlWord s).getLsbD 0 = s.inPresent ∧ (ctrlWord s).getLsbD 1 = s.outPresent ∧ (ctrlWord s).toNat < 4 := by
  refine ⟨?_, ?_, ?_⟩
  · simp only [ctrlWord, zext32, BitVec.getLsbD_setWidth, BitVec.getLsbD_append, bit1_getLsbD]
    simp
  · simp only [ctrlWord, zext32, BitVec.getLsbD_setWidth, BitVec.getLsbD_append, bit1_getLsbD]
    simp
  · have h := (bit1 s.outPresent ++ bit1 s.inPresent).isLt
    rw [ctrlWord, zext32, BitVec.toNat_setWidth]
    omega

theorem curBitsWord_toNat (s : State) : (curBitsWord s).toNat = s.cur.bits.toNat := by
  have h := s.cur.bits.isLt
  rw [curBitsWord, zext32, BitVec.toNat_setWidth]
  omega

/-! ### Register accesses -/

theorem step_regRead {s : State} {off : Word} {rest : List Input} (h : s.inputs = .regRead off :: rest) :
    step s = .next ((s.withInputs rest).withHostData (readReg s off)) := step_of_done h rfl

theorem step_regWrite {s : State} {off v : Word} {rest : List Input} (h : s.inputs = .regWrite off v :: rest)
    (hoff : off ≠ 0) : step s = .next (writeReg (s.withInputs rest) off v) := step_of_done h (if_neg hoff)

/-- Settles O8: the bits of `statusWord` and the two accesses at 0x04. -/
theorem statusFields : Obligations.StatusFields := by
  refine ⟨statusWord_reset, fun s rest => ⟨step_regRead, fun v h => step_regWrite h (by decide)⟩, fun s => ?_⟩
  refine ⟨?_, statusWord_getLsbD s 3, statusWord_getLsbD s 4, statusWord_getLsbD s 5, statusWord_getLsbD s 6,
    statusWord_getLsbD s 7, ?_⟩
  · have hcode : (statusWord s).extractLsb' 0 3 = errCode s.err := by
      ext i hi
      rw [BitVec.getElem_extractLsb', Nat.zero_add, statusWord_getLsbD, if_pos hi, BitVec.getLsbD_eq_getElem hi]
    rw [hcode]
    rcases s.err with _ | _ | _ | _ | _ <;> rfl
  · ext i hi
    rw [BitVec.getElem_extractLsb', statusWord_getLsbD_of_ge s (Nat.le_add_right 8 i)]
    exact (BitVec.getElem_zero hi).symm

/-- Settles O9: the value read is `readReg`, offset by offset. -/
theorem registerReads : Obligations.RegisterReads := by
  intro s off rest h
  refine ⟨readReg s off, step_regRead h, ?_, ?_, ?_, ?_, ?_, ?_, ?_, ?_, ?_, ?_⟩
  case refine_4 => rintro rfl; exact ctrlWord_fields s
  case refine_9 => rintro rfl; exact curBitsWord_toNat s
  case refine_10 =>
    intro hoff
    simp only [List.mem_cons, List.not_mem_nil, or_false, not_or] at hoff
    obtain ⟨h₁, h₂, h₃, h₄, h₅, h₆, h₇, h₈, h₉⟩ := hoff
    rw [readReg, if_neg h₁, if_neg h₂, if_neg h₃, if_neg h₄, if_neg h₅, if_neg h₆, if_neg h₇, if_neg h₈, if_neg h₉]
  all_goals rintro rfl; rfl

/-- Settles O10: `writeReg` offset by offset, with `supplyOut` as `OUT_PRESENT` says. -/
theorem registerWrites : Obligations.RegisterWrites := by
  intro s off v rest h hoff
  rw [step_regWrite h hoff, writeReg, supplyOut]
  cases v.getLsbD 1 <;> rfl

end Sys2Proof.Machine

/-! ## The machine's invariant (R39 to R41, R44 to R48, R67, R172, R303)

One rule per update of the state says what it needs to keep a sound state sound; every primitive of the instructions then
has its rule, and `exec_cases` carries them to each instruction. -/

namespace Sys2Proof.Machine

/-! ### Parts of the invariant -/

/-- A window of zeros, as R141 and a reset leave it. -/
theorem Cursor.init_zeroFilled (inLen : Word) : (Cursor.init inLen).zeroFilled := by
  simp [Cursor.zeroFilled, Cursor.init, Cursor.window, Cursor.reset]

theorem Cursor.reset_zeroFilled : Cursor.reset.zeroFilled := rfl

/-- R39, R145: a word merged below the valid bits fills the 32 bits that become valid. -/
theorem Cursor.merge_zeroFilled {c : Cursor} (h : c.zeroFilled) (hb : c.bits.toNat < 32) (p : Nat) (v : Word) :
    (c.merge p v).zeroFilled := by
  unfold Cursor.zeroFilled at h ⊢
  rw [Cursor.merge_bits p v hb, Cursor.merge_window, BitVec.shiftLeft_or_distrib, BitVec.shiftLeft_add, h,
    show (0 : BitVec 64) <<< 32 = 0 from BitVec.zero_shiftLeft 32, ← BitVec.shiftLeft_add,
    show 32 - c.bits.toNat + (c.bits.toNat + 32) = 64 by omega,
    BitVec.shiftLeft_eq_zero (Nat.le_refl 64)]
  exact BitVec.or_zero

/-- R39, R148: dropped bits leave the window at its top and zeros follow at its bottom. -/
theorem Cursor.dropped_zeroFilled {c : Cursor} (h : c.zeroFilled) {n : Nat} (hn : n ≤ c.bits.toNat) :
    (c.dropped n).zeroFilled := by
  unfold Cursor.zeroFilled at h ⊢
  rw [Cursor.dropped_window, Cursor.dropped_bits hn, ← BitVec.shiftLeft_add, Nat.add_sub_cancel' hn, h]

theorem Cursor.need_zeroFilled {cfg : Config} {m : Memory} {c c' : Cursor} {n : Nat} (h : c.zeroFilled)
    (hn : c.need cfg m n = .ok c') : c'.zeroFilled := by
  obtain ⟨-, he⟩ | ⟨h32, hlt, he⟩ | ⟨-, -, he⟩ := Cursor.need_cases hn
  · cases he
  · have hb : c.bits.toNat < 32 := by omega
    obtain ⟨-, -, hp⟩ | ⟨-, -, hp⟩ | ⟨-, hp⟩ := Cursor.pull_cases he.symm <;> cases hp
    · exact Cursor.merge_zeroFilled (c := { c with exh := true }) h hb _ _
    · exact Cursor.merge_zeroFilled h hb _ _
  · cases he; exact h

theorem Cursor.drop_zeroFilled {c c' : Cursor} {n : Nat} (h : c.zeroFilled) (hd : c.drop n = .ok c') :
    c'.zeroFilled := by
  obtain ⟨-, he⟩ | ⟨-, hn, he⟩ := Cursor.drop_cases hd <;> cases he
  exact Cursor.dropped_zeroFilled h hn

/-- Adding a table in order keeps the builder's invariant. -/
theorem Builder.addAll_keeps {cfg : Config} (hc : cfg.maxSymbols ≤ 2 ^ cfg.symBits) {l : List (Sym × BitVec 6)}
    {b b' : Builder} (hs : b.shaped cfg) (hf : b.fits cfg) (hl : b.linked cfg) (ha : b.addAll cfg l = .ok b') :
    b'.fits cfg ∧ b'.linked cfg := by
  induction l generalizing b with
  | nil => cases ha; exact ⟨hf, hl⟩
  | cons p l ih =>
    rw [Builder.addAll] at ha
    split at ha
    · rename_i hadd
      exact ih (Builder.add_shaped hs hadd) (Builder.add_fits hc hf hadd) (Builder.add_linked hs hl hadd) ha
    · cases ha

/-- A copy of a provided OUT's bytes stays below `EFF` (R258). -/
theorem copyRun_read?_of_le {off eff n pos a : Nat} {m : Memory} (ho : 1 ≤ off) (h : off ≤ pos) (ha : eff ≤ a) :
    (copyRun off eff n pos m).2.read? a = m.read? a :=
  (copyRun_spec ho h).2.2 a (by omega)

/-! ### One rule per update of the state -/

namespace State.sound

variable {s : State}

theorem withInputs (h : s.sound) (x : List Input) : (s.withInputs x).sound := h
theorem withHostData (h : s.sound) (x : Word) : (s.withHostData x).sound := h
theorem withFree (h : s.sound) (x : Nat) : (s.withFree x).sound := h
theorem withResult (h : s.sound) (x : Word) : (s.withResult x).sound := h
theorem withOutSize (h : s.sound) (x : Word) : (s.withOutSize x).sound := h
theorem withInLen (h : s.sound) (x : Word) : (s.withInLen x).sound := h

theorem withCur (h : s.sound) {c : Cursor} (hc : s.err = none → c.zeroFilled) : (s.withCur c).sound := by
  obtain ⟨hcfg, hin, hout, hbs, hss, hbf, hsf, hdf, hob, herr, hgood⟩ := h
  exact ⟨hcfg, hin, hout, hbs, hss, hbf, hsf, hdf, hob, herr, fun he => ⟨hc he, (hgood he).2⟩⟩

theorem withBld (h : s.sound) {b : Builder} (hs : b.shaped s.cfg) (hf : b.fits s.cfg)
    (hl : s.err = none → b.linked s.cfg) : (s.withBld b).sound := by
  obtain ⟨hcfg, hin, hout, -, hss, -, hsf, hdf, hob, herr, hgood⟩ := h
  refine ⟨hcfg, hin, hout, hs, hss, hf, hsf, hdf, hob, herr, fun he => ?_⟩
  obtain ⟨hz, -, hbuilt, hdict⟩ := hgood he
  exact ⟨hz, hl he, hbuilt, hdict⟩

/-- What a slot write needs: the new slot is one that some `BUILD` fills, and a valid `DICT` slot stays that of the table. -/
theorem withSlot (h : s.sound) {t : SlotId} {x : Slot} (hs : x.shaped s.cfg) (hf : x.fits s.cfg)
    (hb : x.built s.cfg) (hd : t = .dict → s.dictValid = true → ∃ b, dictTables s.cfg = .ok (b, x)) :
    (s.withSlot t x).sound := by
  have hslot : ∀ P : Slot → Prop, P x → (∀ u, P (s.slot u)) → ∀ u, P ((s.withSlot t x).slot u) := by
    intro P hx hall u
    by_cases hu : u = t
    · subst hu; rw [State.slot_withSlot]; exact hx
    · rw [State.slot_withSlot_of_ne s hu]; exact hall u
  obtain ⟨hcfg, hin, hout, hbs, hss, hbf, hsf, hdf, hob, herr, hgood⟩ := h
  unfold State.sound State.outBounded
  simp only [State.withSlot_cfg, State.withSlot_err, State.withSlot_inMem, State.withSlot_outMem, State.withSlot_bld,
    State.withSlot_dec, State.withSlot_outPresent, State.withSlot_outLen, State.withSlot_cur, State.withSlot_dictValid]
  refine ⟨hcfg, hin, hout, hbs, hslot _ hs hss, hbf, hslot _ hf hsf, hdf, hob, herr, fun he => ?_⟩
  obtain ⟨hz, hl, hbuilt, hdict⟩ := hgood he
  refine ⟨hz, hl, hslot _ hb hbuilt, fun hv => ?_⟩
  cases t with
  | dict => exact hd rfl hv
  | sym => exact hdict hv
  | copy => exact hdict hv

theorem maxSymbols_le (h : s.sound) : s.cfg.maxSymbols ≤ 2 ^ s.cfg.symBits := by
  obtain ⟨⟨-, -, -, -, hsym, -⟩, -⟩ := h
  exact hsym

/-- The first use of the dictionary (R180, R181). -/
theorem withDictTables (h : s.sound) {b : Builder} {x : Slot} (ht : dictTables s.cfg = .ok (b, x)) :
    (((s.withBld b).withDict x).withDictValid true).sound := by
  obtain ⟨hadd, hbuild⟩ := dictTables_eq_ok.mp ht
  have hshaped := Builder.reset_shaped s.cfg
  obtain ⟨hfits, hlinked⟩ :=
    Builder.addAll_keeps h.maxSymbols_le hshaped (Builder.reset_fits _) (Builder.reset_linked _) hadd
  have hslot := (h.withBld (Builder.addAll_shaped hshaped hadd) hfits fun _ => hlinked).withSlot (t := .dict)
    (Builder.build_shaped hbuild) (Builder.build_fits hfits hbuild) (.inr ⟨b, hbuild⟩) fun _ _ => ⟨b, ht⟩
  obtain ⟨hcfg, hin, hout, hbs, hss, hbf, hsf, hdf, hob, herr, hgood⟩ := hslot
  refine ⟨hcfg, hin, hout, hbs, hss, hbf, hsf, hdf, hob, herr, fun he => ?_⟩
  obtain ⟨hz, hl, hbuilt, -⟩ := hgood he
  exact ⟨hz, hl, hbuilt, fun _ => ⟨b, ht⟩⟩

/-- The decoder's registers, `EFF` apart (R48). -/
theorem withDec (h : s.sound) {d : Decoder} (hf : d.fits s.cfg) (he : d.eff = s.dec.eff) : (s.withDec d).sound := by
  obtain ⟨hcfg, hin, hout, hbs, hss, hbf, hsf, -, ⟨hown, hlen⟩, herr, hgood⟩ := h
  refine ⟨hcfg, hin, hout, hbs, hss, hbf, hsf, hf, ⟨hown, fun n hn => ?_⟩, herr, hgood⟩
  obtain ⟨heff, hread⟩ := hlen n hn
  exact ⟨he ▸ heff, hread⟩

/-- OUT: the bytes at and past the length of a provided one stay unknown (R67). -/
theorem withOutMem (h : s.sound) {m : Memory} (hm : m.wf = true)
    (hread : ∀ n, s.outLen = some n → ∀ a, n.toNat ≤ a → m.read? a = s.outMem.read? a) : (s.withOutMem m).sound := by
  obtain ⟨hcfg, hin, -, hbs, hss, hbf, hsf, hdf, ⟨hown, hlen⟩, herr, hgood⟩ := h
  refine ⟨hcfg, hin, hm, hbs, hss, hbf, hsf, hdf, ⟨hown, fun n hn => ?_⟩, herr, hgood⟩
  obtain ⟨heff, hnone⟩ := hlen n hn
  exact ⟨heff, fun a ha => (hread n hn a ha).trans (hnone a ha)⟩

theorem withInMem (h : s.sound) {m : Memory} (hm : m.wf = true) : (s.withInMem m).sound := by
  obtain ⟨hcfg, -, hrest⟩ := h
  exact ⟨hcfg, hm, hrest⟩

/-- `EFF` does not pass the length of a provided OUT (R258). -/
theorem eff_le (h : s.sound) {n : Word} (hn : s.outLen = some n) : s.dec.eff.toNat ≤ n.toNat := by
  obtain ⟨-, -, -, -, -, -, -, -, ⟨-, hlen⟩, -⟩ := h
  exact (hlen n hn).1

theorem dec_fits (h : s.sound) : s.dec.fits s.cfg := by
  obtain ⟨-, -, -, -, -, -, -, hdf, -⟩ := h
  exact hdf

theorem outMem_wf (h : s.sound) : s.outMem.wf = true := by
  obtain ⟨-, -, hout, -⟩ := h
  exact hout

theorem err_ne (h : s.sound) : s.err ≠ some .unsupported := by
  obtain ⟨-, -, -, -, -, -, -, -, -, herr, -⟩ := h
  exact herr

theorem bld_shaped_fits_linked (h : s.sound) : s.bld.shaped s.cfg ∧ s.bld.fits s.cfg ∧ (s.err = none → s.bld.linked s.cfg) := by
  obtain ⟨-, -, -, hbs, -, hbf, -, -, -, -, hgood⟩ := h
  refine ⟨hbs, hbf, fun he => ?_⟩
  obtain ⟨-, hl, -⟩ := hgood he
  exact hl

theorem zeroFilled (h : s.sound) (he : s.err = none) : s.cur.zeroFilled := by
  obtain ⟨-, -, -, -, -, -, -, -, -, -, hgood⟩ := h
  exact (hgood he).1

/-- A host that has `OUT_PRESENT` set supplies OUT (R27). -/
theorem outLen_eq_none (h : s.sound) (hp : s.outPresent = true) : s.outLen = none := by
  obtain ⟨-, -, -, -, -, -, -, -, ⟨hown, -⟩, -⟩ := h
  exact hown hp

/-! ### Every primitive of the instructions -/

/-- A byte written below `EFF` (R250, R258). -/
theorem literal (h : s.sound) (b : Byte) (hlt : s.dec.outPos < s.dec.eff) :
    ((s.withOutMem (s.outMem.write s.dec.outPos.toNat b)).withDec { s.dec with outPos := s.dec.outPos + 1 }).sound := by
  refine State.sound.withDec (h.withOutMem (Memory.write_wf b s.dec.outPos.isLt h.outMem_wf) fun n hn a ha => ?_)
    h.dec_fits rfl
  have hle := h.eff_le hn
  have hlt' : s.dec.outPos.toNat < s.dec.eff.toNat := hlt
  rw [Memory.read?_write, if_neg (by omega)]

theorem copyBytes (h : s.sound) {size off : Nat} (ho : 1 ≤ off) (hle : off ≤ s.dec.outPos.toNat) :
    (copyBytes size off s).sound := by
  refine State.sound.withDec (h.withOutMem ?_ fun n hn a ha => ?_) h.dec_fits rfl
  · exact copyRun_wf (Nat.le_of_lt s.dec.eff.isLt) h.outMem_wf
  · exact copyRun_read?_of_le ho hle (Nat.le_trans (h.eff_le hn) ha)

/-- The output that `DAT_DECODE` starts: the host's, or one of the block's of `EFF` bytes, none of them known (R245). -/
theorem startOutput (h : s.sound) (declared : Word) : (startOutput declared s).sound := by
  obtain ⟨hcfg, hin, hout, hbs, hss, hbf, hsf, hdf, ⟨hown, -⟩, herr, hgood⟩ := h
  unfold Machine.startOutput
  dsimp only
  split
  · rename_i hp
    refine ⟨hcfg, hin, hout, hbs, hss, hbf, hsf, hdf, ⟨hown, fun n hn => ?_⟩, herr, hgood⟩
    exact absurd ((hown hp).symm.trans hn) nofun
  · rename_i hp
    refine ⟨hcfg, hin, rfl, hbs, hss, hbf, hsf, hdf, ⟨fun hp' => absurd hp' hp, fun n hn => ?_⟩, herr, hgood⟩
    cases hn
    exact ⟨BitVec.le_refl _, fun _ _ => rfl⟩

end State.sound

/-- A sound state stays sound. -/
def KeepsSound (s t : State) : Prop := s.sound → t.sound

theorem keepsSound_descStable {t : SlotId} (ht : t ≠ .dict) : DescStable t KeepsSound where
  refl _ h := h
  trans _ _ _ hab hbc h := hbc (hab h)
  need _ _ _ hc h := h.withCur fun he => Cursor.need_zeroFilled (h.zeroFilled he) hc
  drop _ _ _ hc h := h.withCur fun he => Cursor.drop_zeroFilled (h.zeroFilled he) hc
  dict _ _ _ _ hd h := h.withDictTables hd
  clear _ h := h.withBld (Builder.reset_shaped _) (Builder.reset_fits _) fun _ => Builder.reset_linked _
  add _ _ _ _ hb h := by
    obtain ⟨hs, hf, hl⟩ := h.bld_shaped_fits_linked
    exact h.withBld (Builder.add_shaped hs hb) (Builder.add_fits h.maxSymbols_le hf hb)
      fun he => Builder.add_linked hs (hl he) hb
  build _ _ hx h := by
    obtain ⟨-, hf, -⟩ := h.bld_shaped_fits_linked
    exact h.withSlot (Builder.build_shaped hx) (Builder.build_fits hf hx) (.inr ⟨_, hx⟩) fun hd => absurd hd ht
  rem _ _ h := h.withDec h.dec_fits rfl

/-- Every primitive of every instruction keeps a sound state sound. -/
theorem keepsSound_execStable (i : Instr) : ExecStable i KeepsSound where
  toDictStable := (keepsSound_descStable (t := .sym) nofun).toDictStable
  size _ _ h := h.withDec h.dec_fits rfl
  lit _ b hlt h := h.literal b hlt
  copy _ _ ho hle h := h.copyBytes ho hle
  desc _ ht := keepsSound_descStable ht
  constAdd _ _ h := h.withDec h.dec_fits rfl
  maxCount _ _ h := h.withDec ⟨countReg_lt _ _, Nat.two_pow_pos _⟩ rfl
  count _ _ h := h.withDec ⟨h.dec_fits.1, countReg_lt _ _⟩ rfl
  init _ h := h.withCur fun _ => Cursor.init_zeroFilled _
  result _ _ v h := h.withResult v
  outSize _ _ v h := h.withOutSize v
  output _ _ declared h := h.startOutput declared

/-! ### Errors, reset, and the host's accesses -/

theorem outAfterError_wf {s : State} (h : s.sound) : (outAfterError s).wf = true := by
  unfold outAfterError
  split
  · exact Memory.eraseBelow_wf _ h.outMem_wf
  · rfl

/-- R257, R293: after an error no OUT is the block's. -/
theorem outLenAfterError_eq_none {s : State} (h : s.sound) : outLenAfterError s = none := by
  unfold outLenAfterError
  split
  · exact h.outLen_eq_none ‹_›
  · rfl

namespace State.sound

variable {s : State}

/-- R292, R293: an error of a kind that some rule raises. -/
theorem raise (h : s.sound) {c : Cause} (hc : c.kind ≠ .unsupported) : (s.raise c).sound := by
  have hlen := outLenAfterError_eq_none h
  have hout := outAfterError_wf h
  have herr := h.err_ne
  obtain ⟨hcfg, hin, -⟩ := h
  refine ⟨hcfg, hin, hout, freeBuilder_shaped _ _, fun t => ?_, freeBuilder_fits _ _, fun t => ?_, freeDecoder_fits _ _,
    ⟨fun _ => hlen, fun n hn => absurd (hlen.symm.trans hn) nofun⟩, ?_, nofun⟩
  · cases t <;> exact freeSlot_shaped _ _ _
  · cases t <;> exact freeSlot_fits _ _ _
  · cases he : s.err with
    | none => simpa [he] using hc
    | some k => simpa [he] using herr

/-- R91, R93: a reserved command. -/
theorem reservedCommand (h : s.sound) : (reservedCommand s).sound := by
  have herr := h.err_ne
  obtain ⟨hcfg, hin, hout, hbs, hss, hbf, hsf, hdf, hob, -⟩ := h
  refine ⟨hcfg, hin, hout, hbs, hss, hbf, hsf, hdf, hob, ?_, nofun⟩
  cases he : s.err with
  | none => simp [Machine.reservedCommand, State.setErr, he]
  | some k => simpa [Machine.reservedCommand, State.setErr, he] using herr

end State.sound

theorem State.resetOf_sound {cfg : Config} (hc : cfg.wf) : (State.resetOf cfg).sound := by
  refine ⟨hc, rfl, rfl, Builder.reset_shaped _, fun t => ?_, Builder.reset_fits _, fun t => ?_, Decoder.reset_fits _,
    ⟨nofun, nofun⟩, nofun, fun _ => ⟨Cursor.reset_zeroFilled, Builder.reset_linked _, fun t => ?_, nofun⟩⟩
  · cases t <;> exact Slot.reset_shaped _
  · cases t <;> exact Slot.reset_fits _
  · cases t <;> exact .inl rfl

/-- Settles O59: the parameters of the machine are in their ranges. -/
theorem resetIsSound : Obligations.ResetIsSound :=
  ⟨State.resetOf_sound (by decide), fun _ => State.resetOf_sound⟩

namespace State.sound

variable {s : State}

/-- R320: a reset leaves IN and OUT, and `EFF` at 0. -/
theorem resetBlock (h : s.sound) : s.resetBlock.sound := by
  obtain ⟨hcfg, hin, hout, -, -, -, -, -, ⟨-, hlen⟩, -⟩ := h
  obtain ⟨-, -, -, hbs, hss, hbf, hsf, hdf, -, herr, hgood⟩ := State.resetOf_sound hcfg
  exact ⟨hcfg, hin, hout, hbs, hss, hbf, hsf, hdf, ⟨nofun, fun n hn => ⟨Nat.zero_le _, (hlen n hn).2⟩⟩, herr, hgood⟩

/-- R27: a write of `CTRL`; with `OUT_PRESENT` = 1 no OUT is the block's any more (log 14). -/
theorem writeCtrl (h : s.sound) (i o : Bool) : (supplyOut o (s.withPresent i o)).sound := by
  obtain ⟨hcfg, hin, hout, hbs, hss, hbf, hsf, hdf, ⟨-, hlen⟩, herr, hgood⟩ := h
  cases o with
  | true => exact ⟨hcfg, hin, hout, hbs, hss, hbf, hsf, hdf, ⟨fun _ => rfl, nofun⟩, herr, hgood⟩
  | false => exact ⟨hcfg, hin, hout, hbs, hss, hbf, hsf, hdf, ⟨nofun, hlen⟩, herr, hgood⟩

theorem writeReg (h : s.sound) (off v : Word) : (writeReg s off v).sound := by
  unfold Machine.writeReg
  split
  · exact h.withInLen v
  · split
    · exact h.writeCtrl _ _
    · split
      · exact h.withOutSize v
      · exact h

/-- R20, R67: the host writes IN, or a byte that its OUT has. -/
theorem hostPoke (h : s.sound) {m : MemSel} {a : Word} (hr : hostReaches s m a = true) (b : Byte) :
    (hostPoke s m a b).sound := by
  cases m with
  | input =>
    obtain ⟨-, hin, -⟩ := id h
    exact h.withInMem (Memory.write_wf b a.isLt hin)
  | output =>
    refine h.withOutMem (Memory.write_wf b a.isLt h.outMem_wf) fun n hn x hx => ?_
    have hlt : a.toNat < n.toNat := by simpa [hostReaches, hn, BitVec.lt_def] using hr
    rw [Memory.read?_write, if_neg (by omega)]

theorem exec {i : Instr} {t : State} (h : s.sound) (he : exec i s = .next t) : t.sound := by
  by_cases hi : i = .softReset
  · subst hi
    cases he
    exact h.resetBlock
  · obtain rfl | ht | ⟨c, u, hu, hc, rfl⟩ := exec_next_cases (keepsSound_execStable i) hi he
    · exact h.reservedCommand
    · exact ht h
    · exact (hu h).raise hc

end State.sound

/-- Settles O60: an instruction keeps the invariant by `State.sound.exec`, and an input that leads to none by the rule of
the update it makes. -/
theorem everyStepKeepsSound : Obligations.EveryStepKeepsSound := by
  intro s t h hstep
  obtain rfl | ⟨i, rest, -, hdone | ⟨j, -, hexec⟩⟩ := step_cases hstep
  · exact h
  · have h' := h.withInputs rest
    obtain rfl | ⟨-, rfl⟩ | ⟨off, v, rfl⟩ | ⟨v, rfl⟩ | ⟨m, a, b, hr, rfl⟩ | ⟨v, rfl⟩ | ⟨-, rfl⟩ := serve_done_cases hdone
    · exact h'
    · exact h'.reservedCommand
    · exact h'.writeReg off v
    · exact h'.withHostData v
    · exact h'.hostPoke hr b
    · exact (h'.withHostData v).withFree _
    · exact h'.resetBlock
  · exact (h.withInputs rest).exec hexec

/-! ## The dictionary is frozen (R47, R322) -/

/-- A dictionary that is built stays built, and stays what it is. -/
def KeepsDict (s t : State) : Prop := s.dictValid = true → t.dictValid = true ∧ t.dict = s.dict

theorem KeepsDict.of_eq {s t : State} (hv : t.dictValid = s.dictValid) (hd : t.dict = s.dict) : KeepsDict s t :=
  fun h => ⟨hv.trans h, hd⟩

theorem KeepsDict.trans {s t u : State} (h : KeepsDict s t) (h' : KeepsDict t u) : KeepsDict s u := by
  intro hv
  obtain ⟨hvt, hdt⟩ := h hv
  obtain ⟨hvu, hdu⟩ := h' hvt
  exact ⟨hvu, hdu.trans hdt⟩

theorem keepsDict_descStable {t : SlotId} (ht : t ≠ .dict) : DescStable t KeepsDict where
  refl _ := .of_eq rfl rfl
  trans _ _ _ h h' := h.trans h'
  need _ _ _ _ := .of_eq rfl rfl
  drop _ _ _ _ := .of_eq rfl rfl
  dict _ _ _ hv _ h := absurd (hv.symm.trans h) nofun
  clear _ := .of_eq rfl rfl
  add _ _ _ _ _ := .of_eq rfl rfl
  build s x _ := by
    cases t with
    | dict => exact absurd rfl ht
    | sym => exact .of_eq rfl rfl
    | copy => exact .of_eq rfl rfl
  rem _ _ := .of_eq rfl rfl

theorem keepsDict_execStable (i : Instr) : ExecStable i KeepsDict where
  toDictStable := (keepsDict_descStable (t := .sym) nofun).toDictStable
  size _ _ := .of_eq rfl rfl
  lit _ _ _ := .of_eq rfl rfl
  copy _ _ _ _ := .of_eq rfl rfl
  desc _ ht := keepsDict_descStable ht
  constAdd _ _ := .of_eq rfl rfl
  maxCount _ _ := .of_eq rfl rfl
  count _ _ := .of_eq rfl rfl
  init _ := .of_eq rfl rfl
  result _ _ _ := .of_eq rfl rfl
  outSize _ _ _ := .of_eq rfl rfl
  output _ s declared := by
    unfold startOutput
    dsimp only
    split <;> exact .of_eq rfl rfl

/-- R47: an instruction but `SOFT_RESET` that leaves no error keeps a dictionary that is built. -/
theorem exec_keepsDict {i : Instr} (hi : i ≠ .softReset) {s t : State} (he : exec i s = .next t) (ht : t.err = none) :
    KeepsDict s t := by
  obtain rfl | h | ⟨c, u, -, -, rfl⟩ := exec_next_cases (keepsDict_execStable i) hi he
  · cases ht
  · exact h
  · cases ht

theorem writeReg_keepsDict (s : State) (off v : Word) : KeepsDict s (writeReg s off v) := by
  unfold writeReg supplyOut
  split_ifs <;> exact .of_eq rfl rfl

theorem hostPoke_keepsDict (s : State) (m : MemSel) (a : Word) (b : Byte) : KeepsDict s (hostPoke s m a b) := by
  cases m <;> exact .of_eq rfl rfl

/-- Settles O39: an input that is no reset keeps the dictionary, itself or by the instruction it leads to. -/
theorem dictionaryIsFrozen : Obligations.DictionaryIsFrozen := by
  intro s t hstep _ ht hv
  obtain rfl | ⟨i, rest, hin, hdone | ⟨j, hrun, hexec⟩⟩ := step_cases hstep
  · exact .inl ⟨hv, rfl⟩
  · obtain rfl | ⟨-, rfl⟩ | ⟨off, v, rfl⟩ | ⟨v, rfl⟩ | ⟨m, a, b, -, rfl⟩ | ⟨v, rfl⟩ | ⟨rfl, rfl⟩ := serve_done_cases hdone
    · exact .inl ⟨hv, rfl⟩
    · cases ht
    · exact .inl (writeReg_keepsDict _ off v hv)
    · exact .inl ⟨hv, rfl⟩
    · exact .inl (hostPoke_keepsDict _ m a b hv)
    · exact .inl ⟨hv, rfl⟩
    · exact .inr ⟨State.resetBlock_atReset _, rest, .inl hin⟩
  · obtain ⟨-, ⟨rfl, rfl⟩ | ⟨hj, -⟩⟩ := serve_run_cases hrun
    · cases hexec
      exact .inr ⟨State.resetBlock_atReset _, rest, .inr hin⟩
    · have hkeep := exec_keepsDict hj hexec ht
      exact .inl (hkeep hv)

end Sys2Proof.Machine

/-! ## IN and OUT (R60 to R67)

Which instructions store to OUT, what an input word is, and what a `DAT_DECODE` leaves of OUT. -/

namespace Sys2Proof.Machine

variable {s t u : State}

/-! ### Input words (R62) -/

theorem inWordByte_of_read? {m : Memory} {p k : Nat} {b : Byte} (hk : 4 * p + k < 2 ^ 32)
    (h : m.read? (4 * p + k) = some b) : inWordByte m p k = b := by
  rw [inWordByte, Nat.mod_eq_of_lt hk, inByte, h, Option.getD_some]

theorem append_byte_toNat {n : Nat} (v : BitVec n) (b : Byte) : (v ++ b).toNat = v.toNat * 2 ^ 8 + b.toNat := by
  rw [BitVec.toNat_append, ← Nat.shiftLeft_add_eq_or_of_lt b.isLt, Nat.shiftLeft_eq]

/-- The value of an input word is that of its bytes, the byte at the lowest address lowest. -/
theorem inWord_toNat (m : Memory) (p : Nat) : (inWord m p).toNat =
    (inWordByte m p 0).toNat + (inWordByte m p 1).toNat * 2 ^ 8 + (inWordByte m p 2).toNat * 2 ^ 16 +
      (inWordByte m p 3).toNat * 2 ^ 24 := by
  rw [inWord, append_byte_toNat, append_byte_toNat, append_byte_toNat]
  omega

/-- Settles O21: each byte of the word is the memory's, and four bytes append to their little-endian sum. -/
theorem inputWordsAreLittleEndian : Obligations.InputWordsAreLittleEndian := by
  intro m p b₀ b₁ b₂ b₃ hp h₀ h₁ h₂ h₃
  rw [inWord_toNat, inWordByte_of_read? (by omega) h₀, inWordByte_of_read? (by omega) h₁,
    inWordByte_of_read? (by omega) h₂, inWordByte_of_read? hp h₃]

/-! ### What stores nothing (R66) -/

/-- `t` has the OUT of `s`: its bytes, and its length where the block provided it. -/
structure KeepsOut (s t : State) : Prop where
  outMem : t.outMem = s.outMem
  outLen : t.outLen = s.outLen

theorem KeepsOut.refl (s : State) : KeepsOut s s := ⟨rfl, rfl⟩

theorem KeepsOut.trans (h : KeepsOut s t) (h' : KeepsOut t u) : KeepsOut s u :=
  ⟨h'.outMem.trans h.outMem, h'.outLen.trans h.outLen⟩

theorem keepsOut_descStable (t : SlotId) : DescStable t KeepsOut where
  refl := KeepsOut.refl
  trans _ _ _ h h' := h.trans h'
  need _ _ _ _ := ⟨rfl, rfl⟩
  drop _ _ _ _ := ⟨rfl, rfl⟩
  dict _ _ _ _ _ := ⟨rfl, rfl⟩
  clear _ := ⟨rfl, rfl⟩
  add _ _ _ _ _ := ⟨rfl, rfl⟩
  build s x _ := ⟨s.withSlot_outMem t x, s.withSlot_outLen t x⟩
  rem _ _ := ⟨rfl, rfl⟩

theorem keepsOut_dictStable : DictStable KeepsOut := (keepsOut_descStable .sym).toDictStable

theorem Res.Leads.andThen_putResult {α : Type} {r : Res α} (h : r.Leads KeepsOut s) (v : α → Word) :
    (r.andThen fun a s => putResult (v a) s).Leads KeepsOut s :=
  h.andThen keepsOut_dictStable.trans fun _ _ => ⟨rfl, rfl⟩

/-- A copy symbol sets the size alone; the offset symbol after it does the copy (R251, R252). -/
theorem copySymbol_keepsOut (code : Nat) (s : State) : (copySymbol code s).Leads KeepsOut s :=
  (writeSize_leads keepsOut_dictStable.toCursorStable code s).andThen keepsOut_dictStable.trans fun _ _ =>
    ⟨rfl, rfl⟩

/-- What an instruction does that is no `DAT_DECODE`, no literal and no offset symbol: it is reserved, or a reset, or its
work keeps OUT, be it to a value or to a raise. -/
theorem exec_storeless_cases {i : Instr} (hdat : i ≠ .datDecode) (hlit : ∀ b, i ≠ .lit b)
    (hoff : ∀ x, encode i ≠ .element (.offset x)) (s : State) :
    exec i s = .next (reservedCommand s) ∨ exec i s = .next s.resetBlock ∨
    ∃ r : Res Unit, exec i s = finish r ∧ r.Leads KeepsOut s := by
  have hc : CursorStable KeepsOut := keepsOut_dictStable.toCursorStable
  have hrefl := KeepsOut.refl s
  cases i with
  | softReset => exact .inr (.inl rfl)
  | nop => exact .inr (.inr ⟨.ok () s, rfl, hrefl⟩)
  | curInit =>
    refine .inr (.inr ⟨_, rfl, ?_⟩)
    split
    · exact ⟨rfl, rfl⟩
    · exact hrefl
  | curNeed nb => exact .inr (.inr ⟨_, rfl, needBits_leads hc _ s⟩)
  | curRead nb => exact .inr (.inr ⟨_, rfl, (readBits_leads hc _ s).andThen_putResult id⟩)
  | curDrop nb => exact .inr (.inr ⟨_, rfl, dropBits_leads hc _ s⟩)
  | bldClear => exact .inr (.inr ⟨_, rfl, rfl, rfl⟩)
  | bldAdd nb sy => exact .inr (.inr ⟨_, rfl, addSymbol_leads (keepsOut_descStable .sym) _ _ s⟩)
  | bldBuild tr =>
    cases tr with
    | rsv => exact .inl rfl
    | dict => exact .inr (.inr ⟨_, rfl, hrefl⟩)
    | sym => exact .inr (.inr ⟨_, rfl, buildSlot_leads (keepsOut_descStable .sym) s⟩)
    | copy => exact .inr (.inr ⟨_, rfl, buildSlot_leads (keepsOut_descStable .copy) s⟩)
  | dictInit => exact .inr (.inr ⟨_, rfl, dictInit_leads keepsOut_dictStable s⟩)
  | hufRead tr =>
    have hread (t : SlotId) := (readCode_leads keepsOut_dictStable t s).andThen_putResult symbolWord
    cases tr with
    | rsv => exact .inl rfl
    | dict => exact .inr (.inr ⟨_, rfl, hread .dict⟩)
    | sym => exact .inr (.inr ⟨_, rfl, hread .sym⟩)
    | copy => exact .inr (.inr ⟨_, rfl, hread .copy⟩)
  | descRead tr =>
    have hread (t : SlotId) := (desc_leads (keepsOut_descStable t) s).andThen_putResult (BitVec.ofNat 32)
    cases tr with
    | rsv => exact .inl rfl
    | dict => exact .inr (.inr ⟨_, rfl, hrefl⟩)
    | sym => exact .inr (.inr ⟨_, rfl, hread .sym⟩)
    | copy => exact .inr (.inr ⟨_, rfl, hread .copy⟩)
  | cpyB0 r | cpyB1 r | cpyB2 r | cpyB3 r | cpyB4 r | cpyB5 r | cpyB6 r | cpyFF | cpyRsv sy =>
    exact .inr (.inr ⟨_, rfl, copySymbol_keepsOut _ s⟩)
  | descSkip cm1 => exact .inr (.inr ⟨_, rfl, rfl, rfl⟩)
  | descRun len cm1 => exact .inr (.inr ⟨_, rfl, descRun_leads (keepsOut_descStable .sym) _ _ s⟩)
  | datDecode => exact absurd rfl hdat
  | lit b => exact absurd rfl (hlit b)
  | offB0 r | offB1 r | offB2 r | offB3 r | offB4 r | offB5 r | offB6 r | offB7 r | offB8 r | offB9 r | offB10 r
  | offB11 r | offB12 r | offB13 r | offB14 r | offB15 r | offB16 r | offRsv t => exact absurd rfl (hoff _)

/-- Settles O15: no instruction writes IN, and what is no store keeps OUT wherever it ends with a value. -/
theorem commandsStoreNothing : Obligations.CommandsStoreNothing := by
  intro i s t he ht hdat hlit hoff
  obtain ⟨hin, -⟩ := inputSideIsReadOnly i s t he
  suffices hout : t.outMem = s.outMem from ⟨fun a => by rw [hout], fun a => by rw [hin]⟩
  obtain h | h | ⟨r, h, hr⟩ := exec_storeless_cases hdat hlit hoff s <;> rw [h] at he
  · cases he; cases ht
  · cases he; rfl
  · cases he
    exact (hr.of_ok (Res.ok_of_settle rfl ht)).outMem

/-! ### What a block's work leaves of OUT (R249 to R258) -/

/-- From `s` to `t` output was written in order: `OUTPOS` went up by what was written below it, not past `EFF`, and no
byte from the new `OUTPOS` on changed. -/
structure OutputGrows (s t : State) : Prop where
  eff : t.dec.eff = s.dec.eff
  outLen : t.outLen = s.outLen
  outPos_le : s.dec.outPos.toNat ≤ t.dec.outPos.toNat
  bounded : s.dec.outPos ≤ s.dec.eff → t.dec.outPos ≤ t.dec.eff
  known : (∀ a < s.dec.outPos.toNat, ∃ b, s.outMem.read? a = some b) →
    ∀ a < t.dec.outPos.toNat, ∃ b, t.outMem.read? a = some b
  above : ∀ a, t.dec.outPos.toNat ≤ a → t.outMem.read? a = s.outMem.read? a

theorem OutputGrows.trans (h : OutputGrows s t) (h' : OutputGrows t u) : OutputGrows s u where
  eff := h'.eff.trans h.eff
  outLen := h'.outLen.trans h.outLen
  outPos_le := Nat.le_trans h.outPos_le h'.outPos_le
  bounded hb := h'.bounded (h.bounded hb)
  known hk := h'.known (h.known hk)
  above a ha := (h'.above a ha).trans (h.above a (Nat.le_trans h'.outPos_le ha))

/-- What leaves OUT, `OUTPOS` and `EFF` alone writes no output. -/
theorem OutputGrows.of_eq (hmem : t.outMem = s.outMem) (hlen : t.outLen = s.outLen) (hpos : t.dec.outPos = s.dec.outPos)
    (heff : t.dec.eff = s.dec.eff) : OutputGrows s t where
  eff := heff
  outLen := hlen
  outPos_le := by rw [hpos]
  bounded hb := by rwa [hpos, heff]
  known hk := by rwa [hpos, hmem]
  above _ _ := by rw [hmem]

theorem outputGrows_refl (s : State) : OutputGrows s s := .of_eq rfl rfl rfl rfl

/-- A literal is written at `OUTPOS` (R250). -/
theorem literal_outputGrows (s : State) (b : Byte) (hlt : s.dec.outPos < s.dec.eff) : OutputGrows s
    ((s.withOutMem (s.outMem.write s.dec.outPos.toNat b)).withDec { s.dec with outPos := s.dec.outPos + 1 }) := by
  have hpos : (s.dec.outPos + 1).toNat = s.dec.outPos.toNat + 1 := by bv_omega
  refine ⟨rfl, rfl, ?_, fun _ => ?_, fun hk a ha => ?_, fun a ha => ?_⟩
  · exact hpos ▸ Nat.le_succ _
  · simp only [State.withDec_dec]; bv_omega
  · simp only [State.withDec_dec, hpos] at ha
    simp only [State.withDec_outMem, State.withOutMem_outMem, Memory.read?_write]
    split
    · exact ⟨b, rfl⟩
    · exact hk a (by omega)
  · simp only [State.withDec_dec, hpos] at ha
    simp only [State.withDec_outMem, State.withOutMem_outMem, Memory.read?_write]
    rw [if_neg (by omega)]

/-- A copy repeats bytes below `OUTPOS`, so where they are known what it writes is known (R255). -/
theorem copyBytes_outputGrows (s : State) {size off : Nat} (ho : 1 ≤ off) (hle : off ≤ s.dec.outPos.toNat) :
    OutputGrows s (copyBytes size off s) := by
  obtain ⟨hend, hcopied, hkept⟩ := copyRun_spec ho hle (eff := s.dec.eff.toNat) (n := size) (m := s.outMem)
  have hpos : (copyBytes size off s).dec.outPos.toNat =
      s.dec.outPos.toNat + min size (s.dec.eff.toNat - s.dec.outPos.toNat) := by
    have := s.dec.outPos.isLt
    have := s.dec.eff.isLt
    rw [← hend]
    exact Nat.mod_eq_of_lt (by omega)
  refine ⟨rfl, rfl, by omega, fun hb => ?_, fun hk a ha => ?_, fun a ha => ?_⟩
  · have hb' : s.dec.outPos.toNat ≤ s.dec.eff.toNat := hb
    show (copyBytes size off s).dec.outPos.toNat ≤ s.dec.eff.toNat
    omega
  · obtain hlt | ⟨j, rfl⟩ := Nat.lt_or_ge a s.dec.outPos.toNat |>.imp_right Nat.exists_eq_add_of_le
    · obtain ⟨b, hb⟩ := hk a hlt
      exact ⟨b, (hkept a (.inl hlt)).trans hb⟩
    · have hmod := Nat.mod_lt j ho
      obtain ⟨b, hb⟩ := hk (s.dec.outPos.toNat - off + j % off) (by omega)
      exact ⟨b, (hcopied j (by omega)).trans hb⟩
  · exact hkept a (.inr (hpos ▸ ha))

theorem outputGrows_descStable (t : SlotId) : DescStable t OutputGrows where
  refl := outputGrows_refl
  trans _ _ _ h h' := h.trans h'
  need _ _ _ _ := .of_eq rfl rfl rfl rfl
  drop _ _ _ _ := .of_eq rfl rfl rfl rfl
  dict _ _ _ _ _ := .of_eq rfl rfl rfl rfl
  clear _ := .of_eq rfl rfl rfl rfl
  add _ _ _ _ _ := .of_eq rfl rfl rfl rfl
  build s x _ := .of_eq (s.withSlot_outMem t x) (s.withSlot_outLen t x) (by rw [s.withSlot_dec t x])
    (by rw [s.withSlot_dec t x])
  rem _ _ := .of_eq rfl rfl rfl rfl

/-- Every primitive of the blocks writes output in order, if any. -/
theorem outputGrows_blockStable : BlockStable OutputGrows where
  toDictStable := (outputGrows_descStable .sym).toDictStable
  size _ _ := .of_eq rfl rfl rfl rfl
  lit := literal_outputGrows
  copy s _ ho hle := copyBytes_outputGrows s ho hle
  desc t _ := outputGrows_descStable t
  constAdd _ _ := .of_eq rfl rfl rfl rfl
  maxCount _ _ := .of_eq rfl rfl rfl rfl
  count _ _ := .of_eq rfl rfl rfl rfl

/-! ### The stages of a `DAT_DECODE` (R240) -/

/-- What comes before the output starts writes neither OUT nor what the host set. -/
structure KeepsHostAndOut (s t : State) : Prop where
  host : KeepsHost s t
  out : KeepsOut s t

theorem keepsHostAndOut_dictStable : DictStable KeepsHostAndOut where
  refl s := ⟨KeepsHost.refl s, KeepsOut.refl s⟩
  trans _ _ _ h h' := ⟨h.host.trans h'.host, h.out.trans h'.out⟩
  need n s c h := ⟨keepsHost_blockStable.need n s c h, keepsOut_dictStable.need n s c h⟩
  drop n s c h := ⟨keepsHost_blockStable.drop n s c h, keepsOut_dictStable.drop n s c h⟩
  dict s b x hv ht := ⟨keepsHost_blockStable.dict s b x hv ht, keepsOut_dictStable.dict s b x hv ht⟩

/-- The header starts the output of the declared size in a state whose OUT is still the one it began with (R243). -/
theorem datHeader_ok (h : datHeader s = .ok () t) :
    ∃ declared u, KeepsHostAndOut s u ∧ t = startOutput declared u := by
  have hc : CursorStable KeepsHostAndOut := keepsHostAndOut_dictStable.toCursorStable
  obtain ⟨_, s₁, h₁, h⟩ := Res.andThen_eq_ok.mp h
  obtain ⟨_, s₂, h₂, h⟩ := Res.andThen_eq_ok.mp h
  obtain ⟨declared, s₃, h₃, h⟩ := Res.andThen_eq_ok.mp h
  cases h
  refine ⟨declared, s₃, hc.trans _ _ _ ((needBits_leads hc 32 s).of_ok h₁) ?_, rfl⟩
  exact hc.trans _ _ _ ((dropBits_leads hc 32 s₁).of_ok h₂) ((readField_leads hc 32 s₂).of_ok h₃)

/-- A `DAT_DECODE` that raises nothing: it starts its output with OUT untouched, its blocks write in order, and it reports
`OUTPOS` (R240, R245, R256). -/
theorem datRun_ok (h : datRun s = .ok () t) :
    ∃ declared u v, KeepsHostAndOut s u ∧ OutputGrows (startOutput declared u) v ∧
      t = (v.withOutSize v.dec.outPos).withResult v.dec.outPos := by
  obtain ⟨_, s₁, hargs, h⟩ := Res.andThen_eq_ok.mp h
  obtain ⟨_, s₂, hdict, h⟩ := Res.andThen_eq_ok.mp h
  obtain ⟨_, s₃, hcur, h⟩ := Res.andThen_eq_ok.mp h
  obtain ⟨_, s₄, hhead, h⟩ := Res.andThen_eq_ok.mp h
  obtain ⟨_, s₅, hconst, h⟩ := Res.andThen_eq_ok.mp h
  obtain ⟨_, v, hblocks, hresult⟩ := Res.andThen_eq_ok.mp h
  obtain ⟨declared, u, hu, rfl⟩ := datHeader_ok hhead
  have hbegin : s₁ = s := by
    obtain ⟨-, ha⟩ | ⟨-, -, ha⟩ := datArguments_cases s <;> rw [ha] at hargs <;> cases hargs
    rfl
  have hinit : KeepsHostAndOut s s₂ := hbegin ▸ (dictInit_leads keepsHostAndOut_dictStable s₁).of_ok hdict
  have hcursor : KeepsHostAndOut s₂ s₃ := by
    cases hcur
    exact ⟨by constructor <;> rfl, rfl, rfl⟩
  have hwritten : OutputGrows (startOutput declared u) v :=
    ((constFieldAt_leads outputGrows_blockStable _ _).of_ok hconst).trans
      ((blockLoop_leads outputGrows_blockStable _ _).of_ok hblocks)
  cases hresult
  have trans := keepsHostAndOut_dictStable.trans
  exact ⟨declared, u, v, trans _ _ _ hinit (trans _ _ _ hcursor hu), hwritten, rfl⟩

/-- A host access at or past the end of an OUT that the block provided stops the model (R67, log 14). -/
theorem step_memRead_past_out {n a : Word} {rest : List Input} (hn : s.outLen = some n) (ha : n ≤ a) :
    step (s.withInputs (.memRead .output a :: rest)) = .fault .noSuchOutByte := by
  refine step_of_stop (i := .memRead .output a) (rest := rest) rfl (if_neg ?_)
  simpa [hostReaches, hn] using ha

/-- The bytes that a `DAT_DECODE` finds in OUT when it starts its output (R245). -/
theorem startOutput_read? (declared : Word) (s : State) (a : Nat) :
    (startOutput declared s).outMem.read? a = if s.outPresent then s.outMem.read? a else none := by
  obtain ⟨hp, hm, -⟩ | ⟨hp, hm, -⟩ := startOutput_out declared s <;> rw [hm, hp] <;> rfl

theorem startOutput_outPos (declared : Word) (s : State) : (startOutput declared s).dec.outPos = 0 := by
  rw [startOutput_dec]

theorem startOutput_eff (declared : Word) (s : State) :
    (startOutput declared s).dec.eff = effectiveSize declared s.outSize := by
  rw [startOutput_dec]

/-- Settles O58: the output starts empty, and the blocks write it in order, so all of it is below `OUTPOS` and known. -/
theorem datDecodeOutputBound : Obligations.DatDecodeOutputBound := by
  intro s t he _ ht
  have hrun : datRun s = .ok () t := by
    cases he
    exact Res.ok_of_settle rfl ht
  obtain ⟨declared, u, v, ⟨hhost, hout⟩, hgrow, rfl⟩ := datRun_ok hrun
  have heff : v.dec.eff = effectiveSize declared s.outSize := by
    rw [hgrow.eff, startOutput_eff, hhost.outSize]
  refine ⟨rfl, rfl, hgrow.bounded ?_, fun hsize => ?_, hgrow.known ?_, fun a ha => ?_, fun hp => ?_⟩
  · rw [startOutput_outPos]
    exact Nat.zero_le _
  · exact heff ▸ (effectiveSize_le declared s.outSize).2 hsize
  · rw [startOutput_outPos]
    exact fun a ha => absurd ha (Nat.not_lt_zero a)
  · rw [← hhost.outPresent, ← hout.outMem, ← startOutput_read? declared u a]
    exact hgrow.above a ha
  · have hlen : v.outLen = some v.dec.eff := by
      obtain ⟨hp', -, -⟩ | ⟨-, -, hlen⟩ := startOutput_out declared u
      · exact absurd (hp'.symm.trans (hhost.outPresent.trans hp)) nofun
      · rw [hgrow.outLen, hlen, heff, hhost.outSize]
    exact ⟨hlen, fun a rest ha => step_memRead_past_out hlen ha⟩

end Sys2Proof.Machine

/-! ## Decoding and encoding (R90 to R109)

A command word is its four fields, and a row of the opcode map tests some of them, so decoding is a choice by fields
(`decodeCommand_packCommand`). The symbol rows of R106 and R108 come in buckets, which `Instr.copyOf` and
`Instr.offsetOf` number. Both directions of "decode and encode agree" are read off these two facts. -/

namespace Sys2Proof

/-! ### The fields of a command word (R90) -/

theorem append_toNat {m n : Nat} (v : BitVec m) (w : BitVec n) : (v ++ w).toNat = v.toNat * 2 ^ n + w.toNat := by
  rw [BitVec.toNat_append, ← Nat.shiftLeft_add_eq_or_of_lt w.isLt, Nat.shiftLeft_eq]

theorem packCommand_toNat (opc : BitVec 8) (tr : BitVec 2) (nb : BitVec 6) (sy : BitVec 16) :
    (packCommand opc tr nb sy).toNat = opc.toNat * 2 ^ 24 + tr.toNat * 2 ^ 22 + nb.toNat * 2 ^ 16 + sy.toNat := by
  simp only [packCommand, append_toNat]
  omega

/-- Every word is made of its four fields. -/
theorem packCommand_fields (v : Word) :
    packCommand (v.extractLsb' 24 8) (v.extractLsb' 22 2) (v.extractLsb' 16 6) (v.extractLsb' 0 16) = v := by
  apply BitVec.eq_of_toNat_eq
  simp only [packCommand_toNat, BitVec.extractLsb'_toNat, Nat.shiftRight_eq_div_pow]
  omega

/-- Words with the same fields are the same word. -/
theorem packCommand_inj {opc opc' : BitVec 8} {tr tr' : BitVec 2} {nb nb' : BitVec 6} {sy sy' : BitVec 16} :
    packCommand opc tr nb sy = packCommand opc' tr' nb' sy' ↔ opc = opc' ∧ tr = tr' ∧ nb = nb' ∧ sy = sy' := by
  simp only [← BitVec.toNat_inj, packCommand_toNat]
  omega

section
variable (opc : BitVec 8) (tr : BitVec 2) (nb : BitVec 6) (sy : BitVec 16)

theorem extractLsb'_packCommand :
    (packCommand opc tr nb sy).extractLsb' 24 8 = opc ∧ (packCommand opc tr nb sy).extractLsb' 22 2 = tr ∧
    (packCommand opc tr nb sy).extractLsb' 16 6 = nb ∧ (packCommand opc tr nb sy).extractLsb' 0 16 = sy :=
  packCommand_inj.mp (packCommand_fields _)

theorem packCommand_and (opc' : BitVec 8) (tr' : BitVec 2) (nb' : BitVec 6) (sy' : BitVec 16) :
    packCommand opc tr nb sy &&& packCommand opc' tr' nb' sy' =
      packCommand (opc &&& opc') (tr &&& tr') (nb &&& nb') (sy &&& sy') := by
  rw [packCommand, packCommand, BitVec.and_append, BitVec.and_append, BitVec.and_append, packCommand]

/-- A row tests the four fields (R94). -/
theorem rowHit_packCommand {mask pat : Word} : rowHit (packCommand opc tr nb sy) mask pat = true ↔
    opc &&& mask.extractLsb' 24 8 = pat.extractLsb' 24 8 ∧ tr &&& mask.extractLsb' 22 2 = pat.extractLsb' 22 2 ∧
    nb &&& mask.extractLsb' 16 6 = pat.extractLsb' 16 6 ∧ sy &&& mask.extractLsb' 0 16 = pat.extractLsb' 0 16 := by
  rw [rowHit, decide_eq_true_iff, ← packCommand_inj, ← packCommand_and, packCommand_fields, packCommand_fields]

/-- The rows of R92, by fields. -/
theorem decodeCommand_packCommand :
    decodeCommand (packCommand opc tr nb sy) =
      if opc = 0x00 ∧ tr = 0 ∧ nb = 0 ∧ sy = 0 then .ok .nop
      else if opc = 0x01 ∧ tr = 0 ∧ nb = 0 ∧ sy = 0 then .ok .curInit
      else if opc = 0x02 ∧ tr = 0 ∧ sy = 0 then .ok (.curNeed nb)
      else if opc = 0x03 ∧ tr = 0 ∧ sy = 0 then .ok (.curRead nb)
      else if opc = 0x04 ∧ tr = 0 ∧ sy = 0 then .ok (.curDrop nb)
      else if opc = 0x10 ∧ tr = 0 ∧ nb = 0 ∧ sy = 0 then .ok .bldClear
      else if opc = 0x11 ∧ tr = 0 then .ok (.bldAdd nb sy)
      else if opc = 0x12 ∧ nb = 0 ∧ sy = 0 then .ok (.bldBuild (.ofBits tr))
      else if opc = 0x13 ∧ tr = 0 ∧ nb = 0 ∧ sy = 0 then .ok .dictInit
      else if opc = 0x20 ∧ nb = 0 ∧ sy = 0 then .ok (.hufRead (.ofBits tr))
      else if opc = 0x21 ∧ nb = 0 ∧ sy = 0 then .ok (.descRead (.ofBits tr))
      else if opc = 0x30 ∧ tr = 0 ∧ nb = 0 ∧ sy = 0 then .ok .datDecode
      else if opc = 0xFF ∧ tr = 0 ∧ nb = 0 ∧ sy = 0 then .ok .softReset
      else if knownOpcodes.contains opc then .error .nonzeroField
      else .error .unknownOpcode := by
  obtain ⟨hopc, htr, hnb, hsy⟩ := extractLsb'_packCommand opc tr nb sy
  have hopc' : opc &&& 0xFF#8 = opc := BitVec.and_allOnes
  have htr' : tr &&& 3#2 = tr := BitVec.and_allOnes
  have hnb' : nb &&& 0x3F#6 = nb := BitVec.and_allOnes
  have hsy' : sy &&& 0xFFFF#16 = sy := BitVec.and_allOnes
  simp only [decodeCommand, rowHit_packCommand, fieldTR, fieldNB, fieldSYM, hopc, htr, hnb, hsy]
  simp only [BitVec.reduceExtractLsb', hopc', htr', hnb', hsy', BitVec.and_zero, BitVec.ofNat_eq_ofNat,
    true_and, and_true]

end

/-! ### The decoder of command words (R92 to R94) -/

@[simp] theorem TreeSel.ofBits_toBits (tr : TreeSel) : TreeSel.ofBits tr.toBits = tr := by cases tr <;> rfl

@[simp] theorem TreeSel.toBits_ofBits (b : BitVec 2) : (TreeSel.ofBits b).toBits = b := by
  revert b
  decide

/-- R92, R94: a command word decodes to exactly the instruction that it encodes. -/
theorem decodeCommand_eq_ok {v : Word} {i : Instr} : decodeCommand v = .ok i ↔ encode i = .command v := by
  constructor
  · intro h
    rw [← packCommand_fields v] at h ⊢
    generalize v.extractLsb' 24 8 = opc, v.extractLsb' 22 2 = tr, v.extractLsb' 16 6 = nb,
      v.extractLsb' 0 16 = sy at h ⊢
    rw [decodeCommand_packCommand] at h
    iterate 13
      obtain ⟨hc, hi⟩ | ⟨-, h⟩ := ite_eq_iff.mp h
      · cases hi
        simp only [encode, hc, TreeSel.toBits_ofBits]
    exact absurd h (Machine.ite_ne_of_ne nofun nofun)
  · intro h
    cases i <;> cases h
    all_goals
      rw [decodeCommand_packCommand]
      simp

/-- An instruction that a command word encodes has no operand outside its field (R90). -/
theorem Instr.wf_of_encode_eq_command {n : Nat} {v : Word} {i : Instr} (h : encode i = .command v) : i.wf n = true := by
  cases i <;> cases h <;> rfl

/-- A word that no row matches is reserved (R93). -/
theorem decodeCommand_of_no_row {v : Word} (h : ∀ r ∈ commandRows, v &&& r.mask ≠ r.pat) :
    ∃ e, decodeCommand v = .error e := by
  have hrow : ∀ r ∈ commandRows, ¬ rowHit v r.mask r.pat = true := fun r hr => by
    simpa only [rowHit, decide_eq_true_iff] using h r hr
  simp only [commandRows, List.forall_mem_cons] at hrow
  obtain ⟨h₁, h₂, h₃, h₄, h₅, h₆, h₇, h₈, h₉, h₁₀, h₁₁, h₁₂, h₁₃, -⟩ := hrow
  rw [decodeCommand, if_neg h₁, if_neg h₂, if_neg h₃, if_neg h₄, if_neg h₅, if_neg h₆, if_neg h₇, if_neg h₈,
    if_neg h₉, if_neg h₁₀, if_neg h₁₁, if_neg h₁₂, if_neg h₁₃]
  split
  · exact ⟨_, rfl⟩
  · exact ⟨_, rfl⟩

/-- Two rows that both match a word agree on every bit that both fix. -/
theorem CommandRow.agree {a b : CommandRow} {v : Word} (ha : v &&& a.mask = a.pat) (hb : v &&& b.mask = b.pat) :
    a.pat &&& b.mask = b.pat &&& a.mask := by
  rw [← ha, ← hb, BitVec.and_assoc, BitVec.and_assoc, BitVec.and_comm a.mask]

/-- Settles O5: any two rows differ on a bit that both fix. -/
theorem commandRowsNeverOverlap : Obligations.CommandRowsNeverOverlap := by
  have hdiffer : commandRows.Pairwise fun a b => a.pat &&& b.mask ≠ b.pat &&& a.mask := by decide
  exact hdiffer.imp fun hne v ⟨ha, hb⟩ => hne (CommandRow.agree ha hb)

namespace Machine

/-! ### What a step does with a command word (R93, R94) -/

/-- Settles O2: what an input that leads to an instruction does (`step_of_run`), for a command and for an element. -/
theorem stepRunsDecodedInstruction : Obligations.StepRunsDecodedInstruction := by
  intro s rest i
  constructor
  · intro v hin herr hd
    refine step_of_run hin (?_ : issueCommand v (s.withInputs rest) = _)
    rw [issueCommand_of_executed (s := s.withInputs rest) herr, hd]
  · rintro e hin herr rfl
    exact step_of_run hin (if_neg (not_not.mpr herr))

/-- A reserved command outside the stop state writes `ERR` alone (R91, R93, log 10). -/
theorem reservedCommand_of_no_err {s : State} (h : s.err = none) :
    reservedCommand s = s.withErr (some .invalidInput) := by
  rw [reservedCommand, State.setErr, h]
  rfl

/-- Settles O4: a word that no row matches is rejected by name, and in the stop state is not `SOFT_RESET`'s word. -/
theorem reservedWordRaisesOnly : Obligations.ReservedWordRaisesOnly := by
  intro s v rest hin hrow
  obtain ⟨e, hd⟩ := decodeCommand_of_no_row hrow
  refine step_of_done hin (?_ : issueCommand v (s.withInputs rest) = _)
  by_cases herr : s.err = none
  · rw [issueCommand_of_executed (s := s.withInputs rest) (.inl herr), hd, if_pos herr]
    exact congrArg Action.done (reservedCommand_of_no_err herr)
  · have hv : v ≠ softResetWord := by
      rintro rfl
      rw [decode_softResetWord] at hd
      cases hd
    rw [issueCommand_of_stopped (s := s.withInputs rest) herr hv, if_neg herr]

/-- Settles O34: the two selectors that a command refuses, and the reserved one, which writes `ERR` alone. -/
theorem treeSelectorChecks : Obligations.TreeSelectorChecks := by
  refine fun s => ⟨rfl, rfl, fun herr i hi => ?_⟩
  rw [← reservedCommand_of_no_err herr]
  obtain rfl | rfl | rfl := hi <;> rfl

end Machine

/-- Settles O19: each word is evaluated by the decoder. -/
theorem wordsDecodeAsWritten : Obligations.WordsDecodeAsWritten := by
  unfold Obligations.WordsDecodeAsWritten
  decide

/-! ### The decoder of stream symbols (R104 to R109) -/

/-- The copy-token instruction of bucket q, 0 to 6 (R106). -/
def Instr.copyOf (r : BitVec 2) : Nat → Instr
  | 0 => .cpyB0 r
  | 1 => .cpyB1 r
  | 2 => .cpyB2 r
  | 3 => .cpyB3 r
  | 4 => .cpyB4 r
  | 5 => .cpyB5 r
  | _ => .cpyB6 r

/-- The offset instruction of bucket q2, 0 to 16 (R108). -/
def Instr.offsetOf (r : BitVec 1) : Nat → Instr
  | 0 => .offB0 r
  | 1 => .offB1 r
  | 2 => .offB2 r
  | 3 => .offB3 r
  | 4 => .offB4 r
  | 5 => .offB5 r
  | 6 => .offB6 r
  | 7 => .offB7 r
  | 8 => .offB8 r
  | 9 => .offB9 r
  | 10 => .offB10 r
  | 11 => .offB11 r
  | 12 => .offB12 r
  | 13 => .offB13 r
  | 14 => .offB14 r
  | 15 => .offB15 r
  | _ => .offB16 r

theorem Instr.encode_copyOf {q : Nat} (hq : q < 7) (r : BitVec 2) : encode (copyOf r q) = packToken q r := by
  interval_cases q <;> rfl

theorem Instr.wf_copyOf (n q : Nat) (r : BitVec 2) : (copyOf r q).wf n = true := by
  unfold copyOf
  split <;> rfl

theorem Instr.encode_offsetOf {q : Nat} (hq : q < 17) (r : BitVec 1) : encode (offsetOf r q) = packOffset q r := by
  interval_cases q <;> rfl

theorem Instr.wf_offsetOf (n q : Nat) (r : BitVec 1) : (offsetOf r q).wf n = true := by
  unfold offsetOf
  split <;> rfl

/-- The rows of R106, with those of the seven buckets as one. -/
theorem decodeToken_eq (s : Nat) : decodeToken s =
    if s < 0x100 then .lit (BitVec.ofNat 8 s)
    else if s < 0x11C then .copyOf (BitVec.ofNat 2 s) (s / 4 - 0x40)
    else if s = 0x11C then .cpyFF
    else .cpyRsv s := by
  unfold decodeToken
  by_cases hlit : s < 0x100
  · rw [if_pos hlit, if_pos hlit]
  · rw [if_neg hlit, if_neg hlit]
    by_cases hcpy : s < 0x11C
    · rw [if_pos hcpy]
      obtain ⟨q, hq⟩ : ∃ q, s / 4 = q + 0x40 := Nat.exists_eq_add_of_le' (by omega)
      have hlt : q < 7 := by omega
      rw [hq, Nat.add_sub_cancel]
      interval_cases q <;> rfl
    · rw [if_neg hcpy]
      have hne : ∀ q < 0x47, ¬ s / 4 = q := by omega
      iterate 7 rw [if_neg (hne _ (by decide))]

/-- The rows of R108, with those of the 17 buckets as one. -/
theorem decodeOffset_eq (t : Nat) : decodeOffset t =
    if t < 34 then .offsetOf (BitVec.ofNat 1 t) (t / 2) else .offRsv t := by
  unfold decodeOffset
  by_cases ht : t < 34
  · rw [if_pos ht]
    have hlt : t / 2 < 17 := by omega
    interval_cases t / 2 <;> rfl
  · rw [if_neg ht]
    have hne : ∀ q < 17, ¬ t / 2 = q := by omega
    iterate 17 rw [if_neg (hne _ (by decide))]

theorem decodeToken_of_ge {s : Nat} (h : 0x11D ≤ s) : decodeToken s = .cpyRsv s := by
  rw [decodeToken_eq, if_neg (by omega), if_neg (by omega), if_neg (by omega)]

theorem decodeOffset_of_ge {t : Nat} (h : 34 ≤ t) : decodeOffset t = .offRsv t := by
  rw [decodeOffset_eq, if_neg (by omega)]

/-! ### A symbol is encoded by what it decodes to -/

theorem encode_decodeToken (s : Nat) : encode (decodeToken s) = .element (.token s) := by
  rw [decodeToken_eq]
  split_ifs with hlit hcpy hff
  · rw [encode, BitVec.toNat_ofNat, Nat.mod_eq_of_lt hlit]
  · rw [Instr.encode_copyOf (by omega), packToken, BitVec.toNat_ofNat]
    exact congrArg (fun x : Nat => Fetched.element (.token x)) (by omega : (_ : Nat) = _)
  · rw [hff, encode]
  · rfl

theorem encode_decodeOffset (t : Nat) : encode (decodeOffset t) = .element (.offset t) := by
  rw [decodeOffset_eq]
  split_ifs with ht
  · rw [Instr.encode_offsetOf (by omega), packOffset, BitVec.toNat_ofNat]
    exact congrArg (fun x : Nat => Fetched.element (.offset x)) (by omega : (_ : Nat) = _)
  · rfl

theorem descCountField_of_lt {n c : Nat} (hc : c < 2 ^ n) : descCountField n c = c / 32 := by
  rw [descCountField, Nat.mod_eq_of_lt hc]

theorem encode_decodeDesc {n c : Nat} (hc : c < 2 ^ n) : encode (decodeDesc n c) = .element (.desc c) := by
  rw [decodeDesc, descCountField_of_lt hc, descLength]
  split_ifs with hlen
  · rw [encode]
    exact congrArg (fun x : Nat => Fetched.element (.desc x)) (by omega : (_ : Nat) = _)
  · rw [encode, BitVec.toNat_ofNat]
    exact congrArg (fun x : Nat => Fetched.element (.desc x)) (by omega : (_ : Nat) = _)

/-! ### What a symbol decodes to is well formed -/

theorem wf_decodeToken {n s : Nat} (hs : s < 2 ^ n) : (decodeToken s).wf n = true := by
  rw [decodeToken_eq]
  split_ifs with hlit hcpy hff
  · rfl
  · exact Instr.wf_copyOf n _ _
  · rfl
  · have hge : 0x11D ≤ s := by omega
    simp [Instr.wf, hge, hs]

theorem wf_decodeOffset {n t : Nat} (ht : t < 2 ^ n) : (decodeOffset t).wf n = true := by
  rw [decodeOffset_eq]
  split_ifs with hlt
  · exact Instr.wf_offsetOf n _ _
  · simp [Instr.wf, Nat.le_of_not_lt hlt, ht]

/-- The count field of a description code has the bits that its length field leaves it (R104). -/
theorem countField_lt_iff {n k : Nat} (hn : 5 ≤ n) {len : Nat} (hlen : len < 32) :
    k < 2 ^ (n - 5) ↔ 32 * k + len < 2 ^ n := by
  have hpow : 2 ^ n = 32 * 2 ^ (n - 5) := by
    rw [show 32 = 2 ^ 5 from rfl, ← Nat.pow_add, Nat.add_sub_cancel' hn]
  omega

theorem wf_decodeDesc {n c : Nat} (hn : 5 ≤ n) (hc : c < 2 ^ n) : (decodeDesc n c).wf n = true := by
  have hcount : c / 32 < 2 ^ (n - 5) :=
    (countField_lt_iff hn (Nat.mod_lt c (by decide : 32 > 0))).mpr (by omega)
  rw [decodeDesc, descCountField_of_lt hc, descLength]
  split_ifs with hlen
  · simpa [Instr.wf] using hcount
  · have hne : BitVec.ofNat 5 c ≠ 0 := by
      rw [Ne, ← BitVec.toNat_inj, BitVec.toNat_ofNat]
      exact hlen
    simpa [Instr.wf] using ⟨hne, hcount⟩

/-! ### A symbol of `SYM_BITS` bits is decoded whole (R109) -/

theorem decodeElement_token {n s : Nat} (hs : s < 2 ^ n) : decodeElement n (.token s) = decodeToken s := by
  rw [decodeElement, Nat.mod_eq_of_lt hs]

theorem decodeElement_offset {n t : Nat} (ht : t < 2 ^ n) : decodeElement n (.offset t) = decodeOffset t := by
  rw [decodeElement, Nat.mod_eq_of_lt ht]

/-- Settles O18: a command by `decodeCommand_eq_ok`, a symbol by the rows of its format. -/
theorem encodeOfDecode : Obligations.EncodeOfDecode := by
  intro n f i hn hfits hd
  cases f with
  | command v =>
    have he : encode i = .command v := decodeCommand_eq_ok.mp hd
    exact ⟨Instr.wf_of_encode_eq_command he, he⟩
  | element e =>
    have he := hfits e rfl
    obtain rfl : decodeElement n e = i := Except.ok.inj hd
    cases e with
    | token s =>
      have hs : s < 2 ^ n := of_decide_eq_true he
      rw [decodeElement_token hs]
      exact ⟨wf_decodeToken hs, encode_decodeToken s⟩
    | offset t =>
      have ht : t < 2 ^ n := of_decide_eq_true he
      rw [decodeElement_offset ht]
      exact ⟨wf_decodeOffset ht, encode_decodeOffset t⟩
    | desc c =>
      have hc : c < 2 ^ n := of_decide_eq_true he
      exact ⟨wf_decodeDesc (by omega) hc, encode_decodeDesc hc⟩

/-! ### An instruction decodes from its own symbol -/

theorem decodeToken_copyOf {q : Nat} (hq : q < 7) (r : BitVec 2) :
    decodeToken (0x100 + 4 * q + r.toNat) = Instr.copyOf r q := by
  have hr := r.isLt
  rw [decodeToken_eq, if_neg (by omega), if_pos (by omega)]
  congr 1
  · apply BitVec.eq_of_toNat_eq
    rw [BitVec.toNat_ofNat]
    omega
  · omega

theorem decodeOffset_offsetOf {q : Nat} (hq : q < 17) (r : BitVec 1) :
    decodeOffset (2 * q + r.toNat) = Instr.offsetOf r q := by
  have hr := r.isLt
  rw [decodeOffset_eq, if_pos (by omega)]
  congr 1
  · apply BitVec.eq_of_toNat_eq
    rw [BitVec.toNat_ofNat]
    omega
  · omega

theorem decodeDesc_of_fields {n : Nat} {len : BitVec 5} {cm1 : Nat} (hc : 32 * cm1 + len.toNat < 2 ^ n) :
    decodeDesc n (32 * cm1 + len.toNat) = if len = 0 then .descSkip cm1 else .descRun len cm1 := by
  have hlen := len.isLt
  have hmod : (32 * cm1 + len.toNat) % 32 = len.toNat := by omega
  have hfield : BitVec.ofNat 5 (32 * cm1 + len.toNat) = len := by
    apply BitVec.eq_of_toNat_eq
    rw [BitVec.toNat_ofNat]
    exact hmod
  have hzero : len.toNat = 0 ↔ len = 0 := BitVec.toNat_inj (y := 0)
  rw [decodeDesc, descCountField_of_lt hc, descLength, hmod, hfield, if_congr hzero rfl rfl,
    show (32 * cm1 + len.toNat) / 32 = cm1 by omega]

/-- An instruction decodes from its encoding, a symbol of `SYM_BITS` bits if it is one. -/
def Instr.DecodesBack (n : Nat) (i : Instr) : Prop :=
  decode n (encode i) = .ok i ∧ ∀ e, encode i = .element e → e.fits n = true

section
variable {n : Nat} {i : Instr}

theorem Instr.DecodesBack.of_command {v : Word} (hi : encode i = .command v) : i.DecodesBack n := by
  rw [DecodesBack, hi]
  exact ⟨decodeCommand_eq_ok.mpr hi, nofun⟩

theorem Instr.DecodesBack.of_element {e : StreamSymbol} (hi : encode i = .element e) (he : e.fits n = true)
    (hd : decodeElement n e = i) : i.DecodesBack n := by
  rw [DecodesBack, hi]
  refine ⟨congrArg Except.ok hd, fun e' he' => ?_⟩
  cases he'
  exact he

theorem Instr.DecodesBack.of_token {s : Nat} (hi : encode i = .element (.token s)) (hs : s < 2 ^ n)
    (hd : decodeToken s = i) : i.DecodesBack n :=
  .of_element hi (decide_eq_true hs) ((decodeElement_token hs).trans hd)

theorem Instr.DecodesBack.of_offset {t : Nat} (hi : encode i = .element (.offset t)) (ht : t < 2 ^ n)
    (hd : decodeOffset t = i) : i.DecodesBack n :=
  .of_element hi (decide_eq_true ht) ((decodeElement_offset ht).trans hd)

theorem Instr.DecodesBack.of_desc {len : BitVec 5} {cm1 : Nat} (hn : 5 ≤ n) (hcount : cm1 < 2 ^ (n - 5))
    (hi : encode i = .element (.desc (32 * cm1 + len.toNat)))
    (hd : (if len = 0 then .descSkip cm1 else .descRun len cm1) = i) : i.DecodesBack n := by
  have hlt := (countField_lt_iff hn len.isLt).mp hcount
  exact .of_element hi (decide_eq_true hlt) ((decodeDesc_of_fields hlt).trans hd)

end

/-- Settles O17: each format's decoder undoes the packing of its fields. -/
theorem decodeOfEncode : Obligations.DecodeOfEncode := by
  intro n i hn hwf
  show i.DecodesBack n
  have hpow : 2 ^ 9 ≤ 2 ^ n := Nat.pow_le_pow_right (by decide) hn
  have hcopy (q : Nat) (hq : q < 7) (r : BitVec 2) : (Instr.copyOf r q).DecodesBack n :=
    .of_token (Instr.encode_copyOf hq r) (by omega) (decodeToken_copyOf hq r)
  have hoffset (q : Nat) (hq : q < 17) (r : BitVec 1) : (Instr.offsetOf r q).DecodesBack n :=
    .of_offset (Instr.encode_offsetOf hq r) (by omega) (decodeOffset_offsetOf hq r)
  cases i with
  | lit b =>
    have hb : b.toNat < 0x100 := b.isLt
    exact .of_token rfl (by omega) (by rw [decodeToken_eq, if_pos hb, BitVec.ofNat_toNat, BitVec.setWidth_eq])
  | cpyB0 r => exact hcopy 0 (by decide) r
  | cpyB1 r => exact hcopy 1 (by decide) r
  | cpyB2 r => exact hcopy 2 (by decide) r
  | cpyB3 r => exact hcopy 3 (by decide) r
  | cpyB4 r => exact hcopy 4 (by decide) r
  | cpyB5 r => exact hcopy 5 (by decide) r
  | cpyB6 r => exact hcopy 6 (by decide) r
  | cpyFF => exact .of_token rfl (by omega) rfl
  | cpyRsv s =>
    simp only [Instr.wf, Bool.and_eq_true, decide_eq_true_eq] at hwf
    obtain ⟨hge, hlt⟩ := hwf
    exact .of_token rfl hlt (decodeToken_of_ge hge)
  | offB0 r => exact hoffset 0 (by decide) r
  | offB1 r => exact hoffset 1 (by decide) r
  | offB2 r => exact hoffset 2 (by decide) r
  | offB3 r => exact hoffset 3 (by decide) r
  | offB4 r => exact hoffset 4 (by decide) r
  | offB5 r => exact hoffset 5 (by decide) r
  | offB6 r => exact hoffset 6 (by decide) r
  | offB7 r => exact hoffset 7 (by decide) r
  | offB8 r => exact hoffset 8 (by decide) r
  | offB9 r => exact hoffset 9 (by decide) r
  | offB10 r => exact hoffset 10 (by decide) r
  | offB11 r => exact hoffset 11 (by decide) r
  | offB12 r => exact hoffset 12 (by decide) r
  | offB13 r => exact hoffset 13 (by decide) r
  | offB14 r => exact hoffset 14 (by decide) r
  | offB15 r => exact hoffset 15 (by decide) r
  | offB16 r => exact hoffset 16 (by decide) r
  | offRsv t =>
    simp only [Instr.wf, Bool.and_eq_true, decide_eq_true_eq] at hwf
    obtain ⟨hge, hlt⟩ := hwf
    exact .of_offset rfl hlt (decodeOffset_of_ge hge)
  | descSkip cm1 => exact .of_desc (len := 0) (by omega) (of_decide_eq_true hwf) rfl rfl
  | descRun len cm1 =>
    simp only [Instr.wf, Bool.and_eq_true, decide_eq_true_eq] at hwf
    obtain ⟨hlen, hcount⟩ := hwf
    exact .of_desc (by omega) hcount rfl (if_neg hlen)
  | _ => exact .of_command rfl

namespace Machine

/-! ### A symbol's instruction is what the loops do with it (R220, R240) -/

theorem exec_copyOf {q : Nat} (hq : q < 7) (r : BitVec 2) (s : State) :
    exec (Instr.copyOf r q) s = finish (copySymbol (copyCode q r) s) := by
  interval_cases q <;> rfl

theorem exec_offsetOf {q : Nat} (hq : q < 17) (r : BitVec 1) (s : State) :
    exec (Instr.offsetOf r q) s = finish (offsetSymbol (offsetCode q r) s) := by
  interval_cases q <;> rfl

theorem exec_decodeToken (y : Nat) (s : State) : exec (decodeToken y) s = finish (tokenSymbol y s) := by
  rw [decodeToken_eq, tokenSymbol]
  by_cases hlit : y < 0x100
  · rw [if_pos hlit, if_pos hlit]
    rfl
  rw [if_neg hlit, if_neg hlit]
  split_ifs with hcpy hff
  · have hcode : copyCode (y / 4 - 0x40) (BitVec.ofNat 2 y) = y - 0x100 := by
      rw [copyCode, BitVec.toNat_ofNat]
      omega
    rw [exec_copyOf (by omega), hcode]
  · subst hff
    rfl
  · rfl

theorem exec_decodeOffset (t : Nat) (s : State) : exec (decodeOffset t) s = finish (offsetSymbol t s) := by
  rw [decodeOffset_eq]
  split_ifs with hlt
  · have hcode : offsetCode (t / 2) (BitVec.ofNat 1 t) = t := by
      rw [offsetCode, BitVec.toNat_ofNat]
      omega
    rw [exec_offsetOf (by omega), hcode]
  · rfl

theorem exec_decodeDesc (c : Sym) (s : State) : exec (decodeDesc s.cfg.symBits c) s = finish (descCode c s) := by
  rw [decodeDesc, descCode]
  split
  · rfl
  · show finish (descRun (BitVec.ofNat 5 c).toNat _ s) = _
    rw [BitVec.toNat_ofNat]
    rfl

/-- Settles O20: a symbol of `SYM_BITS` bits is decoded whole, and each format's classes are the cases of its loop. -/
theorem loopsRunTheirElements : Obligations.LoopsRunTheirElements := by
  intro s y hy
  rw [decodeElement_token hy, decodeElement_offset hy]
  exact ⟨exec_decodeToken y s, exec_decodeOffset y s, exec_decodeDesc y s⟩

end Machine
end Sys2Proof

/-! ## A `DAT_DECODE` reads its blocks (R100, R101, R240 to R256)

Each read of the stream is an equivalence: the model's operation ends with a value exactly where the stream holds what
the read asks for. The loops are then the relations `TokenRounds` and `Blocks`; a block produces at least one byte, so
the outer loop's bound is never the reason that it ends. -/

namespace Sys2Proof.Machine

variable {s t u : State}

/-- A sequence whose first half has no value. -/
theorem Res.andThen_unit_eq_ok {β : Type} {r : Res Unit} {k : Unit → State → Res β} {b : β} :
    r.andThen k = .ok b t ↔ ∃ s, r = .ok () s ∧ k () s = .ok b t :=
  Res.andThen_eq_ok.trans ⟨fun ⟨_, s, h⟩ => ⟨s, h⟩, fun ⟨s, h⟩ => ⟨(), s, h⟩⟩

/-! ### What the elements of a block keep -/

/-- `t` has the const-add and the token counters of `s`. -/
structure KeepsCounters (s t : State) : Prop where
  constAdd : t.dec.constAdd = s.dec.constAdd
  maxCount : t.dec.maxCount = s.dec.maxCount
  count : t.dec.count = s.dec.count

theorem keepsCounters_tokenStable : TokenStable KeepsCounters where
  refl _ := ⟨rfl, rfl, rfl⟩
  trans _ _ _ h h' := ⟨h'.constAdd.trans h.constAdd, h'.maxCount.trans h.maxCount, h'.count.trans h.count⟩
  need _ _ _ _ := ⟨rfl, rfl, rfl⟩
  drop _ _ _ _ := ⟨rfl, rfl, rfl⟩
  dict _ _ _ _ _ := ⟨rfl, rfl, rfl⟩
  size _ _ := ⟨rfl, rfl, rfl⟩
  lit _ _ _ := ⟨rfl, rfl, rfl⟩
  copy _ _ _ _ := ⟨rfl, rfl, rfl⟩

/-- `t` has the decoder's registers of `s`, but for the index of a description. -/
def KeepsDecoder (s t : State) : Prop := t.dec = { s.dec with descRem := t.dec.descRem }

theorem keepsDecoder_descStable (i : SlotId) : DescStable i KeepsDecoder where
  refl _ := rfl
  trans s t u h h' := by
    unfold KeepsDecoder at *
    rw [h', h]
  need _ _ _ _ := rfl
  drop _ _ _ _ := rfl
  dict _ _ _ _ _ := rfl
  clear _ := rfl
  add _ _ _ _ _ := rfl
  build s x _ := by
    unfold KeepsDecoder
    rw [State.withSlot_dec]
  rem _ _ := rfl

theorem keepsDec_cursorStable : CursorStable fun s t => t.dec = s.dec where
  refl _ := rfl
  trans _ _ _ h h' := h'.trans h
  need _ _ _ _ := rfl
  drop _ _ _ _ := rfl

/-! ### Fields and descriptions -/

/-- A field of k bits has a value of k bits. -/
theorem ReadsField.lt {k v : Nat} (h : ReadsField k s v t) : k ≤ 32 ∧ v < 2 ^ k := by
  obtain ⟨c, hc, rfl, -⟩ := h
  have hk := (Cursor.need_bits hc).1
  refine ⟨hk, ?_⟩
  rw [Nat.div_lt_iff_lt_mul (Nat.two_pow_pos _), ← Nat.pow_add, Nat.add_sub_cancel' hk]
  exact c.head.isLt

/-- The value of a field, as the operation answers it, is that number's word. -/
theorem readsField_iff {k v : Nat} : ReadsField k s v t ↔ ∃ w : Word, readField k s = .ok w t ∧ w.toNat = v := by
  constructor
  · intro h
    obtain ⟨hk, hv⟩ := h.lt
    have hlt : v < 2 ^ 32 := Nat.lt_of_lt_of_le hv (Nat.pow_le_pow_right (by decide) hk)
    have hw : (BitVec.ofNat 32 v).toNat = v := by rw [BitVec.toNat_ofNat, Nat.mod_eq_of_lt hlt]
    exact ⟨_, readField_eq_ok.mpr (hw.symm ▸ h), hw⟩
  · rintro ⟨w, hw, rfl⟩
    exact readField_eq_ok.mp hw

theorem ReadsField.keepsHost {k v : Nat} (h : ReadsField k s v t) : KeepsHost s t := by
  obtain ⟨c, -, -, rfl⟩ := h
  constructor <;> rfl

/-- The max-count field and what it sets (R105, R248). -/
theorem maxCountField_eq_ok : maxCountField s = .ok () t ↔ ∃ v s', ReadsField s.cfg.maxCountBits s v s' ∧
    t = s'.withDec { s'.dec with maxCount := (v + 1) * 2 ^ s.cfg.maxCountShift, count := 0 } := by
  have hset {v : Nat} {s' : State} (h : ReadsField s.cfg.maxCountBits s v s') :
      s'.cfg.countReg ((v + 1) <<< s'.cfg.maxCountShift) = (v + 1) * 2 ^ s.cfg.maxCountShift := by
    rw [h.keepsHost.cfg, countReg_of_lt (largestCount_lt h.lt.2), Nat.shiftLeft_eq]
  rw [maxCountField, Res.andThen_eq_ok]
  constructor
  · rintro ⟨w, s', hread, h⟩
    have hfield := readField_eq_ok.mp hread
    cases h
    exact ⟨w.toNat, s', hfield, by rw [hset hfield]⟩
  · rintro ⟨v, s', hfield, rfl⟩
    obtain ⟨w, hread, rfl⟩ := readsField_iff.mp hfield
    exact ⟨w, s', hread, by rw [hset hfield]⟩

/-- The count of a description is a field of 16 bits. -/
theorem desc_ok_lt {i : SlotId} {n : Nat} (h : desc i s = .ok n t) : n < 2 ^ 32 := by
  obtain ⟨_, _, -, h⟩ := Res.andThen_eq_ok.mp h
  obtain ⟨v, s₂, -, h⟩ := Res.andThen_eq_ok.mp h
  split at h
  · cases h
  · obtain ⟨_, _, -, h⟩ := Res.andThen_eq_ok.mp h
    obtain ⟨_, _, -, h⟩ := Res.andThen_eq_ok.mp h
    obtain ⟨_, _, -, h⟩ := Res.andThen_eq_ok.mp h
    cases h
    exact v.isLt

theorem exec_descRead {tr : TreeSel} {i : SlotId} (hi : operandTR tr = some i) (hne : i ≠ .dict) (s : State) :
    exec (.descRead tr) s = finish ((desc i s).andThen fun n s => putResult (BitVec.ofNat 32 n) s) := by
  cases tr <;> cases hi
  · exact absurd rfl hne
  · rfl
  · rfl

/-- A description is read exactly where `DESC_READ` of its tree completes (R220). -/
theorem desc_eq_ok {tr : TreeSel} {i : SlotId} (hi : operandTR tr = some i) (hne : i ≠ .dict) (hs : s.err = none)
    {n : Nat} : desc i s = .ok n t ↔ ReadsDesc tr s n t := by
  unfold ReadsDesc Completes
  rw [exec_descRead hi hne, finish_eq]
  constructor
  · intro h
    have hkeep : KeepsHost s t := (desc_leads (keepsHost_descStable i) s).of_ok h
    rw [h]
    refine ⟨_, ⟨rfl, hkeep.err.trans hs⟩, ?_, ?_⟩
    · exact (Nat.mod_eq_of_lt (desc_ok_lt h)).symm
    · rw [← hkeep.result]
      rfl
  · rintro ⟨u, ⟨hu, herr⟩, rfl, rfl⟩
    obtain ⟨n, t, h, hput⟩ := Res.andThen_eq_ok.mp (Res.ok_of_settle (Host.Outcome.next.inj hu) herr)
    have hkeep : KeepsHost s t := (desc_leads (keepsHost_descStable i) s).of_ok h
    cases hput
    have hn : (BitVec.ofNat 32 n).toNat = n := Nat.mod_eq_of_lt (desc_ok_lt h)
    rw [h, State.withResult_result, hn, ← hkeep.result]
    rfl

/-! ### Tokens (R249 to R255) -/

theorem completes_decodeToken {y : Nat} (hs : s.err = none) :
    Completes (decodeToken y) s t ↔ tokenSymbol y s = .ok () t :=
  completes_finish hs (tokenSymbol_leads keepsHost_blockStable.toTokenStable y s) (exec_decodeToken y s)

theorem completes_decodeOffset {z : Nat} (hs : s.err = none) :
    Completes (decodeOffset z) s t ↔ offsetSymbol z s = .ok () t :=
  completes_finish hs (offsetSymbol_leads keepsHost_blockStable.toTokenStable z s) (exec_decodeOffset z s)

theorem ReadsCode.keepsHost {i : SlotId} {y : Sym} (h : ReadsCode i s y t) : KeepsHost s t := by
  obtain ⟨-, c, len, -, -, -, rfl⟩ := h
  constructor <;> rfl

/-- A token is counted before it is read (R249). -/
def State.countToken (s : State) : State := s.withDec { s.dec with count := s.dec.count + 1 }

/-- One token runs exactly where the stream has its symbols and their instructions complete (R240, R249). -/
theorem tokenRound_iff (hs : s.err = none) :
    TokenRound s t ↔ token s.countToken = .ok () t := by
  unfold State.countToken
  rw [token, Res.andThen_eq_ok]
  refine exists_congr fun y => exists_congr fun s₁ => ?_
  rw [show readCode .sym = readSlot .sym from rfl, readSlot_eq_ok]
  refine and_congr_right fun hread => ?_
  have hs₁ : s₁.err = none := hread.keepsHost.err.trans hs
  rw [Res.andThen_unit_eq_ok]
  by_cases hy : y < 0x100
  · simp only [if_pos hy, completes_decodeToken hs₁]
    exact ⟨fun h => ⟨t, h, rfl⟩, fun ⟨_, h, h'⟩ => by cases h'; exact h⟩
  · simp only [if_neg hy, completes_decodeToken hs₁, exists_and_left, Res.andThen_eq_ok]
    refine exists_congr fun s₂ => and_congr_right fun hsym => exists_congr fun z => exists_congr fun s₃ => ?_
    rw [show readCode .copy = readSlot .copy from rfl, readSlot_eq_ok]
    refine and_congr_right fun hread' => completes_decodeOffset ?_
    have hkeep : KeepsHost s₁ s₂ := (tokenSymbol_leads keepsHost_blockStable.toTokenStable y s₁).of_ok hsym
    exact hread'.keepsHost.err.trans (hkeep.err.trans hs₁)

/-- From `s` to `t` n tokens were read: the host's registers, the const-add and `MAXCOUNT` are kept, output is written
in order, and `COUNT` went up by n. -/
structure ReadsTokens (n : Nat) (s t : State) : Prop where
  host : KeepsHost s t
  out : OutputGrows s t
  constAdd : t.dec.constAdd = s.dec.constAdd
  maxCount : t.dec.maxCount = s.dec.maxCount
  count : t.dec.count = s.dec.count + n

theorem tokenRound_readsTokens (hs : s.err = none) (h : TokenRound s t) : ReadsTokens 1 s t := by
  have htoken := (tokenRound_iff hs).mp h
  have hhost : KeepsHost s.countToken t := (token_leads keepsHost_blockStable.toTokenStable _).of_ok htoken
  have hout : OutputGrows s.countToken t := (token_leads outputGrows_blockStable.toTokenStable _).of_ok htoken
  have hcount : KeepsCounters s.countToken t := (token_leads keepsCounters_tokenStable _).of_ok htoken
  have hbegin : KeepsHost s s.countToken := by constructor <;> rfl
  have hsame : OutputGrows s s.countToken := .of_eq rfl rfl rfl rfl
  exact ⟨hbegin.trans hhost, hsame.trans hout, hcount.constAdd, hcount.maxCount, hcount.count⟩

theorem tokenRounds_readsTokens {n : Nat} (hs : s.err = none) (h : TokenRounds n s t) : ReadsTokens n s t := by
  induction n generalizing s with
  | zero =>
    obtain rfl : t = s := h
    exact ⟨KeepsHost.refl t, outputGrows_refl t, rfl, rfl, rfl⟩
  | succ n ih =>
    obtain ⟨-, u, hround, hrest⟩ := h
    have h₁ := tokenRound_readsTokens hs hround
    have h₂ := ih (h₁.host.err.trans hs) hrest
    exact ⟨h₁.host.trans h₂.host, h₁.out.trans h₂.out, h₂.constAdd.trans h₁.constAdd, h₂.maxCount.trans h₁.maxCount,
      by rw [h₂.count, h₁.count]; omega⟩

/-- The token loop runs tokens one by one, until its bound or a full output (R249). -/
theorem tokenLoop_eq_ok {n : Nat} (hs : s.err = none) (hn : s.dec.count + n < 2 ^ s.cfg.countBits) :
    tokenLoop n s = .ok () t ↔
      ∃ k ≤ n, TokenRounds k s t ∧ (k = n ∨ ¬ t.dec.outPos < t.dec.eff) := by
  induction n generalizing s with
  | zero =>
    constructor
    · intro h
      cases h
      exact ⟨0, Nat.le_refl 0, rfl, .inl rfl⟩
    · rintro ⟨k, hk, h, -⟩
      obtain rfl := Nat.le_zero.mp hk
      cases h
      rfl
  | succ n ih =>
    unfold tokenLoop
    by_cases hroom : s.dec.outPos < s.dec.eff
    · rw [if_pos hroom, countReg_of_lt (by omega), Res.andThen_unit_eq_ok]
      have hrest {u : State} (hu : TokenRound s u) : tokenLoop n u = .ok () t ↔
          ∃ k ≤ n, TokenRounds k u t ∧ (k = n ∨ ¬ t.dec.outPos < t.dec.eff) := by
        have hkeep := tokenRound_readsTokens hs hu
        exact ih (hkeep.host.err.trans hs) (by rw [hkeep.count, hkeep.host.cfg]; omega)
      constructor
      · rintro ⟨u, hu, h⟩
        have hround := (tokenRound_iff hs).mpr hu
        obtain ⟨k, hk, hrounds, hend⟩ := (hrest hround).mp h
        exact ⟨k + 1, by omega, ⟨hroom, u, hround, hrounds⟩, hend.imp_left (congrArg (· + 1))⟩
      · rintro ⟨k, hk, hrounds, hend⟩
        cases k with
        | zero =>
          cases hrounds
          obtain hend | hend := hend
          · omega
          · exact absurd hroom hend
        | succ k =>
          obtain ⟨-, u, hround, hrounds⟩ := hrounds
          exact ⟨u, (tokenRound_iff hs).mp hround,
            (hrest hround).mpr ⟨k, by omega, hrounds, hend.imp_left Nat.succ.inj⟩⟩
    · rw [if_neg hroom]
      constructor
      · intro h
        cases h
        exact ⟨0, Nat.zero_le _, rfl, .inr hroom⟩
      · rintro ⟨k, -, hrounds, -⟩
        cases k with
        | zero =>
          cases hrounds
          rfl
        | succ k => exact absurd hrounds.1 hroom

/-- The tokens of a block, as `MAXCOUNT` and a full output end them (R249). -/
theorem tokenLoop_eq_ok_iff_blockTokens (hs : s.err = none) (hle : s.dec.outPos ≤ s.dec.eff)
    (hmax : s.dec.maxCount < 2 ^ s.cfg.countBits) (hcount : s.dec.count = 0) :
    tokenLoop s.dec.maxCount s = .ok () t ↔ BlockTokens s t := by
  rw [tokenLoop_eq_ok hs (by omega)]
  unfold BlockTokens
  constructor
  · rintro ⟨k, hk, hrounds, hend⟩
    have hkeep := tokenRounds_readsTokens hs hrounds
    have hkcount : t.dec.count = k := by rw [hkeep.count, hcount, Nat.zero_add]
    rw [hkcount]
    exact ⟨hrounds, hk, hend.imp_right fun hfull => BitVec.le_antisymm (hkeep.out.bounded hle) (BitVec.not_lt.mp hfull)⟩
  · rintro ⟨hrounds, hk, hend⟩
    exact ⟨_, hk, hrounds, hend.imp_right fun hfull => by rw [hfull]; exact BitVec.lt_irrefl _⟩

/-! ### Every token produces a byte (R250, R252, R255) -/

/-- A copy symbol sets the size alone, const-add included (R252). -/
theorem copySymbol_ok {code : Nat} (h : copySymbol code s = .ok () t) :
    ∃ v, t.dec = { s.dec with copySize := v + s.dec.constAdd.toNat } := by
  obtain ⟨v, u, hsize, h⟩ := Res.andThen_eq_ok.mp h
  have hdec : u.dec = s.dec := (writeSize_leads keepsDec_cursorStable code s).of_ok hsize
  cases h
  exact ⟨v, by rw [State.withDec_dec, hdec]⟩

/-- An offset symbol copies from within the bytes produced (R254). -/
theorem offsetSymbol_ok {code : Nat} (h : offsetSymbol code s = .ok () t) :
    ∃ u off, u.dec = s.dec ∧ 1 ≤ off ∧ off ≤ s.dec.outPos.toNat ∧ t = copyBytes s.dec.copySize off u := by
  obtain ⟨v, u, hoff, h⟩ := Res.andThen_eq_ok.mp h
  have hdec : u.dec = s.dec := (writeOffset_leads keepsDec_cursorStable code s).of_ok hoff
  dsimp only at h
  split at h
  · cases h
  · cases h
    rename_i hle
    exact ⟨u, v + 1, hdec, by omega, by rw [← hdec]; omega, by rw [hdec]⟩

/-- A copy advances `OUTPOS` by its size, cut at `EFF` (R255). -/
theorem copyBytes_outPos {size off : Nat} (ho : 1 ≤ off) (hle : off ≤ s.dec.outPos.toNat) :
    (copyBytes size off s).dec.outPos.toNat =
      s.dec.outPos.toNat + min size (s.dec.eff.toNat - s.dec.outPos.toNat) := by
  have := s.dec.outPos.isLt
  have := s.dec.eff.isLt
  rw [← (copyRun_spec ho hle (eff := s.dec.eff.toNat) (n := size) (m := s.outMem)).1]
  refine Nat.mod_eq_of_lt ?_
  rw [(copyRun_spec ho hle).1]
  omega

/-- A token with output left and a const-add of at least 1 produces a byte (R247, R250, R252). -/
theorem token_progress (h : token s = .ok () t) (hroom : s.dec.outPos < s.dec.eff) (hadd : s.dec.constAdd ≠ 0) :
    s.dec.outPos.toNat < t.dec.outPos.toNat := by
  obtain ⟨y, s₁, hread, h⟩ := Res.andThen_eq_ok.mp h
  obtain ⟨s₂, hsym, h⟩ := Res.andThen_unit_eq_ok.mp h
  have hdec₁ : s₁.dec = s.dec := ((readCode_keeps_output .sym s).of_ok hread).1
  unfold tokenSymbol at hsym
  by_cases hy : y < 0x100
  · rw [if_pos hy] at h hsym
    cases h
    rw [literal, hdec₁, if_pos hroom] at hsym
    cases hsym
    show _ < (s.dec.outPos + 1).toNat
    bv_omega
  · rw [if_neg hy] at h hsym
    obtain ⟨z, s₃, hread', h⟩ := Res.andThen_eq_ok.mp h
    obtain ⟨v, hdec₂⟩ := copySymbol_ok hsym
    have hdec₃ : s₃.dec = s₂.dec := ((readCode_keeps_output .copy s₂).of_ok hread').1
    obtain ⟨u, off, hdec, ho, hle, rfl⟩ := offsetSymbol_ok h
    rw [copyBytes_outPos ho (hdec ▸ hle), hdec, hdec₃, hdec₂, hdec₁]
    dsimp only
    have hpos : 0 < s.dec.constAdd.toNat := by bv_omega
    have hroom' : s.dec.outPos.toNat < s.dec.eff.toNat := hroom
    omega

theorem tokenRounds_progress {n : Nat} (hs : s.err = none) (h : TokenRounds (n + 1) s t) (hadd : s.dec.constAdd ≠ 0) :
    s.dec.outPos.toNat < t.dec.outPos.toNat := by
  obtain ⟨hroom, u, hround, hrest⟩ := h
  have hu := tokenRound_readsTokens hs hround
  have hlt : s.dec.outPos.toNat < u.dec.outPos.toNat :=
    token_progress (s := s.countToken) ((tokenRound_iff hs).mp hround) hroom hadd
  exact Nat.lt_of_lt_of_le hlt (tokenRounds_readsTokens (hu.host.err.trans hs) hrest).out.outPos_le

/-- So do the tokens of a block, of which there is at least one (R248). -/
theorem BlockTokens.progress (h : BlockTokens s t) (hs : s.err = none) (hroom : s.dec.outPos < s.dec.eff)
    (hmax : s.dec.maxCount ≠ 0) (hadd : s.dec.constAdd ≠ 0) : s.dec.outPos.toNat < t.dec.outPos.toNat := by
  obtain ⟨hrounds, -, hend⟩ := h
  cases hk : t.dec.count with
  | zero =>
    rw [hk] at hrounds hend
    cases hrounds
    obtain hend | hend := hend
    · exact absurd hend.symm hmax
    · rw [hend] at hroom
      exact absurd hroom (BitVec.lt_irrefl _)
  | succ k =>
    rw [hk] at hrounds
    exact tokenRounds_progress hs hrounds hadd

/-! ### Blocks (R246, R247) -/

/-- The state at the start of a block: no error, no more output than `EFF`, and where calls have the const-add field a
const-add of at least 1 (R247). -/
structure AtBlock (s : State) : Prop where
  err : s.err = none
  outPos_le : s.dec.outPos ≤ s.dec.eff
  constAdd : s.cfg.constAddScope = .perCall → s.dec.constAdd ≠ 0

theorem readsConstAdd_of_ne {p : ConstAddScope} (h : s.cfg.constAddScope ≠ p) : ReadsConstAdd p s t ↔ t = s := by
  rw [ReadsConstAdd, if_neg h]

theorem ReadsConstAdd.keepsHost {p : ConstAddScope} (h : ReadsConstAdd p s t) : KeepsHost s t := by
  unfold ReadsConstAdd at h
  split at h
  · obtain ⟨c, -, rfl⟩ := h
    constructor <;> rfl
  · exact h ▸ KeepsHost.refl s

/-- The const-add field writes the const-add alone of the decoder's registers. -/
theorem ReadsConstAdd.dec_eq {p : ConstAddScope} (h : ReadsConstAdd p s t) :
    t.dec = { s.dec with constAdd := t.dec.constAdd } := by
  unfold ReadsConstAdd at h
  split at h
  · obtain ⟨c, -, rfl⟩ := h
    rfl
  · rw [h]

/-- The field's value is 1 to 16 (R247). -/
theorem ReadsConstAdd.constAdd_ne {p : ConstAddScope} (h : ReadsConstAdd p s t) (hp : s.cfg.constAddScope = p) :
    t.dec.constAdd ≠ 0 := by
  rw [ReadsConstAdd, if_pos hp] at h
  obtain ⟨c, -, rfl⟩ := h
  have hlt : c.head.toNat / 2 ^ 24 % 16 < 16 := Nat.mod_lt _ (by decide)
  show BitVec.ofNat 5 (c.head.toNat / 2 ^ 24 % 16 + 1) ≠ 0
  bv_omega

section
variable {tr : TreeSel} {i : SlotId} {n : Nat}

theorem ReadsDesc.keepsHost (hi : operandTR tr = some i) (hne : i ≠ .dict) (hs : s.err = none)
    (h : ReadsDesc tr s n t) : KeepsHost s t :=
  (desc_leads (keepsHost_descStable i) s).of_ok ((desc_eq_ok hi hne hs).mpr h)

theorem ReadsDesc.keepsDecoder (hi : operandTR tr = some i) (hne : i ≠ .dict) (hs : s.err = none)
    (h : ReadsDesc tr s n t) : KeepsDecoder s t :=
  (desc_leads (keepsDecoder_descStable i) s).of_ok ((desc_eq_ok hi hne hs).mpr h)

end

/-! #### The descriptions of a block -/

section
variable {s₁ s₂ s₃ : State} {n m : Nat}

theorem AtBlock.err_const (hs : AtBlock s) (hconst : ReadsConstAdd .perBlock s s₁) : s₁.err = none :=
  hconst.keepsHost.err.trans hs.err

theorem AtBlock.symDesc_eq_ok (hs : AtBlock s) (hconst : ReadsConstAdd .perBlock s s₁) :
    desc .sym s₁ = .ok n s₂ ↔ ReadsDesc .sym s₁ n s₂ :=
  desc_eq_ok rfl (by decide) (hs.err_const hconst)

theorem AtBlock.err_symDesc (hs : AtBlock s) (hconst : ReadsConstAdd .perBlock s s₁)
    (hsym : ReadsDesc .sym s₁ n s₂) : s₂.err = none :=
  (hsym.keepsHost rfl (by decide) (hs.err_const hconst)).err.trans (hs.err_const hconst)

theorem AtBlock.copyDesc_eq_ok (hs : AtBlock s) (hconst : ReadsConstAdd .perBlock s s₁)
    (hsym : ReadsDesc .sym s₁ n s₂) : desc .copy s₂ = .ok m s₃ ↔ ReadsDesc .copy s₂ m s₃ :=
  desc_eq_ok rfl (by decide) (hs.err_symDesc hconst hsym)

/-- The registers behind both descriptions are those behind the const-add field. -/
theorem AtBlock.keeps_descs (hs : AtBlock s) (hconst : ReadsConstAdd .perBlock s s₁)
    (hsym : ReadsDesc .sym s₁ n s₂) (hcopy : ReadsDesc .copy s₂ m s₃) : KeepsHost s s₃ ∧ KeepsDecoder s₁ s₃ := by
  have herr₁ := hs.err_const hconst
  have herr₂ := hs.err_symDesc hconst hsym
  constructor
  · exact hconst.keepsHost.trans ((hsym.keepsHost rfl (by decide) herr₁).trans (hcopy.keepsHost rfl (by decide) herr₂))
  · exact (keepsDecoder_descStable .sym).trans _ _ _ (hsym.keepsDecoder rfl (by decide) herr₁)
      (hcopy.keepsDecoder rfl (by decide) herr₂)

end

/-! #### Rounds of the outer loop -/

/-- An end marker is read first: that of the symbol tree, or after a symbol tree that of the copy tree (R246). -/
def ReadsMarker (s t : State) : Prop :=
  ∃ s₁, ReadsConstAdd .perBlock s s₁ ∧
    (ReadsDesc .sym s₁ 0 t ∨ ∃ n s₂, ReadsDesc .sym s₁ n s₂ ∧ n ≠ 0 ∧ ReadsDesc .copy s₂ 0 t)

/-- A block is begun: the const-add field, two trees and the max-count field, which sets the counters (R101, R248). -/
def BeginsBlock (s t : State) : Prop :=
  ∃ s₁ n s₂ m s₃ v s₄, ReadsConstAdd .perBlock s s₁ ∧ ReadsDesc .sym s₁ n s₂ ∧ n ≠ 0 ∧ ReadsDesc .copy s₂ m s₃ ∧ m ≠ 0 ∧
    ReadsField s.cfg.maxCountBits s₃ v s₄ ∧
    t = s₄.withDec { s₄.dec with maxCount := (v + 1) * 2 ^ s.cfg.maxCountShift, count := 0 }

/-- The state `t` at the first token of a block begun in `s`. -/
structure AtTokens (s t : State) : Prop where
  err : t.err = none
  outPos : t.dec.outPos = s.dec.outPos
  eff : t.dec.eff = s.dec.eff
  constAdd : t.dec.constAdd ≠ 0
  count : t.dec.count = 0
  maxCount_ne : t.dec.maxCount ≠ 0
  maxCount_lt : t.dec.maxCount < 2 ^ t.cfg.countBits

theorem AtBlock.constAdd_ne (h : AtBlock s) (hread : ReadsConstAdd .perBlock s t) : t.dec.constAdd ≠ 0 := by
  cases hp : s.cfg.constAddScope with
  | perBlock => exact hread.constAdd_ne hp
  | perCall =>
    obtain rfl := (readsConstAdd_of_ne (by rw [hp]; decide)).mp hread
    exact h.constAdd hp

theorem BeginsBlock.atTokens (h : BeginsBlock s t) (hs : AtBlock s) : AtTokens s t := by
  obtain ⟨s₁, n, s₂, m, s₃, v, s₄, hconst, hsym, -, hcopy, -, hmax, rfl⟩ := h
  obtain ⟨hhost, hdec₃⟩ := hs.keeps_descs hconst hsym hcopy
  have hhost₄ : KeepsHost s s₄ := hhost.trans hmax.keepsHost
  have hdec : s₄.dec = { s₁.dec with descRem := s₃.dec.descRem } := by
    obtain ⟨c, -, -, rfl⟩ := hmax
    exact hdec₃
  have hlarge := largestCount_lt (c := s.cfg) hmax.lt.2
  rw [Nat.shiftLeft_eq] at hlarge
  constructor <;> simp only [State.withDec_err, State.withDec_dec, State.withDec_cfg, hhost₄.cfg]
  case err => exact hhost₄.err.trans hs.err
  case outPos => rw [hdec, hconst.dec_eq]
  case eff => rw [hdec, hconst.dec_eq]
  case constAdd =>
    rw [hdec]
    exact hs.constAdd_ne hconst
  case maxCount_ne => exact Nat.mul_ne_zero (Nat.succ_ne_zero v) (Nat.two_pow_pos _).ne'
  case maxCount_lt => exact hlarge

theorem AtTokens.outPos_le (h : AtTokens s t) (hs : AtBlock s) : t.dec.outPos ≤ t.dec.eff := by
  rw [h.outPos, h.eff]
  exact hs.outPos_le

theorem AtTokens.tokenLoop_eq_ok (h : AtTokens s t) (hs : AtBlock s) :
    tokenLoop t.dec.maxCount t = .ok () u ↔ BlockTokens t u :=
  tokenLoop_eq_ok_iff_blockTokens h.err (h.outPos_le hs) h.maxCount_lt h.count

/-- A block leaves the state at the start of the next one, with more output than before. -/
theorem AtTokens.next (h : AtTokens s t) (hs : AtBlock s) (hroom : s.dec.outPos < s.dec.eff)
    (htokens : BlockTokens t u) :
    AtBlock u ∧ u.dec.eff = s.dec.eff ∧ s.dec.outPos.toNat < u.dec.outPos.toNat := by
  have hread := tokenRounds_readsTokens h.err htokens.1
  refine ⟨⟨hread.host.err.trans h.err, hread.out.bounded (h.outPos_le hs), fun _ => ?_⟩, hread.out.eff.trans h.eff, ?_⟩
  · rw [hread.constAdd]
    exact h.constAdd
  · rw [← h.outPos]
    rw [← h.outPos, ← h.eff] at hroom
    exact htokens.progress h.err hroom h.maxCount_ne h.constAdd

/-- A round of the outer loop: an end marker, or a block and the rounds that are left (R246). -/
theorem blockLoop_succ_eq_ok {k : Nat} (hs : AtBlock s) (hroom : s.dec.outPos < s.dec.eff) :
    blockLoop (k + 1) s = .ok () t ↔ ReadsMarker s t ∨
      ∃ s' u, BeginsBlock s s' ∧ BlockTokens s' u ∧ blockLoop k u = .ok () t := by
  rw [blockLoop, if_pos hroom]
  constructor
  · intro h
    obtain ⟨s₁, hconst, hafter⟩ := Res.andThen_unit_eq_ok.mp h
    replace hconst := constFieldAt_eq_ok.mp hconst
    obtain ⟨n, s₂, hsym, hafter⟩ := Res.andThen_eq_ok.mp hafter
    replace hsym := (hs.symDesc_eq_ok hconst).mp hsym
    split at hafter
    · subst ‹n = 0›
      cases hafter
      exact .inl ⟨s₁, hconst, .inl hsym⟩
    obtain ⟨m, s₃, hcopy, hafter⟩ := Res.andThen_eq_ok.mp hafter
    replace hcopy := (hs.copyDesc_eq_ok hconst hsym).mp hcopy
    split at hafter
    · subst ‹m = 0›
      cases hafter
      exact .inl ⟨s₁, hconst, .inr ⟨n, s₂, hsym, ‹_›, hcopy⟩⟩
    obtain ⟨s', hmax, hafter⟩ := Res.andThen_unit_eq_ok.mp hafter
    obtain ⟨v, s₄, hfield, hs'⟩ := maxCountField_eq_ok.mp hmax
    obtain ⟨hhost, -⟩ := hs.keeps_descs hconst hsym hcopy
    rw [hhost.cfg] at hfield hs'
    obtain ⟨u, htokens, hrest⟩ := Res.andThen_unit_eq_ok.mp hafter
    have hbegin : BeginsBlock s s' := ⟨s₁, n, s₂, m, s₃, v, s₄, hconst, hsym, ‹_›, hcopy, ‹_›, hfield, hs'⟩
    exact .inr ⟨s', u, hbegin, ((hbegin.atTokens hs).tokenLoop_eq_ok hs).mp htokens, hrest⟩
  · rintro (⟨s₁, hconst, hsym | ⟨n, s₂, hsym, hn, hcopy⟩⟩ | ⟨s', u, hbegin, htokens, hrest⟩)
    · rw [constFieldAt_eq_ok.mpr hconst, Res.ok_andThen, (hs.symDesc_eq_ok hconst).mpr hsym, Res.ok_andThen, if_pos rfl]
    · rw [constFieldAt_eq_ok.mpr hconst, Res.ok_andThen, (hs.symDesc_eq_ok hconst).mpr hsym, Res.ok_andThen, if_neg hn,
        (hs.copyDesc_eq_ok hconst hsym).mpr hcopy, Res.ok_andThen, if_pos rfl]
    · have hloop := ((hbegin.atTokens hs).tokenLoop_eq_ok hs).mpr htokens
      obtain ⟨s₁, n, s₂, m, s₃, v, s₄, hconst, hsym, hn, hcopy, hm, hfield, hs'⟩ := hbegin
      obtain ⟨hhost, -⟩ := hs.keeps_descs hconst hsym hcopy
      have hmax : maxCountField s₃ = .ok () s' :=
        maxCountField_eq_ok.mpr ⟨v, s₄, hhost.cfg.symm ▸ hfield, hhost.cfg.symm ▸ hs'⟩
      rw [constFieldAt_eq_ok.mpr hconst, Res.ok_andThen, (hs.symDesc_eq_ok hconst).mpr hsym, Res.ok_andThen, if_neg hn,
        (hs.copyDesc_eq_ok hconst hsym).mpr hcopy, Res.ok_andThen, if_neg hm, hmax, Res.ok_andThen, hloop,
        Res.ok_andThen, hrest]

/-- What is left of the outer loop, round by round. -/
theorem blocks_iff_of_room (hroom : s.dec.outPos < s.dec.eff) : Blocks s t ↔ ReadsMarker s t ∨
    ∃ s' u, BeginsBlock s s' ∧ BlockTokens s' u ∧ Blocks u t := by
  constructor
  · intro h
    cases h with
    | outputFull hfull => exact absurd hroom (hfull ▸ BitVec.lt_irrefl _)
    | symMarker _ hconst hsym => exact .inl ⟨_, hconst, .inl hsym⟩
    | copyMarker _ hconst hsym hn hcopy => exact .inl ⟨_, hconst, .inr ⟨_, _, hsym, hn, hcopy⟩⟩
    | block _ hconst hsym hn hcopy hm hfield htokens hrest =>
      exact .inr ⟨_, _, ⟨_, _, _, _, _, _, _, hconst, hsym, hn, hcopy, hm, hfield, rfl⟩, htokens, hrest⟩
  · rintro (⟨s₁, hconst, hsym | ⟨n, s₂, hsym, hn, hcopy⟩⟩ | ⟨_, u, hbegin, htokens, hrest⟩)
    · exact .symMarker hroom hconst hsym
    · exact .copyMarker hroom hconst hsym hn hcopy
    · obtain ⟨s₁, n, s₂, m, s₃, v, s₄, hconst, hsym, hn, hcopy, hm, hfield, rfl⟩ := hbegin
      exact .block hroom hconst hsym hn hcopy hm hfield htokens hrest

theorem blocks_iff_of_full (hfull : s.dec.outPos = s.dec.eff) : Blocks s t ↔ t = s := by
  have hno : ¬ s.dec.outPos < s.dec.eff := hfull ▸ BitVec.lt_irrefl _
  constructor
  · intro h
    cases h with
    | outputFull _ => rfl
    | symMarker hroom => exact absurd hroom hno
    | copyMarker hroom => exact absurd hroom hno
    | block hroom => exact absurd hroom hno
  · rintro rfl
    exact .outputFull hfull

/-- The outer loop ends exactly where the stream has its blocks: each round produces a byte, so a bound of what is left
of the output is never reached first (R246, log 24). -/
theorem blockLoop_eq_ok {k : Nat} (hs : AtBlock s) (hk : s.dec.eff.toNat - s.dec.outPos.toNat ≤ k) :
    blockLoop k s = .ok () t ↔ Blocks s t := by
  induction k generalizing s with
  | zero =>
    have hfull : s.dec.outPos = s.dec.eff :=
      BitVec.le_antisymm hs.outPos_le (Nat.sub_eq_zero_iff_le.mp (Nat.le_zero.mp hk))
    rw [blocks_iff_of_full hfull, blockLoop]
    exact ⟨fun h => by cases h; rfl, fun h => by rw [h]⟩
  | succ k ih =>
    by_cases hroom : s.dec.outPos < s.dec.eff
    · rw [blockLoop_succ_eq_ok hs hroom, blocks_iff_of_room hroom]
      refine or_congr Iff.rfl (exists_congr fun s' => exists_congr fun u => and_congr_right fun hbegin =>
        and_congr_right fun htokens => ?_)
      obtain ⟨hnext, heff, hlt⟩ := (hbegin.atTokens hs).next hs hroom htokens
      exact ih hnext (by rw [heff]; omega)
    · rw [blocks_iff_of_full (BitVec.le_antisymm hs.outPos_le (BitVec.not_lt.mp hroom)), blockLoop, if_neg hroom]
      exact ⟨fun h => by cases h; rfl, fun h => by rw [h]⟩

/-! ### The whole command (R100, R240, R243) -/

/-- The header: 32 bits dropped, then the declared size (R243). -/
theorem datHeader_eq_ok : datHeader s = .ok () t ↔ ∃ x declared s₁ s₂, ReadsField 32 s x s₁ ∧
    ReadsField 32 s₁ declared s₂ ∧ t = startOutput (BitVec.ofNat 32 declared) s₂ := by
  constructor
  · intro h
    obtain ⟨s₀, hneed, h⟩ := Res.andThen_unit_eq_ok.mp h
    obtain ⟨s₁, hdrop, h⟩ := Res.andThen_unit_eq_ok.mp h
    obtain ⟨w, s₂, hread, h⟩ := Res.andThen_eq_ok.mp h
    cases h
    obtain ⟨c, hc, he⟩ | ⟨k, -, he⟩ := onCursor_cases (s.cur.need s.cfg s.inMem 32) s <;>
      rw [needBits, he] at hneed <;> cases hneed
    obtain ⟨-, -, rfl⟩ := dropBits_eq_ok.mp hdrop
    refine ⟨_, w.toNat, _, s₂, ⟨c, hc, rfl, rfl⟩, readField_eq_ok.mp hread, ?_⟩
    rw [BitVec.ofNat_toNat, BitVec.setWidth_eq]
  · rintro ⟨x, declared, s₁, s₂, ⟨c, hc, -, rfl⟩, hdeclared, rfl⟩
    obtain ⟨w, hread, rfl⟩ := readsField_iff.mp hdeclared
    rw [datHeader, needBits_of_ok hc, Res.ok_andThen, dropBits_of_le (by decide) (Cursor.need_bits hc).2,
      Res.ok_andThen]
    show (readField 32 (s.withCur (c.dropped 32))).andThen _ = _
    rw [hread, Res.ok_andThen, BitVec.ofNat_toNat, BitVec.setWidth_eq]

theorem startOutput_keepsHost (declared : Word) (s : State) : KeepsHost s (startOutput declared s) := by
  unfold startOutput
  dsimp only
  split <;> constructor <;> rfl

theorem completes_dictInit (hs : s.err = none) : Completes .dictInit s t ↔ dictInit s = .ok () t :=
  completes_finish hs (dictInit_leads keepsHost_blockStable.toDictStable s) rfl

/-- The first block begins with no output and, where calls have the field, with the call's const-add (R245, R247). -/
theorem ReadsConstAdd.atBlock {declared : Word} (hs : s.err = none)
    (hconst : ReadsConstAdd .perCall (startOutput declared s) t) : AtBlock t := by
  have hhost := hconst.keepsHost
  have hpos : t.dec.outPos = 0 := by
    rw [hconst.dec_eq]
    exact startOutput_outPos declared s
  refine ⟨hhost.err.trans ((startOutput_keepsHost declared s).err.trans hs), ?_, fun hp => ?_⟩
  · rw [hpos]
    exact Nat.zero_le _
  · exact hconst.constAdd_ne (hhost.cfg ▸ hp)

/-- The argument checks pass (R241). -/
theorem datArguments_of (hin : s.inPresent = true) (hout : s.outPresent = true → s.outSize ≠ 0) :
    datArguments s = .ok () s := by
  obtain ⟨h | ⟨hp, hz⟩, -⟩ | ⟨-, -, h⟩ := datArguments_cases s
  · exact absurd (hin.symm.trans h) nofun
  · exact absurd hz (hout hp)
  · exact h

/-- `DAT_DECODE` ends without a raise exactly where the stream is one that `Decodes` describes. -/
theorem datRun_eq_ok (hs : s.err = none) (hin : s.inPresent = true) (hout : s.outPresent = true → s.outSize ≠ 0) :
    datRun s = .ok () t ↔ ∃ u, Decodes s u ∧ t = (u.withOutSize u.dec.outPos).withResult u.dec.outPos := by
  rw [datRun, datArguments_of hin hout, Res.ok_andThen]
  constructor
  · intro h
    obtain ⟨s₀, hdict, hafter⟩ := Res.andThen_unit_eq_ok.mp h
    have hhost : KeepsHost s s₀ := (dictInit_leads keepsHost_blockStable.toDictStable s).of_ok hdict
    rw [curInit, Res.ok_andThen, hhost.inLen] at hafter
    obtain ⟨_, hheader, hafter⟩ := Res.andThen_unit_eq_ok.mp hafter
    obtain ⟨s₃, hconst, hafter⟩ := Res.andThen_unit_eq_ok.mp hafter
    obtain ⟨u, hblocks, hresult⟩ := Res.andThen_unit_eq_ok.mp hafter
    cases hresult
    obtain ⟨x, declared, s₁, s₂, hdropped, hdeclared, rfl⟩ := datHeader_eq_ok.mp hheader
    replace hconst := constFieldAt_eq_ok.mp hconst
    have hs₂ : s₂.err = none := (hdropped.keepsHost.trans hdeclared.keepsHost).err.trans (hhost.err.trans hs)
    have hat := hconst.atBlock hs₂
    exact ⟨u, ⟨s₀, s₁, s₂, s₃, x, declared, (completes_dictInit hs).mpr hdict, hdropped, hdeclared, hconst,
      (blockLoop_eq_ok hat (Nat.sub_le _ _)).mp hblocks⟩, rfl⟩
  · rintro ⟨u, ⟨s₀, s₁, s₂, s₃, x, declared, hdict, hdropped, hdeclared, hconst, hblocks⟩, rfl⟩
    replace hdict := (completes_dictInit hs).mp hdict
    have hhost : KeepsHost s s₀ := (dictInit_leads keepsHost_blockStable.toDictStable s).of_ok hdict
    have hs₂ : s₂.err = none := (hdropped.keepsHost.trans hdeclared.keepsHost).err.trans (hhost.err.trans hs)
    have hat := hconst.atBlock hs₂
    have hheader := datHeader_eq_ok.mpr ⟨x, declared, s₁, s₂, hdropped, hdeclared, rfl⟩
    rw [hdict, Res.ok_andThen, curInit, Res.ok_andThen, hhost.inLen, hheader, Res.ok_andThen,
      constFieldAt_eq_ok.mpr hconst, Res.ok_andThen, (blockLoop_eq_ok hat (Nat.sub_le _ _)).mpr hblocks]
    rfl

/-! ### A stream that begins with an end marker (R147, R246) -/

/-- A cursor with no valid bit; the next word is word p. -/
def Cursor.emptyAt (p : Nat) (limit : Word) (exh : Bool) : Cursor := ⟨0, 0, 0, BitVec.ofNat 32 p, limit, exh⟩

/-- A cursor whose window is a word and zeros below it, with b valid bits; the next word is word p. -/
def Cursor.holding (w : Word) (b : BitVec 6) (p : Nat) (limit : Word) (exh : Bool) : Cursor :=
  ⟨w, 0, b, BitVec.ofNat 32 p, limit, exh⟩

theorem Cursor.withWindow_append (c : Cursor) (h b : Word) :
    c.withWindow (h ++ b) = { c with head := h, buf := b } := by
  have hh : (h ++ b).extractLsb' 32 32 = h := by
    apply BitVec.eq_of_toNat_eq
    simp only [BitVec.extractLsb'_toNat, append_toNat, Nat.shiftRight_eq_div_pow]
    omega
  have hb : (h ++ b).extractLsb' 0 32 = b := by
    apply BitVec.eq_of_toNat_eq
    simp only [BitVec.extractLsb'_toNat, append_toNat, Nat.shiftRight_eq_div_pow]
    omega
  simp only [Cursor.withWindow, hh, hb]

/-- The upper half of a window moves as a word of its own while the lower half is 0. -/
theorem append_zero_shiftLeft (w : Word) (n : Nat) : (w ++ 0#32) <<< n = (w <<< n) ++ 0#32 := by
  apply BitVec.eq_of_toNat_eq
  rw [BitVec.toNat_shiftLeft, append_toNat, append_toNat, BitVec.toNat_shiftLeft, Nat.shiftLeft_eq, Nat.shiftLeft_eq,
    BitVec.toNat_zero, Nat.add_zero, Nat.add_zero, Nat.mul_right_comm]
  omega

section
variable (w : Word) (p : Nat) (limit : Word) (exh : Bool)

theorem Cursor.dropped_holding (b : BitVec 6) (n : Nat) :
    (holding w b p limit exh).dropped n = .holding (w <<< n) (b - BitVec.ofNat 6 n) p limit exh := by
  have hwindow : (holding w b p limit exh).window <<< n = (w <<< n) ++ 0#32 := append_zero_shiftLeft w n
  rw [dropped, hwindow, withWindow_append]
  rfl

theorem Cursor.dropped_holding_all : (holding w 32 p limit exh).dropped 32 = .emptyAt p limit exh := by
  rw [dropped_holding, BitVec.shiftLeft_eq_zero (Nat.le_refl 32)]
  rfl

theorem Cursor.merge_emptyAt (k : Nat) : (emptyAt p limit exh).merge k w = .holding w 32 (k + 1) limit exh := by
  have hwindow : (emptyAt p limit exh).window ||| (w.setWidth 64 <<< (32 - (0 : BitVec 6).toNat)) = w ++ 0#32 := by
    have := w.isLt
    apply BitVec.eq_of_toNat_eq
    have hzero : (emptyAt p limit exh).window = 0#64 := (by decide : 0#32 ++ 0#32 = 0#64)
    rw [hzero, BitVec.zero_or, BitVec.toNat_shiftLeft, BitVec.toNat_setWidth, append_toNat, Nat.shiftLeft_eq,
      BitVec.toNat_zero]
    show w.toNat % 2 ^ 64 * 2 ^ 32 % 2 ^ 64 = w.toNat * 2 ^ 32 + 0
    omega
  have hmerge : (emptyAt p limit exh).merge k w = { (emptyAt p limit exh).withWindow
      ((emptyAt p limit exh).window ||| (w.setWidth 64 <<< (32 - (0 : BitVec 6).toNat))) with
        bits := 32, pos := BitVec.ofNat 32 (k + 1) } := rfl
  rw [hmerge, hwindow, withWindow_append]
  rfl

end

section
variable {cfg : Config} {m : Memory} {p n : Nat} {limit : Word} {exh : Bool}

/-- `NEED` of an empty cursor, before the first skipped word, pulls word p (R145, R146). -/
theorem Cursor.need_emptyAt (h₁ : 1 ≤ n) (h₂ : n ≤ 32) (hskip : p + 1 < cfg.skipStride) (hlt : p < limit.toNat) :
    (emptyAt p limit exh).need cfg m n = .ok (.holding (inWord m p) 32 (p + 1) limit exh) := by
  have hpos : (BitVec.ofNat 32 p).toNat = p := Nat.mod_eq_of_lt (Nat.lt_trans hlt limit.isLt)
  have hp : skipIndex cfg p = p := if_neg (by rw [Nat.mod_eq_of_lt hskip]; exact Nat.succ_ne_zero p)
  have hpull : (emptyAt p limit exh).pull cfg m = .ok ((emptyAt p limit exh).merge p (inWord m p)) := by
    simp only [pull, emptyAt, hpos, hp, if_neg (Nat.not_le.mpr hlt)]
  rw [need, if_neg (by omega), if_pos (show (emptyAt p limit exh).bits.toNat < n from h₁), hpull, merge_emptyAt]

/-- Past the end the one tolerated pull supplies zeros (R147). -/
theorem Cursor.need_emptyAt_of_end (h₁ : 1 ≤ n) (h₂ : n ≤ 32) (hp32 : p < 2 ^ 32) (hskip : p + 1 < cfg.skipStride)
    (hge : limit.toNat ≤ p) :
    (emptyAt p limit false).need cfg m n = .ok (.holding 0 32 (p + 1) limit true) := by
  have hpos : (BitVec.ofNat 32 p).toNat = p := Nat.mod_eq_of_lt hp32
  have hp : skipIndex cfg p = p := if_neg (by rw [Nat.mod_eq_of_lt hskip]; exact Nat.succ_ne_zero p)
  have hpull : (emptyAt p limit false).pull cfg m = .ok ((emptyAt p limit true).merge p 0) := by
    simp only [pull, emptyAt, hpos, hp, if_pos hge]
    rfl
  rw [need, if_neg (by omega), if_pos (show (emptyAt p limit false).bits.toNat < n from h₁), hpull, merge_emptyAt]

/-- A field of a whole word, read by an empty cursor. -/
theorem readsField_emptyAt (hcur : s.cur = .emptyAt p limit exh) (hskip : p + 1 < s.cfg.skipStride)
    (hlt : p < limit.toNat) :
    ReadsField 32 s (inWord s.inMem p).toNat (s.withCur (.emptyAt (p + 1) limit exh)) := by
  refine ⟨.holding (inWord s.inMem p) 32 (p + 1) limit exh, ?_, (Nat.div_one _).symm, ?_⟩
  · rw [hcur]
    exact Cursor.need_emptyAt (by decide) (by decide) hskip hlt
  · rw [Cursor.dropped_holding_all]

end

/-- `LIMIT` is the number of whole words (R37). -/
theorem limit_toNat (inLen : Word) : (inLen >>> 2).toNat = inLen.toNat / 4 := by
  rw [BitVec.toNat_ushiftRight, Nat.shiftRight_eq_div_pow]

/-- The header of an input of at least two words (R243). -/
theorem datHeader_of_two_words (hcur : s.cur = Cursor.init s.inLen) (hstride : 3 ≤ s.cfg.skipStride)
    (hlen : 8 ≤ s.inLen.toNat) : datHeader s =
      .ok () (startOutput (inWord s.inMem 1) (s.withCur (.emptyAt 2 (s.inLen >>> 2) false))) := by
  have hlimit := limit_toNat s.inLen
  have hword₀ := readsField_emptyAt (s := s) (p := 0) (limit := s.inLen >>> 2) (exh := false) hcur (by omega) (by omega)
  have hword₁ := readsField_emptyAt (s := s.withCur (.emptyAt 1 (s.inLen >>> 2) false)) (p := 1) rfl
    (show 1 + 1 < s.cfg.skipStride by omega) (by omega)
  refine datHeader_eq_ok.mpr ⟨_, _, _, _, hword₀, hword₁, ?_⟩
  rw [BitVec.ofNat_toNat, BitVec.setWidth_eq]
  rfl

/-- The output that a header starts, as updates of the state (R244, R245). -/
theorem startOutput_eq (declared : Word) (s : State) : startOutput declared s =
    ((s.withDec { s.dec with eff := effectiveSize declared s.outSize, outPos := 0 }).withOutMem
      (if s.outPresent then s.outMem else [])).withOutLen
      (if s.outPresent then s.outLen else some (effectiveSize declared s.outSize)) := by
  cases h : s.outPresent <;> simp [startOutput, h]
  rfl

/-- The const-add field is read once before the first block, be it the call's or the block's (R102, R247). -/
theorem ReadsConstAdd.once (h : ReadsConstAdd s.cfg.constAddScope s t) :
    ∃ a, ReadsConstAdd .perCall s a ∧ ReadsConstAdd .perBlock a t ∧ a.dec.outPos = s.dec.outPos ∧
      a.dec.eff = s.dec.eff := by
  have hdec := h.dec_eq
  cases hp : s.cfg.constAddScope with
  | perCall =>
    rw [hp] at h
    exact ⟨t, h, (readsConstAdd_of_ne (by rw [h.keepsHost.cfg, hp]; decide)).mpr rfl, by rw [hdec], by rw [hdec]⟩
  | perBlock =>
    rw [hp] at h
    exact ⟨s, (readsConstAdd_of_ne (by rw [hp]; decide)).mpr rfl, h, rfl, rfl⟩

theorem Builder.build_reset (cfg : Config) : (Builder.reset cfg).build cfg = some (Slot.reset cfg) := by
  have hempty : (Builder.reset cfg).isEmpty = true := by
    rw [Builder.isEmpty, List.all_eq_true]
    intro i _
    rw [((Builder.reset_atReset cfg).1 (i + 1)).2]
    rfl
  rw [Builder.build, if_pos hempty]

/-- A description of no symbols: the end marker (R179, R220, R224). -/
theorem desc_of_zero_count {i : SlotId} {c : Cursor} (hv : s.dictValid = true)
    (hc : s.cur.need s.cfg s.inMem 16 = .ok c) (hzero : c.head.toNat / 2 ^ 16 = 0) :
    desc i s = .ok 0 ((setRem (-1) ((s.withCur (c.dropped 16)).withBld (Builder.reset s.cfg))).withSlot i
      (Slot.reset s.cfg)) := by
  obtain ⟨v, hread, hval⟩ := readField_of_need hc
  have hv0 : v.toNat = 0 := hval.trans hzero
  have hdict : dictInit s = .ok () s := if_pos hv
  have hbuild (t : State) (ht : t.bld.build t.cfg = some (Slot.reset s.cfg)) :
      buildSlot i t = .ok () (t.withSlot i (Slot.reset s.cfg)) := by rw [buildSlot, ht]
  rw [desc, hdict, Res.ok_andThen, hread, Res.ok_andThen, hv0, if_neg (Nat.not_lt_zero _), clearBuilder, Res.ok_andThen,
    descLoop, Res.ok_andThen, hbuild _ (Builder.build_reset s.cfg)]
  rfl

/-- A round that reads the end marker of the symbol tree (R246). -/
theorem blockLoop_of_symMarker {k : Nat} (hroom : s.dec.outPos < s.dec.eff) (hconst : ReadsConstAdd .perBlock s t)
    (hdesc : desc .sym t = .ok 0 u) : blockLoop (k + 1) s = .ok () u := by
  rw [blockLoop, if_pos hroom, constFieldAt_eq_ok.mpr hconst, Res.ok_andThen, hdesc, Res.ok_andThen, if_pos rfl]

/-- The third word of the input, or the zero word of the one tolerated pull (R145, R147). -/
theorem Cursor.need_third_word {cfg : Config} {m : Memory} {n : Nat} {inLen w : Word} (h₁ : 1 ≤ n) (h₂ : n ≤ 32)
    (hstride : 4 ≤ cfg.skipStride) (hw : w = if 12 ≤ inLen.toNat then inWord m 2 else 0) :
    (emptyAt 2 (inLen >>> 2) false).need cfg m n = .ok (.holding w 32 3 (inLen >>> 2) (decide (inLen.toNat < 12))) := by
  have hlimit := limit_toNat inLen
  by_cases h : 12 ≤ inLen.toNat
  · rw [hw, if_pos h, decide_eq_false (Nat.not_lt.mpr h)]
    exact need_emptyAt h₁ h₂ hstride (by omega)
  · rw [hw, if_neg h, decide_eq_true (Nat.lt_of_not_le h)]
    exact need_emptyAt_of_end h₁ h₂ (by decide) hstride (by omega)

theorem effectiveSize_ne_zero {declared outSize : Word} (h : declared ≠ 0) : effectiveSize declared outSize ≠ 0 := by
  unfold effectiveSize
  split_ifs with h₁ h₂
  · exact h
  · exact h
  · exact h₁

theorem Cursor.need_of_le {cfg : Config} {m : Memory} {c : Cursor} {n : Nat} (h : n ≤ 32) (hb : n ≤ c.bits.toNat) :
    c.need cfg m n = .ok c := by
  rw [need, if_neg (Nat.not_lt.mpr h), if_neg (Nat.not_lt.mpr hb)]

/-- `EFF`, as one choice (R244). -/
theorem effectiveSize_eq (declared outSize : Word) : effectiveSize declared outSize =
    if outSize = 0 ∨ declared ≤ outSize then declared else outSize := by
  unfold effectiveSize
  by_cases hz : outSize = 0
  · rw [if_pos hz, if_pos (.inl hz)]
  · rw [if_neg hz]
    exact if_congr (by rw [or_iff_right hz]) rfl rfl

section
variable (s : State) (w : Word)

/-- A cursor in the third word of the input, or in the one tolerated zero word, b bits of it left. -/
def thirdWord (head : Word) (b : BitVec 6) : Cursor :=
  .holding head b 3 (s.inLen >>> 2) (decide (s.inLen.toNat < 12))

/-- The state behind a header of two words (R243). -/
def afterHeader : State := startOutput (inWord s.inMem 1) (s.withCur (.emptyAt 2 (s.inLen >>> 2) false))

/-- The state behind a const-add field in the third word (R247). -/
def afterConstAdd : State := ((afterHeader s).withCur (thirdWord s (w <<< 4 <<< 4) 24)).withDec
  { (afterHeader s).dec with constAdd := BitVec.ofNat 5 (w.toNat / 2 ^ 24 % 16 + 1) }

/-- The state behind a symbol-tree description of no symbols that follows it (R220). -/
def afterMarker : State :=
  (setRem (-1) (((afterConstAdd s w).withCur (thirdWord s (w <<< 4 <<< 4 <<< 16) 8)).withBld
    (Builder.reset s.cfg))).withSlot .sym (Slot.reset s.cfg)

theorem afterHeader_eq : afterHeader s = (((s.withCur (.emptyAt 2 (s.inLen >>> 2) false)).withDec
    { s.dec with eff := effectiveSize (inWord s.inMem 1) s.outSize, outPos := 0 }).withOutMem
      (if s.outPresent then s.outMem else [])).withOutLen
      (if s.outPresent then s.outLen else some (effectiveSize (inWord s.inMem 1) s.outSize)) := startOutput_eq _ _

theorem readsConstAdd_afterHeader (hstride : 4 ≤ s.cfg.skipStride)
    (hw : w = if 12 ≤ s.inLen.toNat then inWord s.inMem 2 else 0) :
    ReadsConstAdd (afterHeader s).cfg.constAddScope (afterHeader s) (afterConstAdd s w) := by
  refine (if_pos rfl).mpr ⟨thirdWord s w 32, ?_, ?_⟩
  · rw [afterHeader_eq]
    exact Cursor.need_third_word (by decide) (by decide) hstride hw
  · rw [afterConstAdd, thirdWord, thirdWord, Cursor.dropped_holding, Cursor.dropped_holding]
    rfl

theorem desc_afterConstAdd (hv : s.dictValid = true) (hmarker : w.toNat / 2 ^ 8 % 2 ^ 16 = 0) :
    desc .sym (afterConstAdd s w) = .ok 0 (afterMarker s w) := by
  have hcur : (afterConstAdd s w).cur = thirdWord s (w <<< 4 <<< 4) 24 := rfl
  have hcfg : (afterConstAdd s w).cfg = s.cfg := by simp [afterConstAdd, afterHeader_eq]
  have hvalid : (afterConstAdd s w).dictValid = true := by simpa [afterConstAdd, afterHeader_eq] using hv
  have hneed : (thirdWord s (w <<< 4 <<< 4) 24).need s.cfg (afterConstAdd s w).inMem 16 =
      .ok (thirdWord s (w <<< 4 <<< 4) 24) := Cursor.need_of_le (by decide) (by decide : 16 ≤ (24#6).toNat)
  have hzero : (w <<< 4 <<< 4).toNat / 2 ^ 16 = 0 := by
    rw [BitVec.toNat_shiftLeft, BitVec.toNat_shiftLeft, Nat.shiftLeft_eq, Nat.shiftLeft_eq]
    omega
  rw [← hcfg, ← hcur] at hneed
  rw [desc_of_zero_count hvalid hneed (by rw [hcur]; exact hzero), hcfg, hcur, thirdWord, Cursor.dropped_holding]
  rfl

theorem afterMarker_dec : (afterMarker s w).dec =
    { (afterHeader s).dec with constAdd := BitVec.ofNat 5 (w.toNat / 2 ^ 24 % 16 + 1), descRem := -1 } := rfl

/-- The output is not full before the first block. -/
theorem afterHeader_room (hdeclared : inWord s.inMem 1 ≠ 0) : (afterHeader s).dec.outPos < (afterHeader s).dec.eff := by
  rw [afterHeader, startOutput_outPos, startOutput_eff]
  have hne := effectiveSize_ne_zero (outSize := s.outSize) hdeclared
  exact (BitVec.pos_iff_ne_zero _).mpr hne

end

/-- A `DAT_DECODE` whose first block begins with an end marker (R240, R246). -/
theorem datRun_of_marker {w : Word} (hin : s.inPresent = true) (hout : s.outPresent = true → s.outSize ≠ 0)
    (hv : s.dictValid = true) (hstride : 4 ≤ s.cfg.skipStride) (hlen : 8 ≤ s.inLen.toNat)
    (hdeclared : inWord s.inMem 1 ≠ 0) (hw : w = if 12 ≤ s.inLen.toNat then inWord s.inMem 2 else 0)
    (hmarker : w.toNat / 2 ^ 8 % 2 ^ 16 = 0) :
    datRun s = .ok () (((afterMarker s w).withOutSize 0).withResult 0) := by
  have hdict : dictInit s = .ok () s := if_pos hv
  have hheader : datHeader (s.withCur (Cursor.init s.inLen)) = .ok () (afterHeader s) :=
    datHeader_of_two_words rfl (show 3 ≤ s.cfg.skipStride by omega) hlen
  obtain ⟨a, hcall, hblock, hpos, heff⟩ := (readsConstAdd_afterHeader s w hstride hw).once
  have hroom : a.dec.outPos < a.dec.eff := by
    rw [hpos, heff]
    exact afterHeader_room s hdeclared
  obtain ⟨k, hk⟩ : ∃ k, a.dec.eff.toNat = k + 1 := Nat.exists_eq_add_one.mpr (Nat.lt_of_le_of_lt (Nat.zero_le _) hroom)
  have hzero : (afterMarker s w).dec.outPos = 0 := by rw [afterMarker_dec]; exact startOutput_outPos _ _
  rw [datRun, datArguments_of hin hout, Res.ok_andThen, hdict, Res.ok_andThen, curInit, Res.ok_andThen, hheader,
    Res.ok_andThen, constFieldAt_eq_ok.mpr hcall, Res.ok_andThen, hk,
    blockLoop_of_symMarker hroom hblock (desc_afterConstAdd s w hv hmarker), Res.ok_andThen, datResult, hzero]

/-- Settles O56: the command reads exactly what `Decodes` says, and where an end marker comes first, `afterMarker` is
what it leaves. -/
theorem datDecodeReadsItsBlocks : Obligations.DatDecodeReadsItsBlocks := by
  constructor
  · intro s hs hin hout
    have hrun {t : State} := datRun_eq_ok hs hin hout (t := t)
    constructor
    · intro t ht
      show finish (datRun s) = _
      rw [hrun.mpr ⟨t, ht, rfl⟩]
      rfl
    · rintro t ⟨hexec, ht⟩
      exact hrun.mp (Res.ok_of_settle (Host.Outcome.next.inj hexec) ht)
  · intro s w hin hout hv hstride hlen hdeclared hw hmarker
    refine ⟨((afterMarker s w).withOutSize 0).withResult 0, ?_, rfl, rfl, ?_⟩
    · show finish (datRun s) = _
      rw [datRun_of_marker hin hout hv hstride hlen hdeclared hw hmarker]
      rfl
    · have hadd : w.toNat / 16777216 % 16 + 1 < 32 := by omega
      cases hp : s.outPresent <;>
        simp [afterMarker, afterConstAdd, afterHeader_eq, setRem, thirdWord, Cursor.holding, State.withSlot, Slot.reset,
          effectiveSize_eq, hp, hadd]

end Sys2Proof.Machine

/-! ## The cursor is the bit stream (R39, R144 to R151)

A refill appends 32 bits to the valid bits of the window, a drop takes bits off their front, and neither touches the rest
of the stream but for the one word that moves into the window. -/

namespace Sys2Proof.Machine

/-! ### What a pull merges (R145 to R147) -/

section
variable {cfg : Config} {m : Memory} {c c' : Cursor} {n p : Nat} {limit : Nat} {exh : Bool}

theorem Cursor.need_of_lt (h : n ≤ 32) (hb : c.bits.toNat < n) : c.need cfg m n = c.pull cfg m := by
  rw [need, if_neg (Nat.not_lt.mpr h), if_pos hb]

theorem Cursor.need_of_gt (h : 32 < n) : c.need cfg m n = .error .invalidInput := if_pos h

/-- A pull inside the input (R145, R146). -/
theorem Cursor.pull_of_lt (hp : skipIndex cfg c.pos.toNat = p) (h : p < c.limit.toNat) :
    c.pull cfg m = .ok (c.merge p (inWord m p)) := by
  subst hp
  exact if_neg (Nat.not_le.mpr h)

/-- A pull past the end of the input (R147). -/
theorem Cursor.pull_of_le (hp : skipIndex cfg c.pos.toNat = p) (h : c.limit.toNat ≤ p) :
    c.pull cfg m = if c.exh then .error .truncated else .ok ({ c with exh := true }.merge p 0) := by
  subst hp
  exact if_pos h

/-- Bit j of the window after a pull: the word stands directly below the valid bits (R145). -/
theorem Cursor.merge_getLsbD (c : Cursor) (p : Nat) (v : Word) {j : Nat} (hj : j < 64) :
    (c.merge p v).window.getLsbD j = (c.window.getLsbD j ||
      (decide (32 - c.bits.toNat ≤ j) && v.getLsbD (j - (32 - c.bits.toNat)))) := by
  have hsub : j - (32 - c.bits.toNat) < 64 := by omega
  rw [merge_window, BitVec.getLsbD_or, BitVec.getLsbD_shiftLeft, BitVec.getLsbD_setWidth, decide_eq_true hj,
    decide_eq_true hsub, Bool.true_and, Bool.true_and, ← decide_not, decide_eq_decide.mpr Nat.not_lt]

/-- A pull of 32 zero bits leaves the window as it was (R147). -/
theorem Cursor.merge_zero_window (c : Cursor) (p : Nat) : (c.merge p 0).window = c.window := by
  rw [merge_window, show (0 : Word).setWidth 64 = 0#64 from rfl, BitVec.zero_shiftLeft, BitVec.or_zero]

/-- Bit i of `HEAD`, counted from its top, is that of the window (R34). -/
theorem Cursor.head_getLsbD (c : Cursor) {i : Nat} (hi : i < 32) : c.head.getLsbD (31 - i) = c.window.getLsbD (63 - i) := by
  rw [window, BitVec.getLsbD_append, if_neg (by omega), show 63 - i - 32 = 31 - i by omega]

/-- Bits below the valid ones are 0 (R39). -/
theorem Cursor.zeroFilled.getLsbD (h : c.zeroFilled) {j : Nat} (hj : j + c.bits.toNat < 64) :
    c.window.getLsbD j = false := by
  have hbit := congrArg (BitVec.getLsbD · (j + c.bits.toNat)) h
  simp only [BitVec.getLsbD_shiftLeft, decide_eq_true hj, decide_eq_false (Nat.not_lt.mpr (Nat.le_add_left _ j)),
    Nat.add_sub_cancel, Bool.true_and, Bool.not_false] at hbit
  exact hbit.trans BitVec.getLsbD_zero

/-! ### The valid bits (R35) -/

/-- A pull appends the word's bits to the valid ones (R145). -/
theorem Cursor.merge_validBits (h : c.zeroFilled) (hb : c.bits.toNat < 32) (p : Nat) (v : Word) :
    (c.merge p v).validBits = c.validBits ++ wordBits v := by
  rw [validBits, merge_bits p v hb, List.range_add, List.map_append, validBits, wordBits, List.map_map]
  refine congrArg₂ (· ++ ·) ?_ ?_
  · refine List.map_congr_left fun i hi => ?_
    have hi : i < c.bits.toNat := List.mem_range.mp hi
    rw [merge_getLsbD c p v (by omega), BitVec.getLsbD_of_ge v _ (by omega), Bool.and_false, Bool.or_false]
  · refine List.map_congr_left fun i hi => ?_
    have hi : i < 32 := List.mem_range.mp hi
    show (c.merge p v).window.getLsbD (63 - (c.bits.toNat + i)) = v.getLsbD (31 - i)
    rw [merge_getLsbD c p v (by omega), h.getLsbD (by omega), decide_eq_true (by omega), Bool.true_and, Bool.false_or,
      show 63 - (c.bits.toNat + i) - (32 - c.bits.toNat) = 31 - i by omega]

@[simp] theorem Cursor.length_validBits (c : Cursor) : c.validBits.length = c.bits.toNat := by
  rw [validBits, List.length_map, List.length_range]

/-- A drop takes bits off the front of the valid ones (R148). -/
theorem Cursor.dropped_validBits (hn : n ≤ c.bits.toNat) : (c.dropped n).validBits = c.validBits.drop n := by
  have hbits := c.bits.isLt
  apply List.ext_getElem
  · rw [length_validBits, dropped_bits hn, List.length_drop, length_validBits]
  · intro i hi _
    rw [length_validBits, dropped_bits hn] at hi
    simp only [validBits, List.getElem_drop, List.getElem_map, List.getElem_range, dropped_window,
      BitVec.getLsbD_shiftLeft]
    rw [decide_eq_true (by omega), decide_eq_false (by omega), show 63 - i - n = 63 - (n + i) by omega]
    rfl

/-- What `READ` gives is the front of the valid bits (R144). -/
theorem Cursor.valueBits_of_read {v : Word} (h32 : n ≤ 32) (hn : n ≤ c.bits.toNat)
    (hv : v.toNat = c.head.toNat / 2 ^ (32 - n)) : valueBits n v = c.validBits.take n := by
  rw [validBits, ← List.map_take, List.take_range, Nat.min_eq_left hn]
  refine List.map_congr_left fun i hi => ?_
  have hi : i < n := List.mem_range.mp hi
  rw [← head_getLsbD c (by omega), BitVec.getLsbD, hv, Nat.testBit_div_two_pow, BitVec.getLsbD,
    show n - 1 - i + (32 - n) = 31 - i by omega]

/-! ### The words not yet pulled (R146, R147, R150) -/

theorem le_skipIndex (cfg : Config) (p : Nat) : p ≤ skipIndex cfg p := by
  unfold skipIndex
  split
  · exact Nat.le_succ p
  · exact Nat.le_refl p

theorem skipIndex_le (cfg : Config) (p : Nat) : skipIndex cfg p ≤ p + 1 := by
  unfold skipIndex
  split
  · exact Nat.le_refl _
  · exact Nat.le_succ p

/-- Past the end of the input the tolerated word alone is to come (R147). -/
theorem streamFrom_of_le (h : limit ≤ skipIndex cfg p) (fuel : Nat) :
    streamFrom cfg m limit exh fuel p = if exh then [] else List.replicate 32 false := by
  cases fuel with
  | zero => rfl
  | succ fuel => exact if_pos h

theorem streamFrom_succ (h : skipIndex cfg p < limit) (fuel : Nat) : streamFrom cfg m limit exh (fuel + 1) p =
    wordBits (inWord m (skipIndex cfg p)) ++ streamFrom cfg m limit exh fuel (skipIndex cfg p + 1) :=
  if_neg (Nat.not_le.mpr h)

/-- Fuel for the words that are left is enough. -/
theorem streamFrom_eq_of_fuel {fuel fuel' : Nat} (h : limit - p ≤ fuel) (h' : limit - p ≤ fuel') :
    streamFrom cfg m limit exh fuel p = streamFrom cfg m limit exh fuel' p := by
  induction fuel generalizing p fuel' with
  | zero =>
    have hend : limit ≤ skipIndex cfg p := Nat.le_trans (by omega) (le_skipIndex cfg p)
    rw [streamFrom_of_le hend, streamFrom_of_le hend]
  | succ fuel ih =>
    have hle := le_skipIndex cfg p
    obtain hlt | hend := Nat.lt_or_ge (skipIndex cfg p) limit
    · obtain ⟨k, rfl⟩ : ∃ k, fuel' = k + 1 := Nat.exists_eq_add_one.mpr (by omega)
      rw [streamFrom_succ hlt, streamFrom_succ hlt, ih (fuel' := k) (by omega) (by omega)]
    · rw [streamFrom_of_le hend, streamFrom_of_le hend]

/-! ### What each sub-operation does to the stream (R150) -/

/-- R145 to R147: a pull moves the next word of the stream into the window. -/
theorem Cursor.pull_stream (hz : c.zeroFilled) (hpos : c.pos.toNat + 2 < 2 ^ 32) (hb : c.bits.toNat < 32)
    (h : c.pull cfg m = .ok c') : c'.stream cfg m = c.stream cfg m := by
  have hle := le_skipIndex cfg c.pos.toNat
  have hnext : (BitVec.ofNat 32 (skipIndex cfg c.pos.toNat + 1)).toNat = skipIndex cfg c.pos.toNat + 1 :=
    Nat.mod_eq_of_lt (Nat.lt_of_le_of_lt (Nat.succ_le_succ (skipIndex_le cfg _)) hpos)
  obtain ⟨-, -, h⟩ | ⟨hend, hexh, h⟩ | ⟨hlt, h⟩ := Cursor.pull_cases h <;> cases h
  · have hpast : c.limit.toNat ≤ skipIndex cfg (skipIndex cfg c.pos.toNat + 1) :=
      Nat.le_trans (Nat.le_trans hend (Nat.le_succ _)) (le_skipIndex cfg _)
    rw [stream, merge_validBits (c := { c with exh := true }) hz hb, merge_pos, merge_limit, merge_exh, hnext,
      streamFrom_of_le hpast, stream, streamFrom_of_le hend, hexh]
    exact List.append_nil _
  · obtain ⟨k, hk⟩ : ∃ k, c.limit.toNat - c.pos.toNat = k + 1 := Nat.exists_eq_add_one.mpr (by omega)
    rw [stream, merge_validBits hz hb, merge_pos, merge_limit, merge_exh, hnext, List.append_assoc, stream, hk,
      streamFrom_succ hlt, streamFrom_eq_of_fuel (fuel' := k) (Nat.le_refl _) (by omega)]

theorem Cursor.need_stream (hz : c.zeroFilled) (hpos : c.pos.toNat + 2 < 2 ^ 32) (h : c.need cfg m n = .ok c') :
    c'.stream cfg m = c.stream cfg m := by
  obtain ⟨-, he⟩ | ⟨hn, hlt, he⟩ | ⟨-, -, he⟩ := Cursor.need_cases h
  · cases he
  · exact Cursor.pull_stream hz hpos (by omega) he.symm
  · cases he
    rfl

/-- R148: a drop takes its bits off the front of the stream. -/
theorem Cursor.drop_stream (h : c.drop n = .ok c') : c'.stream cfg m = (c.stream cfg m).drop n := by
  obtain ⟨-, he⟩ | ⟨-, hn, he⟩ := Cursor.drop_cases h <;> cases he
  rw [stream, stream, dropped_validBits hn, List.drop_append_of_le_length (by rwa [length_validBits])]
  rfl

/-- R144: what `READ` gives of valid bits is the front of the stream. -/
theorem Cursor.read_stream {v : Word} (hn : n ≤ c.bits.toNat) (h : c.read n = .ok v) :
    valueBits n v = (c.stream cfg m).take n := by
  obtain ⟨-, he⟩ | ⟨h32, w, he, hval⟩ := Cursor.read_cases h <;> cases he
  rw [stream, List.take_append_of_le_length (by rwa [length_validBits])]
  exact valueBits_of_read h32 hn hval

end

/-- Settles O29: each sub-operation keeps the zeros below the valid bits, and moves the front of the stream as it should. -/
theorem cursorDeliversTheStream : Obligations.CursorDeliversTheStream := by
  intro cfg m c hz hpos
  refine ⟨fun n c' h => ?_, fun n c' h => ?_, fun n v hn h => ?_⟩
  · exact ⟨Cursor.need_stream hz hpos h, (Cursor.need_bits h).2, Cursor.need_zeroFilled hz h⟩
  · exact ⟨Cursor.drop_stream h, Cursor.drop_zeroFilled hz h⟩
  · exact Cursor.read_stream hn h

end Sys2Proof.Machine

/-! ## The cursor's commands (R140 to R151)

Each command applies one sub-operation to its `NB` field: what the sub-operation gives is what the command leaves. -/

namespace Sys2Proof

/-- A command word, field by field (R90). -/
theorem packCommand_eq_or (opc : BitVec 8) (tr : BitVec 2) (nb : BitVec 6) (sy : BitVec 16) :
    packCommand opc tr nb sy = opc.setWidth 32 <<< 24 ||| tr.setWidth 32 <<< 22 ||| nb.setWidth 32 <<< 16 |||
      sy.setWidth 32 :=
  (BitVec.setWidth_eq _).symm.trans BitVec.setWidth_append_append_append_eq_shiftLeft_setWidth_or

/-- The word of a command whose one operand is its count (R92). -/
theorem packCommand_count (opc : BitVec 8) (nb : BitVec 6) :
    packCommand opc 0 nb 0 = opc.setWidth 32 <<< 24 ||| nb.setWidth 32 <<< 16 := by
  rw [packCommand_eq_or, show (0 : BitVec 2).setWidth 32 <<< 22 = 0#32 from rfl,
    show (0 : BitVec 16).setWidth 32 = 0#32 from rfl, BitVec.or_zero, BitVec.or_zero]

namespace Machine

variable {s : State} {nb : BitVec 6} {c : Cursor} {k : ErrKind}

/-! ### What each command leaves -/

theorem exec_curNeed_of_ok (h : s.cur.need s.cfg s.inMem nb.toNat = .ok c) :
    exec (.curNeed nb) s = .next (s.withCur c) := by
  show finish (needBits nb.toNat s) = _
  rw [needBits_of_ok h]
  rfl

theorem exec_curNeed_of_error (h : s.cur.need s.cfg s.inMem nb.toNat = .error k) :
    exec (.curNeed nb) s = .next (s.raise (.err k)) := by
  show finish (needBits nb.toNat s) = _
  rw [needBits_of_error h]
  rfl

theorem exec_curRead_of_le (h : nb.toNat ≤ 32) : ∃ v : Word, exec (.curRead nb) s = .next (s.withResult v) ∧
    v.toNat = s.cur.head.toNat / 2 ^ (32 - nb.toNat) := by
  obtain ⟨v, hread, hval⟩ := readBits_of_le (s := s) h
  refine ⟨v, ?_, hval⟩
  show finish ((readBits nb.toNat s).andThen putResult) = _
  rw [hread]
  rfl

theorem exec_curRead_of_gt (h : 32 < nb.toNat) : exec (.curRead nb) s = .next (s.raise (.err .invalidInput)) := by
  have hread : s.cur.read nb.toNat = .error .invalidInput := if_pos h
  show finish ((readBits nb.toNat s).andThen putResult) = _
  rw [readBits, hread]
  rfl

theorem exec_curDrop_of_le (h32 : nb.toNat ≤ 32) (h : nb.toNat ≤ s.cur.bits.toNat) :
    exec (.curDrop nb) s = .next (s.withCur (s.cur.dropped nb.toNat)) := by
  show finish (dropBits nb.toNat s) = _
  rw [dropBits_of_le h32 h]
  rfl

theorem exec_curDrop_of_gt (h : 32 < nb.toNat ∨ s.cur.bits.toNat < nb.toNat) :
    exec (.curDrop nb) s = .next (s.raise (.err .invalidInput)) := by
  obtain ⟨-, hdrop⟩ | ⟨h₁, h₂, -⟩ := Cursor.drop_cases (c := s.cur) (n := nb.toNat) rfl
  · show finish (dropBits nb.toNat s) = _
    rw [dropBits, hdrop]
    rfl
  · omega

/-! ### Pulls (R145 to R147) -/

/-- Settles O24: the pull inside the input, bit by bit. -/
theorem curNeedPullsOneWord : Obligations.CurNeedPullsOneWord := by
  intro nb s p h32 hbits hp hlt
  have hneed : s.cur.need s.cfg s.inMem nb.toNat = .ok (s.cur.merge p (inWord s.inMem p)) := by
    rw [Cursor.need_of_lt h32 hbits, Cursor.pull_of_lt hp.symm hlt]
  refine ⟨_, exec_curNeed_of_ok hneed, Cursor.merge_bits _ _ (Nat.lt_of_lt_of_le hbits h32), ?_, rfl, rfl,
    fun j hj => Cursor.merge_getLsbD _ _ _ hj⟩
  exact Nat.mod_eq_of_lt (Nat.lt_of_le_of_lt hlt s.cur.limit.isLt)

/-- Settles O25: the pull past the end, with `EXH` clear and with `EXH` set. -/
theorem oneToleratedPull : Obligations.OneToleratedPull := by
  intro nb s p h32 hbits hp hle
  have hneed := (Cursor.need_of_lt (cfg := s.cfg) (m := s.inMem) h32 hbits).trans (Cursor.pull_of_le hp.symm hle)
  constructor
  · intro hexh
    rw [hexh] at hneed
    exact ⟨_, exec_curNeed_of_ok hneed,
      Cursor.merge_bits (c := { s.cur with exh := true }) _ _ (Nat.lt_of_lt_of_le hbits h32),
      Cursor.merge_zero_window _ _, rfl, rfl, rfl⟩
  · intro hexh
    rw [hexh] at hneed
    exact exec_curNeed_of_error hneed

/-! ### Reads and drops (R144, R148, R151) -/

/-- Settles O26: the word decodes to the command, which reads the top bits of `HEAD` or raises. -/
theorem curReadPeeksTopBits : Obligations.CurReadPeeksTopBits :=
  ⟨fun nb => decodeCommand_eq_ok.mpr (congrArg Fetched.command (packCommand_count 0x03 nb)),
    fun _ _ => ⟨exec_curRead_of_le, exec_curRead_of_gt⟩⟩

/-- Settles O27: the word decodes to the command, which drops the bits or raises. -/
theorem curDropShiftsWindow : Obligations.CurDropShiftsWindow :=
  ⟨fun nb => decodeCommand_eq_ok.mpr (congrArg Fetched.command (packCommand_count 0x04 nb)), fun _ _ =>
    ⟨fun h32 h => ⟨_, exec_curDrop_of_le h32 h, Cursor.dropped_window _ _, Cursor.dropped_bits h, rfl, rfl, rfl⟩,
      exec_curDrop_of_gt⟩⟩

/-- The top bits of `HEAD` after a drop of n bits are those that followed the n bits (R144, R148). -/
theorem Cursor.dropped_head_toNat (c : Cursor) {n : Nat} (hn : n ≤ 32) :
    (c.dropped n).head.toNat / 2 ^ n = c.head.toNat % 2 ^ (32 - n) := by
  have hwidth : 2 ^ 64 = 2 ^ (64 - n) * 2 ^ n := by rw [← Nat.pow_add, Nat.sub_add_cancel (by omega)]
  have hupper : 2 ^ (64 - n) = 2 ^ 32 * 2 ^ (32 - n) := by rw [← Nat.pow_add]; congr 1; omega
  calc (c.dropped n).head.toNat / 2 ^ n
      = c.window.toNat * 2 ^ n % 2 ^ 64 / 2 ^ n / 2 ^ 32 := by
        rw [head_toNat, dropped_window, BitVec.toNat_shiftLeft, Nat.shiftLeft_eq, Nat.div_right_comm]
    _ = c.window.toNat % (2 ^ 32 * 2 ^ (32 - n)) / 2 ^ 32 := by
        rw [hwidth, Nat.mul_mod_mul_right, Nat.mul_div_cancel _ (Nat.two_pow_pos n), hupper]
    _ = c.head.toNat % 2 ^ (32 - n) := by rw [Nat.mod_mul_right_div_self, ← head_toNat]

/-- Settles O28: the two reads give the quotient and the remainder of `HEAD` by 2^(32 - n). -/
theorem readDropReadSplitsWord : Obligations.ReadDropReadSplitsWord := by
  intro nb s h32 hbits
  have hrest : (32 - nb).toNat = 32 - nb.toNat := by bv_omega
  obtain ⟨v, hread, hv⟩ := exec_curRead_of_le (s := s) h32
  obtain ⟨w, hread', hw⟩ := exec_curRead_of_le (s := (s.withResult v).withCur (s.cur.dropped nb.toNat))
    (nb := 32 - nb) (by omega)
  refine ⟨_, _, _, hread, exec_curDrop_of_le h32 (Nat.le_trans h32 hbits), hread', ?_⟩
  rw [hrest, Nat.sub_sub_self h32] at hw
  show v.toNat * 2 ^ (32 - nb.toNat) + w.toNat = s.cur.head.toNat
  rw [hv, hw, State.withCur_cur, Cursor.dropped_head_toNat _ h32, Nat.div_add_mod']

/-! ### `CUR_INIT` and a `CUR_NEED` without a pull (R141 to R143) -/

/-- Settles O22: both outcomes of the check of R141. -/
theorem curInitStartsStream : Obligations.CurInitStartsStream := by
  refine ⟨by decide, fun s => ⟨fun hin => ?_, fun hin => ?_⟩⟩
  · refine ⟨Cursor.init s.inLen, ?_, rfl, rfl, rfl, rfl, rfl, limit_toNat s.inLen⟩
    show finish (if s.inPresent then _ else _) = _
    rw [hin]
    rfl
  · show finish (if s.inPresent then _ else _) = _
    rw [hin]
    rfl

/-- Settles O23: a `NEED` that is met keeps the cursor, and one past 32 bits raises. -/
theorem curNeedWithEnoughBits : Obligations.CurNeedWithEnoughBits :=
  ⟨fun nb => decodeCommand_eq_ok.mpr (congrArg Fetched.command (packCommand_count 0x02 nb)), fun _ _ =>
    ⟨fun h32 h => exec_curNeed_of_ok (Cursor.need_of_le h32 h), fun h => exec_curNeed_of_error (Cursor.need_of_gt h)⟩⟩

end Machine
end Sys2Proof

/-! ## What each command writes (R143 to R148, R170 to R180, R210, R220, R240)

The commands of one primitive write what that primitive writes. For the longer ones, what every primitive keeps is carried
to the whole command (`Res.Leads`), and a state is the one it came from but for the fields that are not kept. -/

namespace Sys2Proof.Machine

variable {s t u : State} {i j : SlotId}

/-! ### The cursor and the dictionary -/

/-- `t` is `s` but for the cursor. -/
def WritesCursor (s t : State) : Prop := t = s.withCur t.cur

theorem WritesCursor.trans (h : WritesCursor s t) (h' : WritesCursor t u) : WritesCursor s u :=
  calc u = t.withCur u.cur := h'
    _ = (s.withCur t.cur).withCur u.cur := congrArg (State.withCur · u.cur) h
    _ = s.withCur u.cur := rfl

theorem writesCursor_cursorStable : CursorStable WritesCursor where
  refl _ := rfl
  trans _ _ _ h h' := h.trans h'
  need _ _ _ _ := rfl
  drop _ _ _ _ := rfl

/-- The first use of the dictionary writes the builder, the `DICT` slot and `DICT_VALID` (R180). -/
theorem dictInit_writes (h : dictInit s = .ok () t) :
    t = ((s.withBld t.bld).withDict t.dict).withDictValid t.dictValid := by
  obtain ⟨-, he⟩ | ⟨-, b, x, -, he⟩ | ⟨-, k, -, he⟩ := dictInit_cases s <;> rw [he] at h <;> cases h
  · rfl
  · rfl

/-- R181, R210: `READCODE(DICT)` writes the dictionary at its first use, and the cursor. -/
theorem readCode_dict_writes {y : Sym} (h : readCode .dict s = .ok y t) :
    t = (((s.withBld t.bld).withDict t.dict).withDictValid t.dictValid).withCur t.cur := by
  obtain ⟨_, u, hdict, hread⟩ := Res.andThen_eq_ok.mp h
  obtain ⟨c, rfl⟩ : ∃ c, t = u.withCur c := ⟨t.cur, (readSlot_leads writesCursor_cursorStable .dict u).of_ok hread⟩
  exact congrArg (State.withCur · c) (dictInit_writes hdict)

/-! ### Descriptions -/

/-- A run of codes writes the builder and `rem`; it reads no bits (R220, R222). -/
theorem descRun_writes {len cnt : Nat} (h : descRun len cnt s = .ok () t) :
    t = (s.withBld t.bld).withDec { s.dec with descRem := t.dec.descRem } := by
  induction cnt generalizing s with
  | zero => cases h; rfl
  | succ cnt ih =>
    rw [descRun] at h
    split at h
    · cases h
    · obtain ⟨_, s', hadd, hrest⟩ := Res.andThen_eq_ok.mp h
      obtain ⟨b, -, he⟩ | ⟨-, he⟩ := addSymbol_cases s.dec.descRem.toNat len s <;> rw [he] at hadd <;> cases hadd
      have hrun := ih hrest
      exact hrun

/-- `t` has slot j of `s`. -/
def KeepsSlot (j : SlotId) (s t : State) : Prop := t.slot j = s.slot j

/-- A description for one slot leaves the other alone (R220). -/
theorem keepsSlot_descStable (hj : j ≠ .dict) (hij : j ≠ i) : DescStable i (KeepsSlot j) where
  refl _ := rfl
  trans _ _ _ h h' := h'.trans h
  need _ _ _ _ := by cases j <;> rfl
  drop _ _ _ _ := by cases j <;> rfl
  dict s b x _ _ := by
    cases j with
    | dict => exact absurd rfl hj
    | sym | copy => rfl
  clear _ := by cases j <;> rfl
  add _ _ _ _ _ := by cases j <;> rfl
  build s x _ := s.slot_withSlot_of_ne hij x
  rem _ _ := by cases j <;> rfl

/-- R220: what a description for slot i writes; of the decoder's registers `rem` alone (log 5). -/
theorem desc_writes {n : Nat} (hi : i ≠ .dict) (h : desc i s = .ok n t) :
    t = (((((s.withBld t.bld).withDict t.dict).withDictValid t.dictValid).withCur t.cur).withDec
      { s.dec with descRem := t.dec.descRem }).withSlot i (t.slot i) := by
  have hhost : KeepsHost s t := (desc_leads (keepsHost_descStable i) s).of_ok h
  have hout : KeepsOut s t := (desc_leads (keepsOut_descStable i) s).of_ok h
  have hdec : KeepsDecoder s t := (desc_leads (keepsDecoder_descStable i) s).of_ok h
  have hslot {j : SlotId} (hj : j ≠ .dict) (hij : j ≠ i) : KeepsSlot j s t :=
    (desc_leads (keepsSlot_descStable hj hij) s).of_ok h
  have hsym (hne : SlotId.sym ≠ i) : t.sym = s.sym := hslot (by decide) hne
  have hcopy (hne : SlotId.copy ≠ i) : t.copy = s.copy := hslot (by decide) hne
  cases i with
  | dict => exact absurd rfl hi
  | sym | copy =>
    apply State.eq_of_fields
    case h_dec =>
      rw [State.withSlot_dec, State.withDec_dec]
      exact hdec
    all_goals
      simp [State.withSlot, State.slot, hsym, hcopy, hout.outMem, hout.outLen, hhost.cfg, hhost.err, hhost.result,
        hhost.inLen, hhost.inPresent, hhost.outPresent, hhost.outSize, hhost.inMem, hhost.free, hhost.inputs,
        hhost.hostData]

/-! ### A `DAT_DECODE` -/

/-- What keeps the host's side writes the block's own elements and OUT. -/
theorem KeepsHost.writes (h : KeepsHost s t) :
    t = ((((((((s.withCur t.cur).withBld t.bld).withDict t.dict).withSym t.sym).withCopy t.copy).withDictValid
      t.dictValid).withDec t.dec).withOutMem t.outMem).withOutLen t.outLen := by
  apply State.eq_of_fields <;>
    simp [h.cfg, h.err, h.result, h.inLen, h.inPresent, h.outPresent, h.outSize, h.inMem, h.free, h.inputs, h.hostData]

/-- R240: until it reports `OUTPOS`, a `DAT_DECODE` keeps the host's side. -/
theorem datRun_keepsHost (h : datRun s = .ok () t) :
    ∃ v, KeepsHost s v ∧ t = (v.withOutSize v.dec.outPos).withResult v.dec.outPos := by
  obtain ⟨_, s₁, hargs, h⟩ := Res.andThen_eq_ok.mp h
  obtain ⟨_, s₂, hdict, h⟩ := Res.andThen_eq_ok.mp h
  obtain ⟨_, s₃, hcur, h⟩ := Res.andThen_eq_ok.mp h
  obtain ⟨_, s₄, hhead, h⟩ := Res.andThen_eq_ok.mp h
  obtain ⟨_, s₅, hconst, h⟩ := Res.andThen_eq_ok.mp h
  obtain ⟨_, v, hblocks, hresult⟩ := Res.andThen_eq_ok.mp h
  have hbegin : KeepsHost s s₁ := by
    obtain ⟨-, ha⟩ | ⟨-, -, ha⟩ := datArguments_cases s <;> rw [ha] at hargs <;> cases hargs
    exact KeepsHost.refl s
  have hinit : KeepsHost s₂ s₃ := by
    cases hcur
    constructor <;> rfl
  cases hresult
  have hstable := keepsHost_blockStable
  exact ⟨v, hbegin.trans <| ((dictInit_leads hstable.toDictStable s₁).of_ok hdict).trans <| hinit.trans <|
    ((datHeader_keepsHost s₃).of_ok hhead).trans <| ((constFieldAt_leads hstable _ s₄).of_ok hconst).trans <|
    (blockLoop_leads hstable _ s₅).of_ok hblocks, rfl⟩

/-- R240: what a `DAT_DECODE` writes. -/
theorem datRun_writes (h : datRun s = .ok () t) :
    t = ((((((((((s.withCur t.cur).withBld t.bld).withDict t.dict).withSym t.sym).withCopy t.copy).withDictValid
      t.dictValid).withDec t.dec).withOutMem t.outMem).withOutLen t.outLen).withOutSize t.outSize).withResult
      t.result := by
  obtain ⟨v, hv, rfl⟩ := datRun_keepsHost h
  exact congrArg (fun w : State => (w.withOutSize v.dec.outPos).withResult v.dec.outPos) hv.writes

/-- R245, R256, R258: what a `DAT_DECODE` leaves of OUT from `OUTPOS` on, and whose OUT it is (log 14). -/
theorem datRun_out (h : datRun s = .ok () t) :
    (∀ a, t.dec.outPos.toNat ≤ a → t.outMem.read? a = if s.outPresent then s.outMem.read? a else none) ∧
    t.outLen = if s.outPresent then s.outLen else some t.dec.eff := by
  obtain ⟨declared, u, v, ⟨hhost, hout⟩, hgrow, rfl⟩ := datRun_ok h
  rw [← hhost.outPresent, ← hout.outMem, ← hout.outLen]
  constructor
  · intro a ha
    rw [← startOutput_read? declared u a]
    exact hgrow.above a ha
  · show v.outLen = if u.outPresent then u.outLen else some v.dec.eff
    rw [hgrow.outLen, hgrow.eff, startOutput_eff]
    obtain ⟨hp, -, hlen⟩ | ⟨hp, -, hlen⟩ := startOutput_out declared u <;> rw [hlen, hp] <;> rfl

/-! ### Every command -/

/-- A command that leaves no error: its body ended with a value. -/
theorem ok_of_finish {r : Res Unit} (h : finish r = .next t) (ht : t.err = none) : r = .ok () t :=
  Res.ok_of_settle (Host.Outcome.next.inj h) ht

/-- A command whose body ends by writing `RESULT` and leaves no error. -/
theorem ok_of_finish_putResult {α : Type} {r : Res α} {v : α → Word}
    (h : finish (r.andThen fun a s => putResult (v a) s) = .next t) (ht : t.err = none) :
    ∃ a u, r = .ok a u ∧ t = u.withResult (v a) := by
  obtain ⟨a, u, hr, hput⟩ := Res.andThen_eq_ok.mp (ok_of_finish h ht)
  cases hput
  exact ⟨a, u, hr, rfl⟩

theorem curNeed_writes {nb : BitVec 6} (h : exec (.curNeed nb) s = .next t) (ht : t.err = none) : WritesCursor s t :=
  (needBits_leads writesCursor_cursorStable _ s).of_ok (ok_of_finish h ht)

theorem curDrop_writes {nb : BitVec 6} (h : exec (.curDrop nb) s = .next t) (ht : t.err = none) : WritesCursor s t :=
  (dropBits_leads writesCursor_cursorStable _ s).of_ok (ok_of_finish h ht)

theorem curRead_writes {nb : BitVec 6} (h : exec (.curRead nb) s = .next t) (ht : t.err = none) :
    t = s.withResult t.result := by
  obtain hgt | hle := Nat.lt_or_ge 32 nb.toNat
  · cases (exec_curRead_of_gt hgt).symm.trans h
    cases ht
  · obtain ⟨v, hv, -⟩ := exec_curRead_of_le (s := s) hle
    cases hv.symm.trans h
    rfl

theorem bldAdd_writes {nb : BitVec 6} {sy : BitVec 16} (h : exec (.bldAdd nb sy) s = .next t) (ht : t.err = none) :
    t = s.withBld t.bld := by
  have hadd : addSymbol sy.toNat nb.toNat s = .ok () t := ok_of_finish h ht
  obtain ⟨b, -, he⟩ | ⟨-, he⟩ := addSymbol_cases sy.toNat nb.toNat s <;> rw [he] at hadd <;> cases hadd
  rfl

/-- `BUILD(i)` writes slot i alone (R172). -/
theorem buildSlot_writes (h : buildSlot i s = .ok () t) : t = s.withSlot i (t.slot i) := by
  obtain ⟨x, -, he⟩ | ⟨-, he⟩ := buildSlot_cases i s <;> rw [he] at h <;> cases h
  rw [State.slot_withSlot]

/-- `HUF_READ` of a slot that is built writes the cursor and `RESULT` (R210). -/
theorem hufRead_writes {tr : TreeSel} (htr : operandTR tr = some i) (hi : i ≠ .dict)
    (h : exec (.hufRead tr) s = .next t) (ht : t.err = none) : t = (s.withCur t.cur).withResult t.result := by
  have hexec : exec (.hufRead tr) s = finish ((readCode i s).andThen fun sy s => putResult (symbolWord sy) s) := by
    cases tr <;> cases htr <;> rfl
  obtain ⟨y, u, hread, rfl⟩ := ok_of_finish_putResult (hexec ▸ h) ht
  have hu : WritesCursor s u := (readCode_leads_of_ne writesCursor_cursorStable hi s).of_ok hread
  exact congrArg (State.withResult · _) hu

theorem hufRead_dict_writes (h : exec (.hufRead .dict) s = .next t) (ht : t.err = none) :
    t = ((((s.withBld t.bld).withDict t.dict).withDictValid t.dictValid).withCur t.cur).withResult t.result := by
  obtain ⟨y, u, hread, rfl⟩ := ok_of_finish_putResult h ht
  exact congrArg (State.withResult · _) (readCode_dict_writes hread)

/-- `DESC_READ` of a slot it may fill (R220). -/
theorem descRead_writes {tr : TreeSel} (htr : operandTR tr = some i) (hi : i ≠ .dict)
    (h : exec (.descRead tr) s = .next t) (ht : t.err = none) :
    t = ((((((s.withBld t.bld).withDict t.dict).withDictValid t.dictValid).withCur t.cur).withDec
      { s.dec with descRem := t.dec.descRem }).withSlot i (t.slot i)).withResult t.result := by
  rw [exec_descRead htr hi] at h
  obtain ⟨n, u, hdesc, rfl⟩ := ok_of_finish_putResult h ht
  have hslot : (u.withResult (BitVec.ofNat 32 n)).slot i = u.slot i := by cases i <;> rfl
  rw [hslot]
  exact congrArg (State.withResult · _) (desc_writes hi hdesc)

/-- Settles O16: each command writes what its `_writes` lemma says, and the reserved selectors leave an error. -/
theorem commandFrames : Obligations.CommandFrames := by
  intro s t ht
  refine ⟨fun nb h => ?_, fun nb h => curRead_writes h ht, fun h => ?_, fun nb sy h => bldAdd_writes h ht,
    fun h => buildSlot_writes (ok_of_finish h ht), fun h => buildSlot_writes (ok_of_finish h ht),
    fun h => dictInit_writes (ok_of_finish h ht), fun h => ?_, fun h => hufRead_dict_writes h ht, fun tr h => ?_,
    fun len cm1 h => descRun_writes (ok_of_finish h ht), fun h => ?_⟩
  · obtain h | h := h
    · exact curNeed_writes h ht
    · exact curDrop_writes h ht
  · cases h
    rfl
  · obtain h | h := h
    · exact hufRead_writes (i := .sym) rfl (by decide) h ht
    · exact hufRead_writes (i := .copy) rfl (by decide) h ht
  · cases tr with
    | dict => cases h; cases ht
    | rsv => cases h; cases ht
    | sym => exact descRead_writes (i := .sym) rfl (by decide) h ht
    | copy => exact descRead_writes (i := .copy) rfl (by decide) h ht
  · have hrun : datRun s = .ok () t := ok_of_finish h ht
    exact ⟨datRun_writes hrun, datRun_out hrun⟩

end Sys2Proof.Machine

/-! ## Building trees (R170 to R182)

Both layouts assign codes to the lengths one after the other and differ in the order alone (`assignInOrder`). One induction
over that order gives where a length's codes end, when the code space runs out, and that no two groups overlap. -/

namespace Sys2Proof.Machine

/-! ### Code assignment in either order (R173 to R175) -/

/-- The code space that the symbols of one length take, in units of 2^-32 (R175). -/
def codeSpace (bucket : Nat → List Sym) (len : Nat) : Nat := (bucket len).length * 2 ^ (32 - len)

/-- `ASSIGN()` for lengths in a given order, `free` units of 2^-32 of the code space being left (R173, R174): the codes of
a length end with the last one that fits `free`. `none` is over-subscription (R175). -/
def assignInOrder (bucket : Nat → List Sym) : List Nat → Nat → Option (List Group)
  | [], _ => some []
  | len :: lens, free =>
    if bucket len = [] then assignInOrder bucket lens free
    else if free < codeSpace bucket len then none
    else (assignInOrder bucket lens (free - codeSpace bucket len)).map
      (Group.ofBucket len (free / 2 ^ (32 - len)) (bucket len) :: ·)

section
variable {bucket : Nat → List Sym} {len free : Nat} {lens : List Nat} {gs : List Group}

theorem codeSpace_of_nil (h : bucket len = []) : codeSpace bucket len = 0 := by simp [codeSpace, h]

/-- A length has too few whole codes free exactly where it needs more space than is free. -/
theorem div_lt_length_iff : free / 2 ^ (32 - len) < (bucket len).length ↔ free < codeSpace bucket len :=
  Nat.div_lt_iff_lt_mul (Nat.two_pow_pos _)

/-- A length that has symbols gets a group, and the lengths after it get what it leaves. -/
theorem assignInOrder_cons_cases (h : assignInOrder bucket (len :: lens) free = some gs) :
    (bucket len = [] ∧ assignInOrder bucket lens free = some gs) ∨
    (bucket len ≠ [] ∧ codeSpace bucket len ≤ free ∧ ∃ gs',
      assignInOrder bucket lens (free - codeSpace bucket len) = some gs' ∧
      gs = Group.ofBucket len (free / 2 ^ (32 - len)) (bucket len) :: gs') := by
  rw [assignInOrder] at h
  split at h
  · exact .inl ⟨‹_›, h⟩
  · split at h
    · cases h
    · obtain ⟨gs', hgs, rfl⟩ := Option.map_eq_some_iff.mp h
      exact .inr ⟨‹_›, by omega, gs', hgs, rfl⟩

/-- R175: the assignment fails exactly where the lengths need more than the free code space. -/
theorem assignInOrder_eq_none :
    assignInOrder bucket lens free = none ↔ free < (lens.map (codeSpace bucket)).sum := by
  induction lens generalizing free with
  | nil => simp [assignInOrder]
  | cons len lens ih =>
    rw [assignInOrder, List.map_cons, List.sum_cons]
    split
    · rw [ih, codeSpace_of_nil ‹_›, Nat.zero_add]
    · split
      · simp only [true_iff]; omega
      · rw [Option.map_eq_none_iff, ih]; omega

/-- One group for each length that has symbols, in the order of assignment. -/
theorem assignInOrder_lens (h : assignInOrder bucket lens free = some gs) :
    gs.map Group.len = lens.filter fun len => decide (bucket len ≠ []) := by
  induction lens generalizing free gs with
  | nil => cases h; rfl
  | cons len lens ih =>
    obtain ⟨hnil, h⟩ | ⟨hne, -, gs', hgs, rfl⟩ := assignInOrder_cons_cases h
    · rw [ih h, List.filter_cons_of_neg (by simpa using hnil)]
    · rw [List.map_cons, ih hgs, List.filter_cons_of_pos (by simpa using hne)]
      rfl

theorem assignInOrder_len_mem (h : assignInOrder bucket lens free = some gs) :
    ∀ g ∈ gs, g.len ∈ lens ∧ bucket g.len ≠ [] := by
  intro g hg
  have hmem := List.mem_map_of_mem (f := Group.len) hg
  rw [assignInOrder_lens h, List.mem_filter] at hmem
  exact ⟨hmem.1, of_decide_eq_true hmem.2⟩

/-- The codes of a group end with the last one that fits the space it was given. -/
theorem Group.ofBucket_end (h : codeSpace bucket len ≤ free) :
    (Group.ofBucket len (free / 2 ^ (32 - len)) (bucket len)).base +
      (Group.ofBucket len (free / 2 ^ (32 - len)) (bucket len)).syms.length = free / 2 ^ (32 - len) := by
  have hfit : (bucket len).length ≤ free / 2 ^ (32 - len) := by rw [← Nat.not_lt, div_lt_length_iff]; omega
  simp only [Group.ofBucket, List.length_reverse]
  omega

/-- R173, R174: the codes of a group end where the lengths before it leave the code space. -/
theorem assignInOrder_end {before : Nat → Nat → Bool}
    (hord : lens.Pairwise fun l l' => before l l' = true ∧ before l' l = false)
    (hself : ∀ l, before l l = false) (h : assignInOrder bucket lens free = some gs) :
    ∀ g ∈ gs, g.base + g.syms.length =
      (free - (lens.map fun l => if before l g.len then codeSpace bucket l else 0).sum) / 2 ^ (32 - g.len) := by
  induction lens generalizing free gs with
  | nil => cases h; exact fun _ hg => absurd hg List.not_mem_nil
  | cons len lens ih =>
    obtain ⟨hlen, hord⟩ := List.pairwise_cons.mp hord
    intro g hg
    rw [List.map_cons, List.sum_cons]
    obtain ⟨hnil, h⟩ | ⟨-, hle, gs', hgs, rfl⟩ := assignInOrder_cons_cases h
    · rw [if_pos (hlen _ (assignInOrder_len_mem h g hg).1).1, codeSpace_of_nil hnil, Nat.zero_add]
      exact ih hord h g hg
    · obtain hhead | hg := List.mem_cons.mp hg
      · have hglen : g.len = len := by rw [hhead]; rfl
        have hend : g.base + g.syms.length = free / 2 ^ (32 - len) := by rw [hhead, Group.ofBucket_end hle]
        have hnone : (lens.map fun l => if before l len then codeSpace bucket l else 0).sum = 0 :=
          List.sum_eq_zero fun x hx => by
            obtain ⟨l, hl, rfl⟩ := List.mem_map.mp hx
            rw [(hlen l hl).2]
            rfl
        rw [hend, hglen, hself, hnone]
        rfl
      · rw [if_pos (hlen _ (assignInOrder_len_mem hgs g hg).1).1, ← Nat.sub_sub]
        exact ih hord hgs g hg

/-! ### No two groups overlap (R182) -/

/-- The codes of g' lie below those of g in the code space. -/
def Group.below (g' g : Group) : Prop :=
  (g'.base + g'.syms.length) * 2 ^ (32 - g'.len) ≤ g.base * 2 ^ (32 - g.len)

/-- The order of the lengths wastes no code: each length is shorter than those before it, so that its codes span whole
codes of theirs; or each is longer, and the free space is made of whole codes of every one. -/
def Aligned (lens : List Nat) (free : Nat) : Prop :=
  lens.Pairwise (· > ·) ∨ (lens.Pairwise (· < ·) ∧ ∀ l ∈ lens, 2 ^ (32 - l) ∣ free)

theorem Aligned.tail (h : Aligned (len :: lens) free) : Aligned lens (free - codeSpace bucket len) := by
  obtain h | ⟨h, hdvd⟩ := h
  · exact .inl h.of_cons
  · obtain ⟨hlen, h⟩ := List.pairwise_cons.mp h
    refine .inr ⟨h, fun l hl => Nat.dvd_sub (hdvd l (List.mem_cons_of_mem _ hl)) (Dvd.dvd.mul_left ?_ _)⟩
    have := hlen l hl
    exact Nat.pow_dvd_pow 2 (by omega)

/-- Codes of a later length that fit beside m of this one lie below them. -/
theorem Aligned.le_base (h : Aligned (len :: lens) free) {l n m : Nat} (hl : l ∈ lens)
    (hfit : n * 2 ^ (32 - l) + m * 2 ^ (32 - len) ≤ free) :
    n * 2 ^ (32 - l) ≤ (free / 2 ^ (32 - len) - m) * 2 ^ (32 - len) := by
  rw [Nat.sub_mul]
  apply Nat.le_sub_of_add_le
  obtain h | ⟨-, hdvd⟩ := h
  · have hlt := (List.pairwise_cons.mp h).1 l hl
    obtain ⟨k, hk⟩ : 2 ^ (32 - len) ∣ n * 2 ^ (32 - l) := Dvd.dvd.mul_left (Nat.pow_dvd_pow 2 (by omega)) _
    rw [hk, Nat.mul_comm, ← Nat.add_mul] at hfit ⊢
    exact Nat.mul_le_mul_right _ ((Nat.le_div_iff_mul_le (Nat.two_pow_pos _)).mpr hfit)
  · rwa [Nat.div_mul_cancel (hdvd len List.mem_cons_self)]

/-- Every group lies within the space that was free. -/
theorem assignInOrder_le (h : assignInOrder bucket lens free = some gs) :
    ∀ g ∈ gs, (g.base + g.syms.length) * 2 ^ (32 - g.len) ≤ free := by
  induction lens generalizing free gs with
  | nil => cases h; exact fun _ hg => absurd hg List.not_mem_nil
  | cons len lens ih =>
    obtain ⟨-, h⟩ | ⟨-, hle, gs', hgs, rfl⟩ := assignInOrder_cons_cases h
    · exact ih h
    · intro g hg
      obtain rfl | hg := List.mem_cons.mp hg
      · rw [Group.ofBucket_end hle]
        exact Nat.div_mul_le_self _ _
      · exact (ih hgs g hg).trans (Nat.sub_le _ _)

/-- Each group lies below those assigned before it. -/
theorem assignInOrder_below (hal : Aligned lens free) (h : assignInOrder bucket lens free = some gs) :
    gs.Pairwise fun g g' => g'.below g := by
  induction lens generalizing free gs with
  | nil => cases h; exact .nil
  | cons len lens ih =>
    obtain ⟨hnil, h⟩ | ⟨-, hle, gs', hgs, rfl⟩ := assignInOrder_cons_cases h
    · exact ih (by simpa [codeSpace_of_nil hnil] using hal.tail (bucket := bucket)) h
    · refine List.pairwise_cons.mpr ⟨fun g hg => ?_, ih hal.tail hgs⟩
      have hwithin := assignInOrder_le hgs g hg
      exact hal.le_base (assignInOrder_len_mem hgs g hg).1 (Nat.add_le_of_le_sub hle hwithin)

end

/-! ### The two layouts are two orders (R173, R174) -/

/-- The order in which the machine's layout assigns codes to the lengths (R173, R174). -/
def assignOrder (cfg : Config) : List Nat :=
  match cfg.codeLayout with
  | .longAtTop => (List.range' 1 32).reverse
  | .shortAtTop => List.range' 1 32

theorem mem_assignOrder {cfg : Config} {len : Nat} : len ∈ assignOrder cfg ↔ 1 ≤ len ∧ len ≤ 32 := by
  unfold assignOrder
  split
  · rw [List.mem_reverse, List.mem_range'_1]; omega
  · rw [List.mem_range'_1]; omega

/-- R173: from length n down, the free codes of length n being the whole ones of the free space. -/
theorem assignLong_eq {bucket : Nat → List Sym} {n free : Nat} {st : Option Nat} (hn : n ≤ 32)
    (hst : longFree n st = free / 2 ^ (32 - n)) :
    assignLong bucket n st = assignInOrder bucket (List.range' 1 n).reverse free := by
  induction n generalizing st free with
  | zero => rfl
  | succ n ih =>
    have hpow : 2 ^ (32 - n) = 2 ^ (32 - (n + 1)) * 2 := by rw [← Nat.pow_succ]; congr 1; omega
    rw [List.range'_1_concat, List.reverse_append, List.reverse_singleton, List.singleton_append, Nat.add_comm 1 n,
      assignLong, assignInOrder]
    simp only [List.isEmpty_iff, hst]
    split
    · refine ih (by omega) ?_
      rw [hpow, ← Nat.div_div_eq_div_mul, ← hst]
      cases st with
      | none => simp only [longFree, Option.map_none]; omega
      | some f => rfl
    · by_cases hover : free < codeSpace bucket (n + 1)
      · rw [if_pos hover, if_pos (div_lt_length_iff.mpr hover)]
      · rw [if_neg hover, if_neg (mt div_lt_length_iff.mp hover), ih (by omega)]
        rw [hpow, ← Nat.div_div_eq_div_mul, codeSpace, Nat.mul_comm, Nat.sub_mul_div]
        rfl

/-- R174: `n` lengths are left, `f` codes of the length before them being free. -/
theorem assignShort_eq {bucket : Nat → List Sym} {n f : Nat} (hn : n ≤ 32) :
    assignShort bucket n f = assignInOrder bucket (List.range' (33 - n) n) (f * 2 ^ n) := by
  induction n generalizing f with
  | zero => rfl
  | succ n ih =>
    have hpow : f * 2 ^ (n + 1) = 2 * f * 2 ^ n := by rw [Nat.pow_succ]; ring
    have hwidth : 32 - (32 - n) = n := by omega
    have hfree : 2 * f * 2 ^ n / 2 ^ (32 - (32 - n)) = 2 * f := by rw [hwidth, Nat.mul_div_cancel _ (Nat.two_pow_pos n)]
    have hleft : 2 * f * 2 ^ n - codeSpace bucket (32 - n) = (2 * f - (bucket (32 - n)).length) * 2 ^ n := by
      rw [codeSpace, hwidth, Nat.sub_mul]
    rw [show 33 - (n + 1) = 32 - n by omega, List.range'_succ, show 32 - n + 1 = 33 - n by omega, hpow, assignShort,
      assignInOrder]
    simp only [List.isEmpty_iff, ← div_lt_length_iff, hfree, hleft, ih (Nat.le_of_succ_le hn)]

/-- The code assignment of a machine is its layout's order, applied to the whole code space. -/
theorem Builder.assign_eq (cfg : Config) (b : Builder) :
    b.assign cfg = assignInOrder (b.bucket cfg) (assignOrder cfg) (2 ^ 32) := by
  unfold Builder.assign assignOrder
  cases cfg.codeLayout with
  | longAtTop => exact assignLong_eq (Nat.le_refl _) rfl
  | shortAtTop => exact assignShort_eq (Nat.le_refl _)

theorem assignsBefore_self (cfg : Config) (l : Nat) : assignsBefore cfg l l = false := by
  unfold assignsBefore
  split <;> exact decide_eq_false (Nat.lt_irrefl l)

theorem assignOrder_pairwise (cfg : Config) :
    (assignOrder cfg).Pairwise fun l l' => assignsBefore cfg l l' = true ∧ assignsBefore cfg l' l = false := by
  unfold assignOrder assignsBefore
  cases cfg.codeLayout <;> decide

theorem aligned_assignOrder (cfg : Config) : Aligned (assignOrder cfg) (2 ^ 32) := by
  unfold assignOrder
  cases cfg.codeLayout with
  | longAtTop => exact .inl (by decide)
  | shortAtTop => exact .inr ⟨by decide, fun l _ => Nat.pow_dvd_pow 2 (Nat.sub_le 32 l)⟩

/-- A sum over all lengths does not depend on the layout's order. -/
theorem sum_assignOrder (cfg : Config) (f : Nat → Nat) :
    ((assignOrder cfg).map f).sum = ((List.range maxCodeBits).map fun i => f (i + 1)).sum := by
  have hrange : (List.range' 1 32).map f = (List.range maxCodeBits).map fun i => f (i + 1) := by
    rw [show List.range' 1 32 = (List.range maxCodeBits).map (· + 1) from rfl, List.map_map]
    rfl
  unfold assignOrder
  split
  · rw [List.map_reverse, List.sum_reverse, hrange]
  · rw [hrange]

section
variable {cfg : Config} {b : Builder} {gs : List Group}

/-- R175: the assignment fails exactly where the Kraft sum passes 1. -/
theorem Builder.assign_eq_none : b.assign cfg = none ↔ 2 ^ 32 < b.kraft cfg := by
  rw [Builder.assign_eq, assignInOrder_eq_none, sum_assignOrder]
  rfl

/-- R173, R174: the codes of a length end where the lengths assigned before it leave the code space. -/
theorem Builder.assign_end (h : b.assign cfg = some gs) :
    ∀ g ∈ gs, g.base + g.syms.length = (2 ^ 32 - b.spentBefore cfg g.len) / 2 ^ (32 - g.len) := by
  rw [Builder.assign_eq] at h
  intro g hg
  rw [assignInOrder_end (assignOrder_pairwise cfg) (assignsBefore_self cfg) h g hg, sum_assignOrder]
  rfl

theorem Builder.assign_lens (h : b.assign cfg = some gs) :
    gs.map Group.len = (assignOrder cfg).filter fun len => decide (b.bucket cfg len ≠ []) := by
  rw [Builder.assign_eq] at h
  exact assignInOrder_lens h

theorem Builder.assign_len_mem (h : b.assign cfg = some gs) :
    ∀ g ∈ gs, (1 ≤ g.len ∧ g.len ≤ 32) ∧ b.bucket cfg g.len ≠ [] := by
  rw [Builder.assign_eq] at h
  exact fun g hg => (assignInOrder_len_mem h g hg).imp_left mem_assignOrder.mp

/-- The codes of a length fit it. -/
theorem Builder.assign_end_le (h : b.assign cfg = some gs) : ∀ g ∈ gs, g.base + g.syms.length ≤ 2 ^ g.len := by
  intro g hg
  obtain ⟨⟨-, hle⟩, -⟩ := Builder.assign_len_mem h g hg
  calc g.base + g.syms.length = (2 ^ 32 - b.spentBefore cfg g.len) / 2 ^ (32 - g.len) := Builder.assign_end h g hg
    _ ≤ 2 ^ 32 / 2 ^ (32 - g.len) := Nat.div_le_div_right (Nat.sub_le _ _)
    _ = 2 ^ (32 - (32 - g.len)) := Nat.pow_div (Nat.sub_le _ _) (by decide)
    _ = 2 ^ g.len := by rw [Nat.sub_sub_self hle]

/-- No length has two groups. -/
theorem Builder.assign_nodup (h : b.assign cfg = some gs) : (gs.map Group.len).Nodup := by
  rw [Builder.assign_lens h]
  refine List.Nodup.filter _ ((assignOrder_pairwise cfg).imp ?_)
  rintro l _ ⟨hbefore, -⟩ rfl
  rw [assignsBefore_self] at hbefore
  cases hbefore

/-- Of two groups, one lies below the other. -/
theorem Builder.assign_below (h : b.assign cfg = some gs) {g g' : Group} (hg : g ∈ gs) (hg' : g' ∈ gs) (hne : g ≠ g') :
    g'.below g ∨ g.below g' := by
  rw [Builder.assign_eq] at h
  have : Std.Symm fun g g' : Group => g'.below g ∨ g.below g' := ⟨fun _ _ => Or.symm⟩
  exact ((assignInOrder_below (aligned_assignOrder cfg) h).imp Or.inl).forall hg hg' hne

end

/-- A code does not begin one of a group below or above its own (R182). -/
theorem not_isPrefix_of_below {g g' : Group} (h : g'.below g ∨ g.below g') {k k' : Nat} (hk : k < g.syms.length)
    (hk' : k' < g'.syms.length) (hlen : g'.len ≤ 32) : ¬ IsPrefix g.len (g.base + k) g'.len (g'.base + k') := by
  rintro ⟨hle, hpre⟩
  have hpow : 2 ^ (32 - g.len) = 2 ^ (g'.len - g.len) * 2 ^ (32 - g'.len) := by
    rw [← Nat.pow_add]; congr 1; omega
  have hlow : (g.base + k) * 2 ^ (g'.len - g.len) ≤ g'.base + k' := hpre ▸ Nat.div_mul_le_self _ _
  have hhigh : g'.base + k' < (g.base + k + 1) * 2 ^ (g'.len - g.len) :=
    (Nat.div_lt_iff_lt_mul (Nat.two_pow_pos _)).mp (hpre ▸ Nat.lt_succ_self _)
  unfold Group.below at h
  rw [hpow, ← Nat.mul_assoc, ← Nat.mul_assoc] at h
  obtain h | h := h
  · have hbelow := Nat.le_of_mul_le_mul_right h (Nat.two_pow_pos _)
    have hbase : g.base * 2 ^ (g'.len - g.len) ≤ (g.base + k) * 2 ^ (g'.len - g.len) := Nat.mul_le_mul_right _ (by omega)
    omega
  · have hbelow := Nat.le_of_mul_le_mul_right h (Nat.two_pow_pos _)
    have hend : (g.base + k + 1) * 2 ^ (g'.len - g.len) ≤ (g.base + g.syms.length) * 2 ^ (g'.len - g.len) :=
      Nat.mul_le_mul_right _ (by omega)
    omega

/-- Settles O36: each part is a lemma about `Builder.assign`; codes of different groups are apart (`Builder.assign_below`). -/
theorem assignedCodesAreCanonicalPrefixFree : Obligations.AssignedCodesAreCanonicalPrefixFree := by
  refine fun cfg b => ⟨Builder.assign_eq_none, fun gs h => ?_⟩
  have hmem := Builder.assign_len_mem h
  refine ⟨Builder.assign_nodup h, fun g hg => ?_, fun len h₁ h₂ hne => ?_, fun g hg g' hg' k hk k' hk' hpre => ?_⟩
  · obtain ⟨⟨h₁, h₂⟩, hne⟩ := hmem g hg
    have hsyms := Builder.assign_syms h g hg
    exact ⟨h₁, h₂, hsyms, by rwa [hsyms, ne_eq, List.reverse_eq_nil_iff], Builder.assign_end_le h g hg,
      Builder.assign_end h g hg⟩
  · have hlen : len ∈ gs.map Group.len := by
      rw [Builder.assign_lens h, List.mem_filter, mem_assignOrder]
      exact ⟨⟨h₁, h₂⟩, decide_eq_true hne⟩
    exact List.mem_map.mp hlen
  · by_cases heq : g = g'
    · subst heq
      obtain ⟨-, hcode⟩ := hpre
      rw [Nat.sub_self, Nat.pow_zero, Nat.div_one] at hcode
      exact ⟨rfl, by omega⟩
    · exact absurd hpre (not_isPrefix_of_below (Builder.assign_below h hg hg' heq) hk hk' (hmem g' hg').1.2)

/-! ### `BUILD` (R172, R175, R179) -/

variable {cfg : Config} {b : Builder} {s s' : State} {t : SlotId} {tr : TreeSel}

theorem Builder.isEmpty_iff : b.isEmpty = true ↔ ∀ len, 1 ≤ len → len ≤ 32 → b.valid len = false := by
  rw [Builder.isEmpty, List.all_eq_true]
  constructor
  · intro h len h₁ h₂
    simpa [Nat.sub_add_cancel h₁] using h (len - 1) (List.mem_range.mpr (by simp only [maxCodeBits]; omega))
  · intro h i hi
    have hlt : i < 32 := List.mem_range.mp hi
    rw [h (i + 1) (by omega) (by omega)]
    rfl

/-- Buckets without symbols take no code space. -/
theorem Builder.kraft_of_isEmpty (h : b.isEmpty = true) : b.kraft cfg = 0 := by
  refine List.sum_eq_zero fun x hx => ?_
  obtain ⟨i, hi, rfl⟩ := List.mem_map.mp hx
  have hlt : i < 32 := List.mem_range.mp hi
  rw [Builder.bucket_of_not_valid (Builder.isEmpty_iff.mp h (i + 1) (by omega) (by omega)), List.length_nil,
    Nat.zero_mul]

/-- R175: `BUILD` fails exactly where the Kraft sum passes 1. -/
theorem Builder.build_eq_none : b.build cfg = none ↔ 2 ^ 32 < b.kraft cfg := by
  obtain ⟨he, h⟩ | ⟨-, gs, hgs, h⟩ | ⟨-, hgs, h⟩ := Builder.build_cases (cfg := cfg) (b := b) rfl <;> rw [h]
  · simp [Builder.kraft_of_isEmpty he]
  · rw [← Builder.assign_eq_none, hgs]; simp
  · rw [← Builder.assign_eq_none, hgs]; simp

theorem exec_bldBuild (htr : operandTR tr = some t) (ht : t ≠ .dict) (s : State) :
    exec (.bldBuild tr) s = finish (buildSlot t s) := by
  cases tr <;> cases htr
  · exact absurd rfl ht
  · rfl
  · rfl

theorem exec_hufRead (htr : operandTR tr = some t) (s : State) :
    exec (.hufRead tr) s = finish ((readCode t s).andThen fun sy s => putResult (symbolWord sy) s) := by
  cases tr <;> cases htr <;> rfl

/-- `BLD_BUILD` of a slot it may fill, within the code space. -/
theorem exec_bldBuild_of_some {x : Slot} (htr : operandTR tr = some t) (ht : t ≠ .dict)
    (h : s.bld.build s.cfg = some x) : exec (.bldBuild tr) s = .next (s.withSlot t x) := by
  have hbuild : buildSlot t s = .ok () (s.withSlot t x) := by rw [buildSlot, h]
  rw [exec_bldBuild htr ht, hbuild]
  rfl

theorem exec_bldBuild_of_none (htr : operandTR tr = some t) (ht : t ≠ .dict) (h : s.bld.build s.cfg = none) :
    exec (.bldBuild tr) s = .next (s.raise (.err .corrupt)) := by
  have hbuild : buildSlot t s = failWith .corrupt s := by rw [buildSlot, h]
  rw [exec_bldBuild htr ht, hbuild]
  rfl

/-- Settles O33: `BUILD` fails exactly where the Kraft sum passes 1 (`Builder.build_eq_none`). -/
theorem bldBuildCompletesWithinCodeSpace : Obligations.BldBuildCompletesWithinCodeSpace := by
  refine fun s => ⟨fun hfits => ?_, fun hover => ?_⟩
  · obtain ⟨x, hx⟩ := Option.ne_none_iff_exists'.mp (mt Builder.build_eq_none.mp (Nat.not_lt.mpr hfits))
    exact ⟨x, hx, exec_bldBuild_of_some (t := .sym) rfl (by decide) hx,
      exec_bldBuild_of_some (t := .copy) rfl (by decide) hx⟩
  · have hnone := Builder.build_eq_none.mpr hover
    exact ⟨exec_bldBuild_of_none (t := .sym) rfl (by decide) hnone,
      exec_bldBuild_of_none (t := .copy) rfl (by decide) hnone⟩

/-- R210: `HUF_READ` of an empty slot that is not the dictionary's raises `Corrupt` (R215). -/
theorem exec_hufRead_of_empty (htr : operandTR tr = some t) (ht : t ≠ .dict) (h : (s.slot t).empty = true) :
    exec (.hufRead tr) s = .next (s.raise (.err .corrupt)) := by
  rw [exec_hufRead htr, readCode_of_valid fun hdict => absurd hdict ht, readSlot_of_empty h]
  rfl

/-- Settles O35: an empty builder builds the slot of the reset state, which no `HUF_READ` reads. -/
theorem buildOfNoSymbolsIsEmpty : Obligations.BuildOfNoSymbolsIsEmpty := by
  intro s hvalid
  have hbuild : s.bld.build s.cfg = some (Slot.reset s.cfg) := if_pos (Builder.isEmpty_iff.mpr hvalid)
  exact ⟨Slot.reset s.cfg, exec_bldBuild_of_some (t := .sym) rfl (by decide) hbuild,
    exec_bldBuild_of_some (t := .copy) rfl (by decide) hbuild, Slot.reset_atReset s.cfg,
    exec_hufRead_of_empty (t := .sym) rfl (by decide) rfl, exec_hufRead_of_empty (t := .copy) rfl (by decide) rfl⟩

/-! ### The builder's commands (R170, R171) -/

/-- Settles O30: the builder that `CLEAR` leaves is the reset state's. -/
theorem bldClearEmptiesBuilder : Obligations.BldClearEmptiesBuilder :=
  ⟨by decide, fun s => ⟨Builder.reset s.cfg, rfl, Builder.reset_atReset s.cfg, Builder.reset_shaped s.cfg⟩⟩

/-- R171: operands that `ADD` accepts. -/
theorem Builder.add_eq_insert {sy len : Nat} (h₁ : 1 ≤ len) (h₂ : len ≤ 32) (hlt : sy < cfg.maxSymbols)
    (hnew : b.present sy = false) : b.add cfg sy len = .ok (b.insert sy len) := by
  obtain ⟨h | h | h | h, -⟩ | ⟨-, -, -, -, h⟩ := Builder.add_cases (cfg := cfg) (b := b) (sy := sy) (len := len) rfl
  · omega
  · omega
  · omega
  · exact absurd (h.symm.trans hnew) nofun
  · exact h

/-- R171: operands that `ADD` refuses. -/
theorem Builder.add_eq_error {sy len : Nat} (h : len = 0 ∨ 32 < len ∨ cfg.maxSymbols ≤ sy ∨ b.present sy = true) :
    b.add cfg sy len = .error .invalidInput := by
  obtain ⟨-, hadd⟩ | ⟨h₁, h₂, hlt, hnew, -⟩ := Builder.add_cases (cfg := cfg) (b := b) (sy := sy) (len := len) rfl
  · exact hadd
  · obtain h | h | h | h := h
    · omega
    · omega
    · omega
    · exact absurd (h.symm.trans hnew) nofun

theorem exec_bldAdd_of_ok {nb : BitVec 6} {sy : BitVec 16} (h : s.bld.add s.cfg sy.toNat nb.toNat = .ok b) :
    exec (.bldAdd nb sy) s = .next (s.withBld b) := by
  have hadd : addSymbol sy.toNat nb.toNat s = .ok () (s.withBld b) := by rw [addSymbol, h]
  show finish (addSymbol sy.toNat nb.toNat s) = _
  rw [hadd]
  rfl

theorem exec_bldAdd_of_error {nb : BitVec 6} {sy : BitVec 16} {k : ErrKind}
    (h : s.bld.add s.cfg sy.toNat nb.toNat = .error k) : exec (.bldAdd nb sy) s = .next (s.raise (.err k)) := by
  have hadd : addSymbol sy.toNat nb.toNat s = failWith k s := by rw [addSymbol, h]
  show finish (addSymbol sy.toNat nb.toNat s) = _
  rw [hadd]
  rfl

/-- The word of `BLD_ADD` (R92). -/
theorem packCommand_add (nb : BitVec 6) (sy : BitVec 16) :
    packCommand 0x11 0 nb sy = 0x11000000 ||| nb.setWidth 32 <<< 16 ||| sy.setWidth 32 := by
  rw [packCommand_eq_or, show (0 : BitVec 2).setWidth 32 <<< 22 = 0#32 from rfl, BitVec.or_zero]
  rfl

/-- Settles O31: an `ADD` that is accepted is an insertion, whose entries `Builder.insert_bucketHead` and
`Builder.insert_entries` give. -/
theorem bldAddInsertsAtHead : Obligations.BldAddInsertsAtHead := by
  refine ⟨fun nb sy => decodeCommand_eq_ok.mpr (congrArg Fetched.command (packCommand_add nb sy)), ?_⟩
  rintro nb sy y s rfl
  refine ⟨fun hb h₁ h₂ hlt hnew => ?_, fun hbad => exec_bldAdd_of_error (Builder.add_eq_error hbad)⟩
  obtain ⟨hhead, hvalid⟩ := s.bld.insert_bucketHead hb sy.toNat h₁ h₂ h₁
  obtain ⟨hpres, hbnv, hbnext⟩ := s.bld.insert_entries hb hlt nb.toNat sy.toNat
  refine ⟨_, exec_bldAdd_of_ok (Builder.add_eq_insert h₁ h₂ hlt hnew), Builder.insert_shaped hb _ _, ?_, ?_, ?_, ?_, ?_,
    fun l hl hne => ?_, fun j hne => ?_⟩
  · rw [hhead, if_pos rfl]
  · rw [hvalid, if_pos rfl]
  · rw [Builder.present, hpres, if_pos rfl]
  · rw [hbnv, if_pos rfl]
  · simpa using hbnext
  · obtain ⟨hhead, hvalid⟩ := s.bld.insert_bucketHead hb sy.toNat h₁ h₂ hl
    rw [hhead, hvalid, if_neg hne, if_neg hne]
    exact ⟨rfl, rfl⟩
  · obtain ⟨hpres, hbnv, hbnext⟩ := s.bld.insert_entries hb hlt nb.toNat j
    rw [hpres, hbnv, hbnext, if_neg hne, if_neg hne, if_neg fun h => hne h.1]
    exact ⟨rfl, rfl, rfl⟩

/-! ### The dictionary (R180, R181) -/

theorem exec_dictInit (s : State) : exec .dictInit s = .next (dictInit s).settle := rfl

theorem dictInit_of_valid (hv : s.dictValid = true) : dictInit s = .ok () s := by rw [dictInit, if_pos hv]

theorem dictInit_of_tables {x : Slot} (hv : s.dictValid = false) (ht : dictTables s.cfg = .ok (b, x)) :
    dictInit s = .ok () (((s.withBld b).withDict x).withDictValid true) := by
  rw [dictInit, hv, ht]
  rfl

theorem dictInit_of_error {k : ErrKind} (hv : s.dictValid = false) (ht : dictTables s.cfg = .error k) :
    dictInit s = .fail (.dict k) s := by
  rw [dictInit, hv, ht]
  rfl

/-- Settles O37: `DICT_VALID` and what the table gives say how `DICTINIT` ends. -/
theorem dictInitBuildsOnce : Obligations.DictInitBuildsOnce := by
  refine ⟨by decide, fun s => ⟨fun hv => ?_, fun b x hv hadd hbuild => ?_, fun k hv ht => ⟨?_, rfl⟩⟩⟩
  · rw [exec_dictInit, dictInit_of_valid hv, Res.settle_ok]
  · rw [exec_dictInit, dictInit_of_tables hv (dictTables_eq_ok.mpr ⟨hadd, hbuild⟩), Res.settle_ok]
  · rw [exec_dictInit, dictInit_of_error hv ht, Res.settle_fail]

/-- R181: where `DICT_INIT` succeeds, it ends as a first use of the dictionary from either state would. -/
theorem dictInit_after (h : exec .dictInit s = .next s') (hv : s'.dictValid = true) :
    dictInit s = .ok () s' ∧ dictInit s' = .ok () s' := by
  have hsettle : (dictInit s).settle = s' := Host.Outcome.next.inj h
  refine ⟨?_, dictInit_of_valid hv⟩
  obtain ⟨-, hs⟩ | ⟨-, b, x, -, hs⟩ | ⟨-, k, -, hs⟩ := dictInit_cases s <;> rw [hs] at hsettle ⊢ <;> cases hsettle
  · rfl
  · rfl
  · cases hv

/-- Settles O38: each command begins with `DICTINIT()`, `DAT_DECODE` after checks that `DICTINIT()` does not affect. -/
theorem firstUseBuildsDictionary : Obligations.FirstUseBuildsDictionary := by
  intro s s' h hv _
  obtain ⟨hfirst, hagain⟩ := dictInit_after h hv
  have hhost : KeepsHost s s' := (dictInit_leads keepsHost_blockStable.toDictStable s).of_ok hfirst
  have hread : readCode .dict s = readCode .dict s' := by rw [readCode, readCode, hfirst, hagain]
  have hdesc (t : SlotId) : desc t s = desc t s' := by rw [desc, desc, hfirst, hagain]
  refine ⟨?_, ?_, ?_, fun hin hout => ?_⟩
  · rw [exec_hufRead rfl, exec_hufRead rfl, hread]
  · rw [exec_descRead (i := .sym) rfl (by decide), exec_descRead (i := .sym) rfl (by decide), hdesc]
  · rw [exec_descRead (i := .copy) rfl (by decide), exec_descRead (i := .copy) rfl (by decide), hdesc]
  · have hrun : datRun s = datRun s' := by
      rw [datRun, datRun, datArguments_of hin hout,
        datArguments_of (hhost.inPresent.trans hin) (by rwa [hhost.outPresent, hhost.outSize]), Res.ok_andThen,
        Res.ok_andThen, hfirst, hagain]
    exact congrArg finish hrun

end Sys2Proof.Machine

/-! ## Reading codes (R210 to R215)

A lookup is a hash entry or the scan. In a slot that `BUILD` filled each group of codes is an interval of windows, and no two
intervals meet: the hash entry of a window is that of the short group that holds it, and the scan's first threshold at most the
window is that of the long one. -/

namespace Sys2Proof.Machine

variable {s : State} {t : SlotId} {tr : TreeSel} {c : Cursor} {sl : Slot} {hb : Nat} {w : Word}

/-! ### The lookup (R211 to R213) -/

/-- The hash index of a window: its top `HASH_BITS` bits (R211). -/
theorem hashIndex_toNat (hb : Nat) (w : Word) : (w >>> (32 - hb)).toNat = w.toNat / 2 ^ (32 - hb) := by
  rw [BitVec.toNat_ushiftRight, Nat.shiftRight_eq_div_pow]

theorem Slot.lookup_of_hit (h : (sl.hash.getD (w.toNat / 2 ^ (32 - hb)) ⟨0, 0⟩).len ≠ 0) : sl.lookup hb w =
    some ((sl.hash.getD (w.toNat / 2 ^ (32 - hb)) ⟨0, 0⟩).sym, (sl.hash.getD (w.toNat / 2 ^ (32 - hb)) ⟨0, 0⟩).len) := by
  rw [← hashIndex_toNat] at h ⊢
  exact if_pos h

theorem Slot.lookup_of_miss (h : (sl.hash.getD (w.toNat / 2 ^ (32 - hb)) ⟨0, 0⟩).len = 0) :
    sl.lookup hb w = sl.scan w := by
  rw [← hashIndex_toNat] at h
  exact if_neg (not_not_intro h)

/-- The scan stops at an entry and finds the symbol by the offset from its threshold, if that is one of its codes (R212). -/
theorem Slot.scan_of_entry {e : LongEntry} (h : scanLong w sl.long = some e) : sl.scan w =
    if e.cnt ≤ (w.toNat - e.thr.toNat) / 2 ^ (32 - e.len) then none
    else some (sl.symArr.getD (e.off + (w.toNat - e.thr.toNat) / 2 ^ (32 - e.len)) 0, e.len) := by
  rw [Slot.scan, h, ← Nat.shiftRight_eq_div_pow]

theorem Slot.scan_of_no_entry (h : scanLong w sl.long = none) : sl.scan w = none := by rw [Slot.scan, h]

/-! ### `HUF_READ` (R210) -/

/-- A lookup that finds a symbol returns it and drops its code. -/
theorem exec_hufRead_of_lookup {y : Sym} {len : Nat} (htr : operandTR tr = some t) (hv : t = .dict → s.dictValid = true)
    (he : (s.slot t).empty = false) (hc : s.cur.need s.cfg s.inMem 32 = .ok c)
    (hl : (s.slot t).lookup s.cfg.hashBits c.head = some (y, len)) (hlen : len ≤ 32) :
    exec (.hufRead tr) s = .next ((s.withCur (c.dropped len)).withResult (BitVec.ofNat 32 y)) := by
  have hread : readSlot t s = .ok y (s.withCur (c.dropped len)) := readSlot_eq_ok.mpr ⟨he, c, len, hc, hl, hlen, rfl⟩
  rw [exec_hufRead htr, readCode_of_valid hv, hread]
  rfl

/-- A lookup that finds nothing raises `Corrupt`. -/
theorem exec_hufRead_of_no_code (htr : operandTR tr = some t) (hv : t = .dict → s.dictValid = true)
    (he : (s.slot t).empty = false) (hc : s.cur.need s.cfg s.inMem 32 = .ok c)
    (hl : (s.slot t).lookup s.cfg.hashBits c.head = none) :
    exec (.hufRead tr) s = .next ((s.withCur c).raise (.err .corrupt)) := by
  rw [exec_hufRead htr, readCode_of_valid hv, readSlot_of_need he hc, hl]
  rfl

/-- Settles O40: an entry with a length is a hit. -/
theorem hufReadHashHit : Obligations.HufReadHashHit := by
  intro s tr t c e htr hv he hc hentry h₁ h₂
  have hget : (s.slot t).hash.getD (c.head.toNat / 2 ^ (32 - s.cfg.hashBits)) ⟨0, 0⟩ = e := by
    rw [List.getD_eq_getElem?_getD, hentry, Option.getD_some]
  have hhit := Slot.lookup_of_hit (sl := s.slot t) (hb := s.cfg.hashBits) (w := c.head) (by rw [hget]; omega)
  rw [hget] at hhit
  exact exec_hufRead_of_lookup htr hv he hc hhit h₂

/-- Settles O41: the scan stops at the j-th entry, and the window lies within its codes. -/
theorem hufReadLongCode : Obligations.HufReadLongCode := by
  rintro s tr t c j k e y htr hv he hc hmiss hj hbefore hthr - h₂ rfl hk hy
  have hstop : scanLong c.head (s.slot t).long = some e := scanLong_eq_some.mpr ⟨j, hj, hthr, hbefore⟩
  refine exec_hufRead_of_lookup htr hv he hc ?_ h₂
  rw [Slot.lookup_of_miss hmiss, Slot.scan_of_entry hstop, if_neg (by omega), List.getD_eq_getElem?_getD, hy,
    Option.getD_some]

/-- Settles O42: an empty slot is not read; else the scan stops at no entry, or at one whose codes the window is past. -/
theorem hufReadNoCodeIsCorrupt : Obligations.HufReadNoCodeIsCorrupt := by
  intro s tr t htr hv
  refine ⟨fun he => ?_, fun c he hc hmiss hscan => exec_hufRead_of_no_code htr hv he hc ?_⟩
  · rw [exec_hufRead htr, readCode_of_valid hv, readSlot_of_empty he]
    rfl
  · rw [Slot.lookup_of_miss hmiss]
    obtain hbelow | ⟨j, e, hj, hbefore, hthr, hpast⟩ := hscan
    · exact Slot.scan_of_no_entry (scanLong_eq_none.mpr hbelow)
    · rw [Slot.scan_of_entry (scanLong_eq_some.mpr ⟨j, hj, hthr, hbefore⟩), if_pos hpast]

/-! ### The windows of a group (R173, R174, R182) -/

variable {cfg : Config} {b : Builder} {gs : List Group} {g g' : Group}

/-- The window v begins with a code of the group. -/
def Group.Holds (g : Group) (v : Nat) : Prop :=
  g.base ≤ v / 2 ^ (32 - g.len) ∧ v / 2 ^ (32 - g.len) < g.base + g.syms.length

/-- What the tables of a code assignment rely on: every group has symbols, whose codes fit their length, and of two groups one
lies below the other (R182). -/
structure CodeGroups (gs : List Group) : Prop where
  len_le : ∀ g ∈ gs, 1 ≤ g.len ∧ g.len ≤ 32
  syms_pos : ∀ g ∈ gs, 0 < g.syms.length
  end_le : ∀ g ∈ gs, g.base + g.syms.length ≤ 2 ^ g.len
  below : ∀ g ∈ gs, ∀ g' ∈ gs, g ≠ g' → g'.below g ∨ g.below g'

theorem Builder.assign_codeGroups (h : b.assign cfg = some gs) : CodeGroups gs where
  len_le g hg := (Builder.assign_len_mem h g hg).1
  syms_pos g hg := by
    rw [Builder.assign_syms h g hg, List.length_reverse]
    exact List.length_pos_iff.mpr (Builder.assign_len_mem h g hg).2
  end_le := Builder.assign_end_le h
  below _ hg _ hg' := Builder.assign_below h hg hg'

theorem Group.thr_eq (g : Group) : g.thr = g.base * 2 ^ (32 - g.len) := Nat.shiftLeft_eq ..

/-- A group's windows reach from its threshold to the end of its codes. -/
theorem Group.holds_iff {v : Nat} :
    g.Holds v ↔ g.thr ≤ v ∧ v < (g.base + g.syms.length) * 2 ^ (32 - g.len) := by
  rw [Group.Holds, Nat.le_div_iff_mul_le (Nat.two_pow_pos _), Nat.div_lt_iff_lt_mul (Nat.two_pow_pos _), Group.thr_eq]

/-- R214: a window that begins with the k-th code of a group. -/
theorem Group.holds_of_begins {k : Nat} (hk : k < g.syms.length) (h : Begins w g.len (g.base + k)) : g.Holds w.toNat := by
  unfold Begins at h
  rw [Group.Holds, h]
  omega

/-- A threshold is below the end of its group's codes. -/
theorem CodeGroups.thr_lt_end (h : CodeGroups gs) (hg : g ∈ gs) : g.thr < (g.base + g.syms.length) * 2 ^ (32 - g.len) := by
  have hpos := h.syms_pos g hg
  rw [Group.thr_eq]
  exact Nat.mul_lt_mul_of_pos_right (by omega) (Nat.two_pow_pos _)

/-- A threshold is a word (R177). -/
theorem CodeGroups.thr_lt (h : CodeGroups gs) (hg : g ∈ gs) : g.thr < 2 ^ 32 := by
  obtain ⟨-, hlen⟩ := h.len_le g hg
  calc g.thr < (g.base + g.syms.length) * 2 ^ (32 - g.len) := h.thr_lt_end hg
    _ ≤ 2 ^ g.len * 2 ^ (32 - g.len) := Nat.mul_le_mul_right _ (h.end_le g hg)
    _ = 2 ^ 32 := by rw [← Nat.pow_add, Nat.add_sub_cancel' hlen]

/-- Of the groups whose threshold is at most a window, the one that holds it has the largest; so no other holds it. -/
theorem CodeGroups.eq_of_holds (h : CodeGroups gs) (hg : g ∈ gs) (hg' : g' ∈ gs) {v : Nat} (hv : g.Holds v)
    (hle : g'.thr ≤ v) (hmax : g.thr ≤ g'.thr ∨ g'.Holds v) : g' = g := by
  by_contra hne
  obtain ⟨hlow, hhigh⟩ := Group.holds_iff.mp hv
  have hend := h.thr_lt_end hg'
  have hbelow := h.below g hg g' hg' (Ne.symm hne)
  unfold Group.below at hbelow
  rw [← Group.thr_eq, ← Group.thr_eq] at hbelow
  obtain hbelow | hbelow := hbelow
  · obtain hmax | hmax := hmax
    · omega
    · have := (Group.holds_iff.mp hmax).2
      omega
  · omega

/-! ### The hash table of a code assignment (R176) -/

/-- R176: a group covers the hash index of exactly the windows it holds, if its codes are short. -/
theorem Group.covers_iff (hb32 : hb ≤ 32) (v : Nat) :
    g.covers hb (v / 2 ^ (32 - hb)) = true ↔ g.len ≤ hb ∧ g.Holds v := by
  unfold Group.covers Group.Holds
  simp only [Bool.and_eq_true, decide_eq_true_eq, and_assoc]
  refine and_congr_right fun hlen => ?_
  have hpow : 2 ^ (32 - g.len) = 2 ^ (32 - hb) * 2 ^ (hb - g.len) := by rw [← Nat.pow_add]; congr 1; omega
  rw [hpow, ← Nat.div_div_eq_div_mul, Nat.shiftLeft_eq, Nat.shiftLeft_eq, ← Nat.le_div_iff_mul_le (Nat.two_pow_pos _),
    ← Nat.div_lt_iff_lt_mul (Nat.two_pow_pos _)]

/-- A window's hash entry. -/
theorem ofGroups_hash (hb32 : hb ≤ 32) (gs : List Group) (w : Word) :
    (Slot.ofGroups hb gs).hash.getD (w.toNat / 2 ^ (32 - hb)) ⟨0, 0⟩ = hashEntryAt hb gs (w.toNat / 2 ^ (32 - hb)) := by
  have hlt : w.toNat / 2 ^ (32 - hb) < 2 ^ hb := by
    rw [Nat.div_lt_iff_lt_mul (Nat.two_pow_pos _), ← Nat.pow_add, Nat.add_sub_cancel' hb32]
    exact w.isLt
  rw [Slot.ofGroups, fillHash, List.getD_eq_getElem?_getD, List.getElem?_map, List.getElem?_range hlt]
  rfl

/-- The entry of a window that a short group holds. -/
theorem CodeGroups.hashEntryAt_of_holds (h : CodeGroups gs) (hb32 : hb ≤ 32) (hg : g ∈ gs) (hlen : g.len ≤ hb) {v : Nat}
    (hv : g.Holds v) : hashEntryAt hb gs (v / 2 ^ (32 - hb)) = ⟨g.syms.getD (v / 2 ^ (32 - g.len) - g.base) 0, g.len⟩ := by
  have hpow : v / 2 ^ (32 - hb) / 2 ^ (hb - g.len) = v / 2 ^ (32 - g.len) := by
    rw [Nat.div_div_eq_div_mul, ← Nat.pow_add]; congr 2; omega
  have hfind : gs.find? (Group.covers hb (v / 2 ^ (32 - hb))) = some g := by
    cases hf : gs.find? (Group.covers hb (v / 2 ^ (32 - hb))) with
    | none => exact absurd ((Group.covers_iff hb32 v).mpr ⟨hlen, hv⟩) (List.find?_eq_none.mp hf g hg)
    | some g' =>
      obtain ⟨-, hv'⟩ := (Group.covers_iff hb32 v).mp (List.find?_some hf)
      rw [h.eq_of_holds hg (List.mem_of_find?_eq_some hf) hv (Group.holds_iff.mp hv').1 (.inr hv')]
  rw [hashEntryAt, hfind]
  simp only [Nat.shiftRight_eq_div_pow, hpow]

/-- The entry of a window that no short group holds. -/
theorem hashEntryAt_of_not_holds (hb32 : hb ≤ 32) {v : Nat} (h : ∀ g ∈ gs, g.len ≤ hb → ¬ g.Holds v) :
    hashEntryAt hb gs (v / 2 ^ (32 - hb)) = ⟨0, 0⟩ := by
  have hfind : gs.find? (Group.covers hb (v / 2 ^ (32 - hb))) = none := List.find?_eq_none.mpr fun g hg hcov => by
    obtain ⟨hlen, hv⟩ := (Group.covers_iff hb32 v).mp hcov
    exact h g hg hlen hv
  rw [hashEntryAt, hfind]

/-! ### The threshold entries of a code assignment (R177, R212) -/

theorem insertByThr_pairwise {l : List Group} (h : l.Pairwise fun x y => y.thr ≤ x.thr) :
    (insertByThr g l).Pairwise fun x y => y.thr ≤ x.thr := by
  induction l with
  | nil => exact List.pairwise_singleton _ _
  | cons x l ih =>
    obtain ⟨hx, hl⟩ := List.pairwise_cons.mp h
    unfold insertByThr
    split
    · rename_i hle
      refine List.pairwise_cons.mpr ⟨fun y hy => ?_, h⟩
      obtain rfl | hy := List.mem_cons.mp hy
      · exact hle
      · exact (hx y hy).trans hle
    · rename_i hlt
      refine List.pairwise_cons.mpr ⟨fun y hy => ?_, ih hl⟩
      obtain rfl | hy := mem_insertByThr.mp hy
      · omega
      · exact hx y hy

/-- R177: "largest first". -/
theorem sortByThr_pairwise (l : List Group) : (sortByThr l).Pairwise fun x y => y.thr ≤ x.thr := by
  induction l with
  | nil => exact .nil
  | cons g l ih => exact insertByThr_pairwise ih

theorem mem_longGroups : g ∈ longGroups hb gs ↔ g ∈ gs ∧ hb < g.len := by
  rw [longGroups, mem_sortByThr, List.mem_filter, decide_eq_true_eq]

/-- The scan stops at the first group whose threshold is at most the window, whose symbols stand behind those of the groups
before it; or every threshold is above the window. -/
theorem scanLong_longEntries_cases {l : List Group} (h : ∀ g ∈ l, g.thr < 2 ^ 32) (w : Word) (off : Nat) :
    ((∀ g ∈ l, w.toNat < g.thr) ∧ scanLong w (longEntries off l) = none) ∨
    ∃ l₁ g l₂, l = l₁ ++ g :: l₂ ∧ (∀ x ∈ l₁, w.toNat < x.thr) ∧ g.thr ≤ w.toNat ∧ scanLong w (longEntries off l) =
      some ⟨BitVec.ofNat 32 g.thr, g.len, off + (l₁.flatMap Group.syms).length, g.syms.length⟩ := by
  induction l generalizing off with
  | nil => exact .inl ⟨fun _ hg => absurd hg List.not_mem_nil, rfl⟩
  | cons x l ih =>
    have hthr : w < BitVec.ofNat 32 x.thr ↔ w.toNat < x.thr := by
      rw [BitVec.lt_def, BitVec.toNat_ofNat, Nat.mod_eq_of_lt (h x List.mem_cons_self)]
    rw [longEntries, scanLong]
    by_cases hx : w.toNat < x.thr
    · rw [if_pos (hthr.mpr hx)]
      obtain ⟨habove, hnone⟩ | ⟨l₁, g, l₂, rfl, habove, hle, hsome⟩ :=
        ih (fun g hg => h g (List.mem_cons_of_mem _ hg)) (off + x.syms.length)
      · exact .inl ⟨List.forall_mem_cons.mpr ⟨hx, habove⟩, hnone⟩
      · refine .inr ⟨x :: l₁, g, l₂, rfl, List.forall_mem_cons.mpr ⟨hx, habove⟩, hle, ?_⟩
        rw [hsome, List.flatMap_cons, List.length_append, Nat.add_assoc]
    · rw [if_neg (mt hthr.mp hx)]
      exact .inr ⟨[], x, l, rfl, fun _ hg => absurd hg List.not_mem_nil, Nat.not_lt.mp hx, rfl⟩

/-- The scan in the threshold entries of a code assignment: no long group's threshold is at most the window; or the group of
the first one that is, whose codes the window may be past (R212, R213). -/
theorem CodeGroups.scan_cases (h : CodeGroups gs) (hb : Nat) (w : Word) :
    ((∀ g ∈ gs, hb < g.len → w.toNat < g.thr) ∧ (Slot.ofGroups hb gs).scan w = none) ∨
    ∃ g ∈ gs, hb < g.len ∧ g.thr ≤ w.toNat ∧ (∀ g' ∈ gs, hb < g'.len → g'.thr ≤ w.toNat → g'.thr ≤ g.thr) ∧
      (Slot.ofGroups hb gs).scan w = if g.syms.length ≤ w.toNat / 2 ^ (32 - g.len) - g.base then none
        else some (g.syms.getD (w.toNat / 2 ^ (32 - g.len) - g.base) 0, g.len) := by
  have hthr (x : Group) (hx : x ∈ longGroups hb gs) : x.thr < 2 ^ 32 := h.thr_lt (mem_longGroups.mp hx).1
  obtain ⟨habove, hnone⟩ | ⟨l₁, g, l₂, hsplit, habove, hle, hsome⟩ := scanLong_longEntries_cases hthr w 0
  · exact .inl ⟨fun g hg hlen => habove g (mem_longGroups.mpr ⟨hg, hlen⟩), Slot.scan_of_no_entry hnone⟩
  · have hmem : g ∈ longGroups hb gs := by rw [hsplit]; simp
    obtain ⟨hg, hlen⟩ := mem_longGroups.mp hmem
    refine .inr ⟨g, hg, hlen, hle, fun g' hg' hlen' hle' => ?_, ?_⟩
    · have hsorted : (l₁ ++ g :: l₂).Pairwise fun x y => y.thr ≤ x.thr := hsplit ▸ sortByThr_pairwise _
      have hmem' : g' ∈ l₁ ++ g :: l₂ := hsplit ▸ mem_longGroups.mpr ⟨hg', hlen'⟩
      obtain hfirst | hmem' := List.mem_append.mp hmem'
      · exact absurd (habove g' hfirst) (Nat.not_lt.mpr hle')
      · obtain rfl | hlast := List.mem_cons.mp hmem'
        · exact Nat.le_refl _
        · exact (List.pairwise_cons.mp (List.pairwise_append.mp hsorted).2.1).1 g' hlast
    · have hoffset : (w.toNat - (BitVec.ofNat 32 g.thr).toNat) / 2 ^ (32 - g.len) =
          w.toNat / 2 ^ (32 - g.len) - g.base := by
        rw [BitVec.toNat_ofNat, Nat.mod_eq_of_lt (hthr g hmem), Group.thr_eq, Nat.mul_comm, Nat.sub_mul_div]
      have hstored (k : Nat) (hk : k < g.syms.length) :
          (Slot.ofGroups hb gs).symArr.getD (0 + (l₁.flatMap Group.syms).length + k) 0 = g.syms.getD k 0 := by
        show ((longGroups hb gs).flatMap Group.syms).getD _ 0 = _
        rw [hsplit, List.flatMap_append, List.flatMap_cons, Nat.zero_add, List.getD_append_right _ _ _ _ (by omega),
          Nat.add_sub_cancel_left, List.getD_append _ _ _ _ hk]
      rw [Slot.scan_of_entry hsome, hoffset]
      by_cases hpast : g.syms.length ≤ w.toNat / 2 ^ (32 - g.len) - g.base
      · rw [if_pos hpast, if_pos hpast]
      · rw [if_neg hpast, if_neg hpast, hstored _ (Nat.not_le.mp hpast)]

/-! ### A built tree decodes exactly its codes (R214) -/

/-- A window that a group holds is looked up in that group. -/
theorem CodeGroups.lookup_of_holds (h : CodeGroups gs) (hb32 : hb ≤ 32) (hg : g ∈ gs) (hw : g.Holds w.toNat) :
    (Slot.ofGroups hb gs).lookup hb w = some (g.syms.getD (w.toNat / 2 ^ (32 - g.len) - g.base) 0, g.len) := by
  have hentry := ofGroups_hash hb32 gs w
  obtain ⟨hlen, -⟩ := h.len_le g hg
  by_cases hshort : g.len ≤ hb
  · rw [h.hashEntryAt_of_holds hb32 hg hshort hw] at hentry
    rw [Slot.lookup_of_hit (by rw [hentry]; exact Nat.ne_of_gt hlen), hentry]
  · have hle := (Group.holds_iff.mp hw).1
    have hmiss : hashEntryAt hb gs (w.toNat / 2 ^ (32 - hb)) = ⟨0, 0⟩ :=
      hashEntryAt_of_not_holds hb32 fun g' hg' hshort' hw' => hshort <| by
        rwa [h.eq_of_holds hg' hg hw' hle (.inr hw)]
    rw [Slot.lookup_of_miss (by rw [hentry, hmiss])]
    obtain ⟨habove, -⟩ | ⟨g', hg', -, hle', hmax, hscan⟩ := h.scan_cases hb w
    · exact absurd (habove g hg (Nat.not_le.mp hshort)) (Nat.not_lt.mpr hle)
    · obtain rfl := h.eq_of_holds hg hg' hw hle' (.inl (hmax g hg (Nat.not_le.mp hshort) hle))
      obtain ⟨hlow, hhigh⟩ := hw
      rw [hscan, if_neg (by omega)]

/-- A window that no group holds is looked up in vain. -/
theorem CodeGroups.lookup_of_not_holds (h : CodeGroups gs) (hb32 : hb ≤ 32) (hw : ∀ g ∈ gs, ¬ g.Holds w.toNat) :
    (Slot.ofGroups hb gs).lookup hb w = none := by
  have hmiss := hashEntryAt_of_not_holds hb32 fun g hg _ => hw g hg
  rw [Slot.lookup_of_miss (by rw [ofGroups_hash hb32, hmiss])]
  obtain ⟨-, hscan⟩ | ⟨g, hg, -, hle, -, hscan⟩ := h.scan_cases hb w
  · exact hscan
  · have hlow : g.base ≤ w.toNat / 2 ^ (32 - g.len) := by
      rwa [Nat.le_div_iff_mul_le (Nat.two_pow_pos _), ← Group.thr_eq]
    have hpast : ¬ w.toNat / 2 ^ (32 - g.len) < g.base + g.syms.length := fun hlt => hw g hg ⟨hlow, hlt⟩
    rw [hscan, if_pos (by omega)]

/-- A slot that is built and not empty holds the tables of its code assignment (R172, R179). -/
theorem Builder.build_eq_ofGroups (ha : b.assign cfg = some gs) (hb : b.build cfg = some sl) (he : sl.empty = false) :
    sl = Slot.ofGroups cfg.hashBits gs := by
  obtain ⟨-, h⟩ | ⟨-, gs', hgs, h⟩ | ⟨-, -, h⟩ := Builder.build_cases hb <;> cases h
  · exact absurd he nofun
  · rw [ha] at hgs
    cases hgs
    rfl

/-- Settles O43: a code's windows are those that its group holds, and the lookup of a window is that of the one group that
holds it. -/
theorem builtTreeDecodesItsCodes : Obligations.BuiltTreeDecodesItsCodes := by
  intro s b gs tr t c hwf ha hbuild he htr hv hc
  have hgroups := Builder.assign_codeGroups ha
  have hslot := Builder.build_eq_ofGroups ha hbuild he
  obtain ⟨-, hb32, -⟩ := hwf
  refine ⟨fun g hg k y hy hbegins => ?_, fun hnone => ?_⟩
  · obtain ⟨hk, -⟩ := List.getElem?_eq_some_iff.mp hy
    refine exec_hufRead_of_lookup htr hv he hc ?_ (hgroups.len_le g hg).2
    rw [hslot, hgroups.lookup_of_holds hb32 hg (Group.holds_of_begins hk hbegins),
      show c.head.toNat / 2 ^ (32 - g.len) = g.base + k from hbegins, Nat.add_sub_cancel_left,
      List.getD_eq_getElem?_getD, hy, Option.getD_some]
  · refine exec_hufRead_of_no_code htr hv he hc ?_
    rw [hslot, hgroups.lookup_of_not_holds hb32 fun g hg hw => ?_]
    obtain ⟨hlow, hhigh⟩ := hw
    exact hnone g hg (c.head.toNat / 2 ^ (32 - g.len) - g.base) (by omega) (by unfold Begins; omega)

end Sys2Proof.Machine

/-! ## Tree descriptions (R103, R104, R220 to R224)

A description code gives a list of lengths, and whatever the code, a state takes such a list in one way: the symbols from
the remaining-symbol index down get the lengths (`Builder.describe`), and the index is lowered (`State.described`). The loop
over the codes of a description takes the lengths of all of them. -/

namespace Sys2Proof.Machine

variable {s : State} {t : SlotId} {tr : TreeSel} {c c' : Cursor} {cfg : Config} {b : Builder}

/-! ### The lengths that a builder takes (R220, R221) -/

/-- The builder after the symbols from `top` down got the lengths, one each; 0 leaves a symbol out (R221). -/
def Builder.describe (b : Builder) (top : Nat) : List Nat → Builder
  | [] => b
  | len :: lens => (if len = 0 then b else b.insert top len).describe (top - 1) lens

theorem Builder.describe_append (b : Builder) (top : Nat) (lens lens' : List Nat) :
    b.describe top (lens ++ lens') = (b.describe top lens).describe (top - lens.length) lens' := by
  induction lens generalizing b top with
  | nil => rfl
  | cons len lens ih =>
    rw [List.cons_append, Builder.describe, Builder.describe, ih, List.length_cons, Nat.sub_sub, Nat.add_comm 1]

/-- R221: symbols that are left out leave no trace. -/
theorem Builder.describe_of_skipped {lens : List Nat} (h : ∀ len ∈ lens, len = 0) (b : Builder) (top : Nat) :
    b.describe top lens = b := by
  induction lens generalizing top with
  | nil => rfl
  | cons len lens ih =>
    obtain ⟨hlen, hlens⟩ := List.forall_mem_cons.mp h
    rw [Builder.describe, if_pos hlen, ih hlens]

theorem Builder.present_insert_of_ne {sy j : Nat} (h : j ≠ sy) (len : Nat) : (b.insert sy len).present j = b.present j := by
  simp [Builder.present, Builder.insert, Ne.symm h]

/-- The symbols below those that get a length are not touched. -/
theorem Builder.present_describe {top j : Nat} {lens : List Nat} (h : j + lens.length ≤ top) :
    (b.describe top lens).present j = b.present j := by
  induction lens generalizing b top with
  | nil => rfl
  | cons len lens ih =>
    rw [List.length_cons] at h
    rw [Builder.describe, ih (by omega)]
    split
    · rfl
    · exact Builder.present_insert_of_ne (by omega) len

/-- The lengths as a loop over the symbols' distance from the top. -/
theorem Builder.describe_eq_foldl {n : Nat} {lens : List Nat} (h : n ≤ lens.length) (b : Builder) (top : Nat) :
    (List.range n).foldl (fun b j => if lens.getD j 0 = 0 then b else b.insert (top - j) (lens.getD j 0)) b =
      b.describe top (lens.take n) := by
  induction n generalizing b top lens with
  | zero => rfl
  | succ n ih =>
    cases lens with
    | nil => exact absurd h (Nat.not_succ_le_zero n)
    | cons len lens =>
      rw [List.range_succ_eq_map, List.foldl_cons, List.foldl_map, List.take_succ_cons, Builder.describe,
        ← ih (Nat.le_of_succ_le_succ h)]
      simp only [List.getD_cons_succ, List.getD_cons_zero, Nat.sub_zero, Nat.succ_eq_add_one, Nat.sub_sub,
        Nat.add_comm 1]

/-- The builder that a description asks for; lengths past symbol 0 have to be skips (R220, R221). -/
theorem describedBuilder_eq {n : Nat} {lens : List Nat} (hn : n ≤ lens.length) (hskip : ∀ len ∈ lens.drop n, len = 0) :
    describedBuilder cfg n lens = (Builder.reset cfg).describe (n - 1) lens := by
  have hfold := Builder.describe_eq_foldl hn (Builder.reset cfg) (n - 1)
  have hsplit := Builder.describe_append (Builder.reset cfg) (n - 1) (lens.take n) (lens.drop n)
  rw [List.take_append_drop, Builder.describe_of_skipped hskip] at hsplit
  exact hfold.trans hsplit.symm

/-! ### The lengths that a state takes (R220) -/

/-- The state after the symbols from the remaining-symbol index down got the lengths, one each. -/
def State.described (s : State) (lens : List Nat) : State :=
  setRem (s.dec.descRem - lens.length) (s.withBld (s.bld.describe s.dec.descRem.toNat lens))

/-- No symbol of the description that remains has been added. -/
def State.fresh (s : State) : Prop := ∀ j : Nat, (j : Int) ≤ s.dec.descRem → s.bld.present j = false

theorem State.described_rem (s : State) (lens : List Nat) :
    (s.described lens).dec.descRem = s.dec.descRem - lens.length := rfl

theorem State.described_append (s : State) (lens lens' : List Nat) :
    s.described (lens ++ lens') = (s.described lens).described lens' := by
  have htop : (s.dec.descRem - lens.length).toNat = s.dec.descRem.toNat - lens.length := by omega
  have hrem : s.dec.descRem - (lens ++ lens').length = s.dec.descRem - lens.length - lens'.length := by
    rw [List.length_append]; omega
  unfold State.described
  rw [hrem, Builder.describe_append, ← htop]
  rfl

theorem State.fresh.described (h : s.fresh) {lens : List Nat} (hroom : (lens.length : Int) ≤ s.dec.descRem) :
    (s.described lens).fresh := by
  intro j hj
  have hlow : (j : Int) ≤ s.dec.descRem - lens.length := hj
  exact (Builder.present_describe (by omega)).trans (h j (by omega))

/-! ### One description code (R104, R220 to R222) -/

/-- The lengths that the description code y gives. -/
def codeLengths (symBits : Nat) (y : Sym) : List Nat := List.replicate (y % 2 ^ symBits / 32 + 1) (y % 32)

theorem descLengths_cons (symBits : Nat) (y : Sym) (ys : List Sym) :
    descLengths symBits (y :: ys) = codeLengths symBits y ++ descLengths symBits ys := List.flatMap_cons

theorem descLengths_append_singleton (symBits : Nat) (ys : List Sym) (y : Sym) :
    descLengths symBits (ys ++ [y]) = descLengths symBits ys ++ codeLengths symBits y := by
  rw [descLengths, List.flatMap_append, List.flatMap_singleton]
  rfl

theorem length_codeLengths_pos (symBits : Nat) (y : Sym) : 0 < (codeLengths symBits y).length := by
  rw [codeLengths, List.length_replicate]
  exact Nat.succ_pos _

/-- Every code lowers the index, so a description has no more codes than symbols. -/
theorem length_le_length_descLengths (symBits : Nat) (ys : List Sym) : ys.length ≤ (descLengths symBits ys).length := by
  induction ys with
  | nil => exact Nat.le_refl _
  | cons y ys ih =>
    have hpos := length_codeLengths_pos symBits y
    rw [descLengths_cons, List.length_append, List.length_cons]
    omega

/-- A run within the symbols that remain (R220). -/
theorem descRun_of_room {len cnt : Nat} (h₁ : 1 ≤ len) (h₂ : len ≤ 32) (hroom : (cnt : Int) ≤ s.dec.descRem + 1)
    (hmax : s.dec.descRem < s.cfg.maxSymbols)
    (hfresh : ∀ j : Nat, s.dec.descRem - cnt < j → (j : Int) ≤ s.dec.descRem → s.bld.present j = false) :
    descRun len cnt s = .ok () (s.described (List.replicate cnt len)) := by
  induction cnt generalizing s with
  | zero =>
    show Res.ok () s = Res.ok () (setRem (s.dec.descRem - 0) s)
    rw [Int.sub_zero]
    rfl
  | succ cnt ih =>
    have hadd : addSymbol s.dec.descRem.toNat len s = .ok () (s.withBld (s.bld.insert s.dec.descRem.toNat len)) := by
      rw [addSymbol, Builder.add_eq_insert h₁ h₂ (by omega) (hfresh _ (by omega) (by omega))]
    have hfirst : s.described [len] =
        setRem (s.dec.descRem - 1) (s.withBld (s.bld.insert s.dec.descRem.toNat len)) := by
      rw [State.described, Builder.describe, if_neg (by omega)]
      rfl
    have hrest := ih (s := s.described [len]) (by rw [State.described_rem, List.length_singleton]; omega)
      (by rw [State.described_rem, List.length_singleton]; show _ < (s.cfg.maxSymbols : Int); omega)
      (fun j hlow hhigh => by
        rw [State.described_rem, List.length_singleton] at hlow hhigh
        exact (Builder.present_describe (by rw [List.length_singleton]; omega)).trans (hfresh j (by omega) (by omega)))
    rw [descRun, if_neg (by omega), hadd, Res.ok_andThen]
    show descRun len cnt (setRem (s.dec.descRem - 1) (s.withBld _)) = _
    rw [← hfirst, hrest, ← State.described_append]
    rfl

theorem descRun_add (len m n : Nat) (s : State) :
    descRun len (m + n) s = (descRun len m s).andThen fun _ s => descRun len n s := by
  induction m generalizing s with
  | zero => rw [Nat.zero_add]; rfl
  | succ m ih =>
    rw [Nat.succ_add, descRun, descRun]
    split
    · rfl
    · rw [Res.andThen_assoc]
      simp only [ih]

/-- A run past the symbols that remain uses them up and raises `Corrupt` (R222). -/
theorem descRun_of_overrun {len cnt : Nat} (h₁ : 1 ≤ len) (h₂ : len ≤ 32) (hcnt : 0 < cnt)
    (hover : s.dec.descRem + 1 < cnt) (hmax : s.dec.descRem < s.cfg.maxSymbols) (hfresh : s.fresh) :
    descRun len cnt s =
      .fail (.err .corrupt) (s.described (List.replicate (s.dec.descRem + 1).toNat len)) := by
  obtain ⟨n, hn⟩ : ∃ n, cnt = (s.dec.descRem + 1).toNat + (n + 1) := ⟨cnt - (s.dec.descRem + 1).toNat - 1, by omega⟩
  rw [hn, descRun_add]
  by_cases hneg : s.dec.descRem < 0
  · rw [show (s.dec.descRem + 1).toNat = 0 by omega]
    show descRun len (n + 1) s = .fail (.err .corrupt) (setRem (s.dec.descRem - 0) s)
    rw [descRun, if_pos hneg, Int.sub_zero]
    rfl
  · rw [descRun_of_room h₁ h₂ (by omega) hmax fun j _ => hfresh j, Res.ok_andThen, descRun,
      if_pos (by rw [State.described_rem, List.length_replicate]; omega)]
    rfl

/-- R221: a skip takes its count from the index and adds nothing to the builder. -/
theorem descSkip_eq (cnt : Nat) (s : State) : descSkip cnt s = .ok () (s.described (List.replicate cnt 0)) := by
  rw [State.described, Builder.describe_of_skipped (fun _ => List.eq_of_mem_replicate), List.length_replicate]
  rfl

/-- A code that skips, or a run within the symbols that remain, gives its lengths. -/
theorem descCode_of_room {y : Sym} (hroom : y % 32 = 0 ∨
    ((codeLengths s.cfg.symBits y).length : Int) ≤ s.dec.descRem + 1) (hmax : s.dec.descRem < s.cfg.maxSymbols)
    (hfresh : s.fresh) : descCode y s = .ok () (s.described (codeLengths s.cfg.symBits y)) := by
  unfold descCode
  by_cases hzero : y % 32 = 0
  · rw [codeLengths, hzero]
    exact (if_pos hzero).trans (descSkip_eq _ s)
  · have hcount := hroom.resolve_left hzero
    rw [codeLengths, List.length_replicate] at hcount
    have hlt : y % 32 < 32 := Nat.mod_lt _ (by decide)
    exact (if_neg hzero).trans (descRun_of_room (Nat.pos_of_ne_zero hzero) hlt.le hcount hmax fun j _ => hfresh j)

/-- A run past the symbols that remain raises `Corrupt`. -/
theorem descCode_of_overrun {y : Sym} (hrun : y % 32 ≠ 0)
    (hover : s.dec.descRem + 1 < (codeLengths s.cfg.symBits y).length) (hmax : s.dec.descRem < s.cfg.maxSymbols)
    (hfresh : s.fresh) : ∃ lens, descCode y s = .fail (.err .corrupt) (s.described lens) := by
  rw [codeLengths, List.length_replicate] at hover
  have hlt : y % 32 < 32 := Nat.mod_lt _ (by decide)
  unfold descCode
  exact ⟨_, (if_neg hrun).trans
    (descRun_of_overrun (Nat.pos_of_ne_zero hrun) hlt.le (Nat.succ_pos _) hover hmax hfresh)⟩

theorem err_raise_corrupt (h : s.err = none) : (s.raise (.err .corrupt)).err = some .corrupt := by
  rw [State.raise_err, h]
  rfl

/-- Settles O47: the meaning of the element is the skip. -/
theorem descSkipLowersIndex : Obligations.DescSkipLowersIndex := by
  intro cm1 s
  have hexec : exec (.descSkip cm1) s = finish (descSkip (runCount cm1) s) := rfl
  rw [hexec, descSkip, finish_eq, Res.settle_ok, runCount]
  rfl

/-- Settles O48: a run within the symbols that remain, and one past them. -/
theorem descRunAssignsLengths : Obligations.DescRunAssignsLengths := by
  intro len cm1 s hlen hmax hfresh
  have h₁ : 1 ≤ len.toNat := Nat.pos_of_ne_zero fun h => hlen (BitVec.eq_of_toNat_eq h)
  have h₂ : len.toNat ≤ 32 := len.isLt.le
  have hexec : exec (.descRun len cm1) s = finish (descRun len.toNat (cm1 + 1) s) := rfl
  refine ⟨fun hroom => ?_, fun hover herr => ?_⟩
  · have hfold : (List.range (cm1 + 1)).foldl (fun b j => b.insert (s.dec.descRem.toNat - j) len.toNat) s.bld =
        s.bld.describe s.dec.descRem.toNat (List.replicate (cm1 + 1) len.toNat) := by
      have hlens : (List.replicate (cm1 + 1) len.toNat).take (cm1 + 1) = List.replicate (cm1 + 1) len.toNat :=
        List.take_of_length_le (List.length_replicate ..).le
      rw [← hlens, ← Builder.describe_eq_foldl (List.length_replicate ..).ge]
      refine List.foldl_ext _ _ _ fun b j hj => ?_
      have hget : (List.replicate (cm1 + 1) len.toNat).getD j 0 = len.toNat :=
        List.getD_replicate _ (List.mem_range.mp hj)
      rw [hget, if_neg (by omega)]
    rw [hexec, descRun_of_room h₁ h₂ (by omega) hmax fun j hlow hhigh => hfresh j (by omega) hhigh, hfold, finish_eq,
      Res.settle_ok, State.described, List.length_replicate]
    rfl
  · rw [hexec, descRun_of_overrun h₁ h₂ (Nat.succ_pos _) (by omega) hmax fun j hj => hfresh j (by omega) hj]
    exact ⟨_, rfl, err_raise_corrupt herr⟩

/-! ### The codes of a description (R220) -/

/-- What the codes read depends on the parameters, IN and the dictionary alone. -/
theorem ReadsCodes.congr {s s' : State} {ys : List Sym} (h : ReadsCodes s c ys c') (hcfg : s'.cfg = s.cfg)
    (hin : s'.inMem = s.inMem) (hdict : s'.dict = s.dict) : ReadsCodes s' c ys c' := by
  induction ys generalizing c with
  | nil => exact h
  | cons y ys ih =>
    obtain ⟨c₁, len, hneed, hlookup, hlen, hrest⟩ := h
    refine ⟨c₁, len, ?_, ?_, hlen, ih hrest⟩
    · rwa [hcfg, hin]
    · rwa [hcfg, hdict]

theorem readsCodes_append {ys zs : List Sym} :
    ReadsCodes s c (ys ++ zs) c' ↔ ∃ c₁, ReadsCodes s c ys c₁ ∧ ReadsCodes s c₁ zs c' := by
  induction ys generalizing c with
  | nil =>
    constructor
    · exact fun h => ⟨c, rfl, h⟩
    · rintro ⟨_, rfl, h⟩
      exact h
  | cons y ys ih =>
    rw [List.cons_append]
    simp only [ReadsCodes, ih]
    tauto

/-- The state within a description: the dictionary is built, and of the symbols that remain, none has been added. -/
structure State.InDescription (s : State) : Prop where
  valid : s.dictValid = true
  nonempty : s.dict.empty = false
  rem_lt : s.dec.descRem < s.cfg.maxSymbols
  fresh : s.fresh

theorem State.InDescription.withCur (h : s.InDescription) (c : Cursor) : (s.withCur c).InDescription :=
  ⟨h.valid, h.nonempty, h.rem_lt, h.fresh⟩

theorem State.InDescription.described (h : s.InDescription) {lens : List Nat}
    (hroom : (lens.length : Int) ≤ s.dec.descRem) : (s.described lens).InDescription where
  valid := h.valid
  nonempty := h.nonempty
  rem_lt := by
    have hmax : s.dec.descRem < s.cfg.maxSymbols := h.rem_lt
    show s.dec.descRem - lens.length < (s.cfg.maxSymbols : Int)
    omega
  fresh := h.fresh.described hroom

/-- `READCODE(DICT)` within a description (R210). -/
theorem State.InDescription.readCode (h : s.InDescription) {y : Sym} {ys : List Sym}
    (hread : ReadsCodes s s.cur (y :: ys) c') :
    ∃ c, readCode .dict s = .ok y (s.withCur c) ∧ ReadsCodes s c ys c' := by
  obtain ⟨c₁, len, hneed, hlookup, hlen, hrest⟩ := hread
  refine ⟨c₁.dropped len, ?_, hrest⟩
  rw [readCode_of_valid fun _ => h.valid]
  exact readSlot_eq_ok.mpr ⟨h.nonempty, c₁, len, hneed, hlookup, hlen, rfl⟩

theorem descLoop_of_neg (h : s.dec.descRem < 0) (k : Nat) : descLoop k s = .ok () s := by
  cases k with
  | zero => rfl
  | succ k => rw [descLoop, if_pos h]

/-- One round of the loop. -/
theorem State.InDescription.descLoop_succ (h : s.InDescription) {y : Sym} {ys : List Sym} (hrem : 0 ≤ s.dec.descRem)
    (hread : ReadsCodes s s.cur (y :: ys) c') (k : Nat) :
    ∃ c, ReadsCodes s c ys c' ∧ descLoop (k + 1) s = (descCode y (s.withCur c)).andThen fun _ s => descLoop k s := by
  obtain ⟨c, hcode, hrest⟩ := h.readCode hread
  exact ⟨c, hrest, by rw [descLoop, if_neg (Int.not_lt.mpr hrem), hcode, Res.ok_andThen]⟩

/-- The rounds of codes that leave symbols over. -/
theorem State.InDescription.descLoop_of_codes (h : s.InDescription) {ys : List Sym}
    (hroom : ((descLengths s.cfg.symBits ys).length : Int) ≤ s.dec.descRem) (hread : ReadsCodes s s.cur ys c')
    (k : Nat) :
    descLoop (ys.length + k) s = descLoop k ((s.withCur c').described (descLengths s.cfg.symBits ys)) := by
  induction ys generalizing s with
  | nil =>
    cases hread
    show descLoop (0 + k) s = descLoop k (setRem (s.dec.descRem - 0) s)
    rw [Int.sub_zero, Nat.zero_add]
    rfl
  | cons y ys ih =>
    rw [descLengths_cons, List.length_append] at hroom
    obtain ⟨c, hrest, hloop⟩ := h.descLoop_succ (by omega) hread (ys.length + k)
    have hcur := h.withCur c
    have hcode := descCode_of_room (s := s.withCur c) (y := y)
      (.inr (show ((codeLengths s.cfg.symBits y).length : Int) ≤ s.dec.descRem + 1 by omega)) hcur.rem_lt hcur.fresh
    have hnext := hcur.described (lens := codeLengths s.cfg.symBits y)
      (show ((codeLengths s.cfg.symBits y).length : Int) ≤ s.dec.descRem by omega)
    rw [List.length_cons, Nat.add_right_comm, hloop, hcode, Res.ok_andThen]
    refine (ih hnext ?_ (hrest.congr rfl rfl rfl)).trans ?_
    · show ((descLengths s.cfg.symBits ys).length : Int) ≤ s.dec.descRem - (codeLengths s.cfg.symBits y).length
      omega
    · rw [descLengths_cons, State.described_append]
      rfl

/-- A whole description, but for its last code. -/
theorem State.InDescription.descLoop_of_last (h : s.InDescription) {ys : List Sym} {y : Sym} {n : Nat}
    (hroom : ((descLengths s.cfg.symBits ys).length : Int) ≤ s.dec.descRem) (hn : s.dec.descRem < n)
    (hread : ReadsCodes s s.cur (ys ++ [y]) c') :
    ((s.withCur c').described (descLengths s.cfg.symBits ys)).InDescription ∧ ∃ k, descLoop n s =
      (descCode y ((s.withCur c').described (descLengths s.cfg.symBits ys))).andThen fun _ s => descLoop k s := by
  obtain ⟨c, hys, hy⟩ := readsCodes_append.mp hread
  have hle := length_le_length_descLengths s.cfg.symBits ys
  obtain ⟨k, rfl⟩ : ∃ k, n = ys.length + (k + 1) := ⟨n - ys.length - 1, by omega⟩
  have hlast := (h.withCur c).described (lens := descLengths s.cfg.symBits ys) hroom
  obtain ⟨c₁, hend, hloop⟩ := hlast.descLoop_succ
    (show 0 ≤ s.dec.descRem - (descLengths s.cfg.symBits ys).length by omega)
    (hy.congr rfl rfl rfl) k
  cases hend
  exact ⟨(h.withCur c').described hroom, k, (h.descLoop_of_codes hroom hys (k + 1)).trans hloop⟩

/-- R220: the loop over the codes gives all their lengths, where the last of them uses the symbols up and does not run past
symbol 0. -/
theorem State.InDescription.descLoop_ok (h : s.InDescription) {ys : List Sym} {y : Sym} {n : Nat}
    (hroom : ((descLengths s.cfg.symBits ys).length : Int) ≤ s.dec.descRem) (hn : s.dec.descRem < n)
    (hread : ReadsCodes s s.cur (ys ++ [y]) c')
    (hend : s.dec.descRem < (descLengths s.cfg.symBits (ys ++ [y])).length)
    (hlast : y % 32 = 0 ∨ ((descLengths s.cfg.symBits (ys ++ [y])).length : Int) ≤ s.dec.descRem + 1) :
    descLoop n s = .ok () ((s.withCur c').described (descLengths s.cfg.symBits (ys ++ [y]))) := by
  obtain ⟨hin, k, hloop⟩ := h.descLoop_of_last hroom hn hread
  rw [descLengths_append_singleton, List.length_append] at hend hlast
  have hcode := descCode_of_room (s := (s.withCur c').described (descLengths s.cfg.symBits ys)) (y := y)
    (hlast.imp_right fun hle => show ((codeLengths s.cfg.symBits y).length : Int) ≤
      s.dec.descRem - (descLengths s.cfg.symBits ys).length + 1 by omega) hin.rem_lt hin.fresh
  rw [hloop, hcode, Res.ok_andThen, descLengths_append_singleton, State.described_append]
  refine descLoop_of_neg ?_ k
  show s.dec.descRem - (descLengths s.cfg.symBits ys).length - (codeLengths s.cfg.symBits y).length < 0
  omega

/-- R222: the loop raises `Corrupt` where the last code runs past symbol 0. -/
theorem State.InDescription.descLoop_fail (h : s.InDescription) {ys : List Sym} {y : Sym} {n : Nat}
    (hroom : ((descLengths s.cfg.symBits ys).length : Int) ≤ s.dec.descRem) (hn : s.dec.descRem < n)
    (hread : ReadsCodes s s.cur (ys ++ [y]) c') (hrun : y % 32 ≠ 0)
    (hover : s.dec.descRem + 1 < (descLengths s.cfg.symBits (ys ++ [y])).length) :
    ∃ lens, descLoop n s = .fail (.err .corrupt) ((s.withCur c').described lens) := by
  obtain ⟨hin, k, hloop⟩ := h.descLoop_of_last hroom hn hread
  rw [descLengths_append_singleton, List.length_append] at hover
  obtain ⟨lens, hcode⟩ := descCode_of_overrun (s := (s.withCur c').described (descLengths s.cfg.symBits ys)) hrun
    (show s.dec.descRem - (descLengths s.cfg.symBits ys).length + 1 < ((codeLengths s.cfg.symBits y).length : Int) by
      omega) hin.rem_lt hin.fresh
  exact ⟨descLengths s.cfg.symBits ys ++ lens, by rw [hloop, hcode, Res.fail_andThen, State.described_append]⟩

/-! ### `DESC_READ` (R220 to R224) -/

/-- The state in which a description of n symbols begins to read its codes: N is read, the builder empty (R220). -/
def State.atDescription (s : State) (c : Cursor) (n : Nat) : State :=
  setRem ((n : Int) - 1) ((s.withCur (c.dropped 16)).withBld (Builder.reset s.cfg))

/-- Up to the check of N (R220, R223). -/
theorem desc_of_count {n : Nat} (hv : s.dictValid = true) (hc : s.cur.need s.cfg s.inMem 16 = .ok c)
    (hn : n = c.head.toNat / 2 ^ 16) : desc t s =
    if s.cfg.maxSymbols < n then failWith .invalidInput (s.withCur (c.dropped 16))
    else (descLoop n (s.atDescription c n)).andThen fun _ s => (buildSlot t s).andThen fun _ s => .ok n s := by
  obtain ⟨v, hread, hval⟩ := readField_of_need hc
  rw [desc, dictInit_of_valid hv, Res.ok_andThen, hread, Res.ok_andThen, hval, ← hn]
  rfl

theorem State.atDescription_inDescription {n : Nat} (hv : s.dictValid = true) (he : s.dict.empty = false)
    (hn : n ≤ s.cfg.maxSymbols) : (s.atDescription c n).InDescription where
  valid := hv
  nonempty := he
  rem_lt := by
    show (n : Int) - 1 < (s.cfg.maxSymbols : Int)
    omega
  fresh j _ := ((Builder.reset_atReset s.cfg).2 j).2.2

/-- Settles O44: a description of no symbols builds the empty slot from the empty builder. -/
theorem descReadEndMarker : Obligations.DescReadEndMarker := by
  intro s tr t c htr ht hv hc hzero
  refine ⟨Builder.reset s.cfg, Slot.reset s.cfg, ?_, Builder.reset_atReset s.cfg, Slot.reset_atReset s.cfg⟩
  rw [exec_descRead htr ht, desc_of_zero_count hv hc hzero]
  rfl

/-- Settles O45: the check of N comes before the builder is cleared. -/
theorem descReadTooManySymbols : Obligations.DescReadTooManySymbols := by
  intro s tr t c htr ht hv hc hmany
  rw [exec_descRead htr ht, desc_of_count hv hc rfl, if_pos hmany]
  rfl

/-- A description that raises `Corrupt` in a state without an error. -/
theorem exec_descRead_corrupt {u : State} (htr : operandTR tr = some t) (ht : t ≠ .dict) (hs : s.err = none)
    (h : desc t s = .fail (.err .corrupt) u) : ∃ u, exec (.descRead tr) s = .next u ∧ u.err = some .corrupt := by
  have hkeep := desc_leads (keepsHost_descStable t) s
  rw [h] at hkeep
  exact ⟨u.raise (.err .corrupt), by rw [exec_descRead htr ht, h]; rfl, err_raise_corrupt (hkeep.err.trans hs)⟩

/-- The state in which the slot is built, once the codes are read. -/
theorem State.atDescription_described (n : Nat) (lens : List Nat) :
    ((s.atDescription c n).withCur c').described lens =
      ((s.withCur c').withBld ((Builder.reset s.cfg).describe (n - 1) lens)).withDec
        { s.dec with descRem := (n : Int) - 1 - lens.length } := by
  have htop : ((n : Int) - 1).toNat = n - 1 := by omega
  rw [← htop]
  rfl

/-- The lengths past symbol 0 are skips, if the last code is one or ends there (R221). -/
theorem descLengths_drop {symBits n : Nat} {ys : List Sym} {y : Sym} (hroom : (descLengths symBits ys).length < n)
    (hlast : y % 32 = 0 ∨ (descLengths symBits (ys ++ [y])).length = n) :
    ∀ len ∈ (descLengths symBits (ys ++ [y])).drop n, len = 0 := by
  intro len hlen
  obtain hzero | hexact := hlast
  · rw [descLengths_append_singleton, List.drop_append, List.drop_of_length_le hroom.le, List.nil_append] at hlen
    exact (List.eq_of_mem_replicate (List.mem_of_mem_drop hlen)).trans hzero
  · rw [← hexact, List.drop_length] at hlen
    exact absurd hlen List.not_mem_nil

/-- Codes that all skip give no symbol a length. -/
theorem descLengths_of_skips {symBits : Nat} {ys : List Sym} (h : ∀ y ∈ ys, y % 32 = 0) :
    ∀ len ∈ descLengths symBits ys, len = 0 := by
  intro len hlen
  obtain ⟨y, hy, hlen⟩ := List.mem_flatMap.mp hlen
  exact (List.eq_of_mem_replicate hlen).trans (h y hy)

/-- Settles O46: the loop takes the lengths of all the codes, or raises `Corrupt` in the last one; then the slot is built. -/
theorem descReadBuildsDescription : Obligations.DescReadBuildsDescription := by
  rintro s tr t c c' n ys y lens htr ht hv he hc hcount hpos hmax hread hroom rfl hfull
  have hin : (s.atDescription c n).InDescription := State.atDescription_inDescription hv he hmax
  have hrem : (s.atDescription c n).dec.descRem = (n : Int) - 1 := rfl
  have hcfg : (s.atDescription c n).cfg = s.cfg := rfl
  have hcodes : ReadsCodes (s.atDescription c n) (s.atDescription c n).cur (ys ++ [y]) c' := hread.congr rfl rfl rfl
  have hdesc := desc_of_count (t := t) hv hc hcount
  rw [if_neg (Nat.not_lt.mpr hmax)] at hdesc
  refine ⟨fun hlast => ?_, fun hrun hlen herr => ?_⟩
  · have hloop := hin.descLoop_ok (n := n) (by rw [hrem, hcfg]; omega) (by rw [hrem]; omega) hcodes
      (by rw [hrem, hcfg]; omega) (hlast.imp_right fun hexact => by rw [hrem, hcfg]; omega)
    have hbuilder := describedBuilder_eq (cfg := s.cfg) hfull (descLengths_drop hroom hlast)
    rw [hloop, Res.ok_andThen, hcfg, State.atDescription_described, ← hbuilder, buildSlot, State.withDec_bld,
      State.withBld_bld, State.withDec_cfg, State.withBld_cfg, State.withCur_cfg] at hdesc
    refine ⟨fun x hx => ⟨?_, fun hskips => ?_⟩, fun hnone herr => ?_⟩
    · rw [exec_descRead htr ht, hdesc, hx]
      rfl
    · rw [hbuilder, Builder.describe_of_skipped (descLengths_of_skips hskips)] at hx ⊢
      rw [Builder.build_reset] at hx
      cases hx
      exact ⟨Builder.reset_atReset s.cfg, Slot.reset_atReset s.cfg⟩
    · rw [hnone] at hdesc
      exact exec_descRead_corrupt htr ht herr hdesc
  · obtain ⟨part, hloop⟩ := hin.descLoop_fail (n := n) (by rw [hrem, hcfg]; omega) (by rw [hrem]; omega) hcodes hrun
      (by rw [hrem, hcfg]; omega)
    rw [hloop, Res.fail_andThen] at hdesc
    exact exec_descRead_corrupt htr ht herr hdesc

end Sys2Proof.Machine

/-! ## The elements of a block and a `DAT_DECODE` that reaches none (R241 to R255)

A literal, a copy symbol and an offset symbol are stated from the operation that runs them, for every bucket at once. A
`DAT_DECODE` without a block is a header, a const-add field and an outer loop of no rounds; where its input is too short, the
pull that raises is the one after the tolerated pull. -/

namespace Sys2Proof.Machine

variable {s t u : State} {c : Cursor} {code q r x : Nat}

/-! ### Literals (R250) -/

/-- A literal with output left (R249, R250). -/
theorem exec_lit_of_room (b : Byte) (hroom : s.dec.outPos < s.dec.eff) : exec (.lit b) s =
    .next ((s.withOutMem (s.outMem.write s.dec.outPos.toNat b)).withDec { s.dec with outPos := s.dec.outPos + 1 }) := by
  show finish (literal b s) = _
  rw [literal, if_pos hroom]
  rfl

/-- Settles O49: the write of the byte, and `OUTPOS` below `EFF` does not wrap. -/
theorem literalWritesOneByte : Obligations.LiteralWritesOneByte := by
  intro b s hroom
  refine ⟨_, exec_lit_of_room b hroom, fun a => Memory.read?_write s.outMem s.dec.outPos.toNat a b, rfl, ?_⟩
  show (s.dec.outPos + 1).toNat = s.dec.outPos.toNat + 1
  bv_omega

/-! ### Copy symbols (R251, R252) -/

/-- The buckets without extra bits read nothing (R107). -/
theorem extraBits_zero_iff : ExtraBits 0 s c x ↔ c = s.cur ∧ x = 0 := by rw [ExtraBits, if_pos rfl]

/-- `WRITESIZE` of a symbol of bucket q, low bits r (R106, R251). -/
theorem writeSize_of_bucket (hq : q < 7) (hr : r < 4) (h : ExtraBits (q - 1) s c x) :
    writeSize (4 * q + r) s = .ok (copySizeOf q r x) (s.withCur c) := by
  have hdiv : (4 * q + r) / 4 = q := by omega
  have hmod : (4 * q + r) % 4 = r := by omega
  simp only [writeSize, copySizeOf, hdiv, hmod]
  by_cases hzero : q = 0
  · subst hzero
    obtain ⟨rfl, -⟩ := extraBits_zero_iff.mp h
    rw [if_pos rfl, if_pos rfl, Nat.mul_zero, Nat.zero_add, State.withCur_self]
  · obtain ⟨hread, hx⟩ := extraBits_of_field h
    rw [if_neg hzero, if_neg hzero, if_pos (by omega), hread, Res.ok_andThen, base_or_extra hx]

/-- The copy token of every bucket (R106). -/
theorem sizeCompletes_copyOf (hq : q < 7) (r : BitVec 2) : SizeCompletes (Instr.copyOf r q) q r.toNat := by
  intro s c x h
  rw [exec_copyOf hq, copySymbol, copyCode, writeSize_of_bucket hq r.isLt h]
  rfl

/-- The symbols above 0x11C have no class (R106, R251). -/
theorem writeSize_of_reserved (h : 29 ≤ code) (s : State) : writeSize code s = .fail (.err .corrupt) s := by
  simp only [writeSize]
  rw [if_neg (by omega), if_neg (by omega), if_neg (by omega)]
  rfl

/-- Settles O50: the seven buckets, the symbol 0x11C and those above it. -/
theorem copySymbolsGiveSize : Obligations.CopySymbolsGiveSize := by
  refine ⟨sizeCompletes_copyOf (q := 0) (by decide), sizeCompletes_copyOf (q := 1) (by decide),
    sizeCompletes_copyOf (q := 2) (by decide), sizeCompletes_copyOf (q := 3) (by decide),
    sizeCompletes_copyOf (q := 4) (by decide), sizeCompletes_copyOf (q := 5) (by decide),
    sizeCompletes_copyOf (q := 6) (by decide), fun _ => rfl, fun y s hy => ?_⟩
  have hcode : 29 ≤ y - 0x100 := Nat.le_sub_of_add_le hy
  show finish (copySymbol (y - 0x100) s) = _
  rw [copySymbol, writeSize_of_reserved hcode]
  rfl

/-! ### Offset symbols (R253 to R255) -/

/-- `WRITEOFFSET` of a symbol of bucket q, low bit r (R108, R253). -/
theorem writeOffset_of_bucket (hq : q ≤ s.cfg.offsetMaxBucket) (hr : r < 2) (h : ExtraBits (q - 1) s c x) :
    writeOffset (2 * q + r) s = .ok (copyOffsetOf q r x) (s.withCur c) := by
  have hdiv : (2 * q + r) / 2 = q := by omega
  have hmod : (2 * q + r) % 2 = r := by omega
  simp only [writeOffset, copyOffsetOf, hdiv, hmod]
  by_cases hzero : q = 0
  · subst hzero
    obtain ⟨rfl, -⟩ := extraBits_zero_iff.mp h
    rw [if_pos rfl, if_pos rfl, Nat.mul_zero, Nat.zero_add, State.withCur_self]
  · obtain ⟨hread, hx⟩ := extraBits_of_field h
    rw [if_neg hzero, if_neg hzero, if_pos hq, hread, Res.ok_andThen, base_or_extra hx]

/-- A bucket past `OFFSET_MAX_BUCKET` raises `Corrupt` before anything is read (R253). -/
theorem offsetSymbol_of_past_bucket (h : s.cfg.offsetMaxBucket < code / 2) :
    offsetSymbol code s = .fail (.err .corrupt) s := by
  simp only [offsetSymbol, writeOffset]
  rw [if_neg (by omega), if_neg (by omega)]
  rfl

/-- A copy from within the bytes produced, after the extra bits are read (R255). -/
theorem copyBytes_copiedFrom {off : Nat} (ho : 1 ≤ off) (hle : off ≤ s.dec.outPos.toNat) :
    CopiedFrom s (copyBytes s.dec.copySize off (s.withCur c)) c off := by
  obtain ⟨-, hcopied, hkept⟩ := copyRun_spec ho hle (eff := s.dec.eff.toNat) (n := s.dec.copySize) (m := s.outMem)
  exact ⟨copyBytes_outPos (s := s.withCur c) ho hle, hcopied, hkept, rfl⟩

/-- An instruction that runs the offset symbol of bucket q, low bit r (R253, R254, R255). -/
theorem offsetMeaning_of_exec {i : Instr} (hr : r < 2) (hi : ∀ s, exec i s = finish (offsetSymbol (2 * q + r) s)) :
    OffsetMeaning i q r := by
  intro s
  rw [hi]
  refine ⟨fun hpast => ?_, fun c x hq hx => ?_⟩
  · rw [offsetSymbol_of_past_bucket (by omega)]
    rfl
  · rw [offsetSymbol, writeOffset_of_bucket hq hr hx, Res.ok_andThen]
    exact ⟨fun hwithin => ⟨_, congrArg finish (if_neg (Nat.not_lt.mpr hwithin)),
      copyBytes_copiedFrom (Nat.le_add_left 1 _) hwithin⟩, fun hpast => congrArg finish (if_pos hpast)⟩

theorem offsetMeaning_offsetOf (hq : q < 17) (r : BitVec 1) : OffsetMeaning (Instr.offsetOf r q) q r.toNat :=
  offsetMeaning_of_exec r.isLt (exec_offsetOf hq r)

/-- Settles O52: the seventeen buckets of the opcode table, and the symbols from 34 on by value (log 8). -/
theorem offsetSymbolsCopy : Obligations.OffsetSymbolsCopy := by
  refine ⟨offsetMeaning_offsetOf (q := 0) (by decide), offsetMeaning_offsetOf (q := 1) (by decide),
    offsetMeaning_offsetOf (q := 2) (by decide), offsetMeaning_offsetOf (q := 3) (by decide),
    offsetMeaning_offsetOf (q := 4) (by decide), offsetMeaning_offsetOf (q := 5) (by decide),
    offsetMeaning_offsetOf (q := 6) (by decide), offsetMeaning_offsetOf (q := 7) (by decide),
    offsetMeaning_offsetOf (q := 8) (by decide), offsetMeaning_offsetOf (q := 9) (by decide),
    offsetMeaning_offsetOf (q := 10) (by decide), offsetMeaning_offsetOf (q := 11) (by decide),
    offsetMeaning_offsetOf (q := 12) (by decide), offsetMeaning_offsetOf (q := 13) (by decide),
    offsetMeaning_offsetOf (q := 14) (by decide), offsetMeaning_offsetOf (q := 15) (by decide),
    offsetMeaning_offsetOf (q := 16) (by decide),
    fun y _ => offsetMeaning_of_exec (Nat.mod_lt y (by decide)) fun s => ?_⟩
  rw [Nat.div_add_mod]
  rfl

/-- Settles O51: the symbol's bucket is past `OFFSET_MAX_BUCKET`. -/
theorem reservedOffsetSymbolIsCorrupt : Obligations.ReservedOffsetSymbolIsCorrupt := by
  intro y s hy
  show finish (offsetSymbol y s) = _
  rw [offsetSymbol_of_past_bucket (by omega)]
  rfl

/-! ### The max-count field and the token loop (R105, R248, R249) -/

/-- With the output full no token is read, whatever is left of `MAXCOUNT` (R249). -/
theorem tokenLoop_of_full (h : s.dec.outPos = s.dec.eff) (n : Nat) : tokenLoop n s = .ok () s := by
  cases n with
  | zero => rfl
  | succ n => rw [tokenLoop, h, if_neg (BitVec.lt_irrefl _)]

/-- Settles O57: the field is one read, and the loop's tokens are those of `BlockTokens`, which keep `MAXCOUNT` and `EFF` and
write output in order. -/
theorem maxCountLimitsTokens : Obligations.MaxCountLimitsTokens := by
  refine ⟨fun s c v hc hv => ?_, fun s => ⟨fun hfull => tokenLoop_of_full hfull _, fun hs hle hfits hcount => ?_⟩⟩
  · have hfield : ReadsField s.cfg.maxCountBits s v (s.withCur (c.dropped s.cfg.maxCountBits)) := ⟨c, hc, hv, rfl⟩
    refine ⟨maxCountField_eq_ok.mpr ⟨v, _, hfield, rfl⟩, fun hbits hshift => ?_⟩
    have hvalue : v < 2 ^ 4 := hbits ▸ hfield.lt.2
    rw [hshift]
    omega
  · obtain ⟨hmax, -⟩ := hfits
    refine ⟨fun t => tokenLoop_eq_ok_iff_blockTokens hs hle hmax hcount, ?_⟩
    rintro t ⟨hrounds, -, -⟩
    have hread := tokenRounds_readsTokens hs hrounds
    exact ⟨hread.maxCount, hread.out.eff, hread.out.bounded hle⟩

/-! ### The argument checks (R241) -/

/-- Settles O53: the checks are the command's first work. -/
theorem datDecodeChecksArguments : Obligations.DatDecodeChecksArguments := by
  intro s hbad
  show finish (datRun s) = _
  obtain ⟨-, hargs⟩ | ⟨hin, hout, -⟩ := datArguments_cases s
  · rw [datRun, hargs]
    rfl
  · obtain hno | ⟨hp, hz⟩ := hbad
    · exact absurd (hno.symm.trans hin) nofun
    · exact absurd hz (hout hp)

/-! ### Inputs that end in the header (R147, R243) -/

theorem err_raise (k : ErrKind) (h : s.err = none) : (s.raise (.err k)).err = some k := by
  rw [State.raise_err, h]
  rfl

/-- With the arguments in order and the dictionary built, a `DAT_DECODE` begins with its header (R240). -/
theorem datRun_of_arguments (hin : s.inPresent = true) (hout : s.outPresent = true → s.outSize ≠ 0)
    (hv : s.dictValid = true) : datRun s = (datHeader (s.withCur (Cursor.init s.inLen))).andThen fun _ s =>
      (constFieldAt .perCall s).andThen fun _ s => (blockLoop s.dec.eff.toNat s).andThen fun _ s => datResult s := by
  rw [datRun, datArguments_of hin hout, Res.ok_andThen, dictInit_of_valid hv]
  rfl

/-- A `DAT_DECODE` whose work raises, from a state without an error. -/
theorem exec_datDecode_of_fail {k : ErrKind} (hs : s.err = none) (h : datRun s = .fail (.err k) u)
    (hu : u.err = s.err) : ∃ t, exec .datDecode s = .next t ∧ t.err = some k := by
  refine ⟨u.raise (.err k), ?_, err_raise k (hu.trans hs)⟩
  show finish (datRun s) = _
  rw [h]
  rfl

/-- The tolerated pull of an empty input, under any stride: both words it may test are past the end (R146, R147). -/
theorem Cursor.need_init_of_no_word {cfg : Config} {m : Memory} {inLen : Word} (h : inLen.toNat < 4) :
    (Cursor.init inLen).need cfg m 32 = .ok (.holding 0 32 (skipIndex cfg 0 + 1) (inLen >>> 2) true) := by
  have hlimit := limit_toNat inLen
  have hpull : (Cursor.init inLen).pull cfg m = .ok ((emptyAt 0 (inLen >>> 2) true).merge (skipIndex cfg 0) 0) :=
    pull_of_le rfl (show (inLen >>> 2).toNat ≤ skipIndex cfg 0 by omega)
  rw [need_of_lt (by decide) (show (0#6).toNat < 32 by decide), hpull, merge_emptyAt]

/-- Once the tolerated pull is used up, the next pull past the end raises (R147). -/
theorem Cursor.need_emptyAt_of_exhausted {cfg : Config} {m : Memory} {n p : Nat} {limit : Word} (h₁ : 1 ≤ n)
    (h₂ : n ≤ 32) (hp : p < 2 ^ 32) (hle : limit.toNat ≤ p) : (emptyAt p limit true).need cfg m n = .error .truncated := by
  have hpos : (emptyAt p limit true).pos.toNat = p := Nat.mod_eq_of_lt hp
  have hpast : limit.toNat ≤ skipIndex cfg (emptyAt p limit true).pos.toNat := by
    rw [hpos]
    exact Nat.le_trans hle (le_skipIndex cfg p)
  rw [need_of_lt h₂ (show (0#6).toNat < n from h₁), pull_of_le rfl hpast]
  rfl

/-- A header whose second word cannot be pulled (R243). -/
theorem datHeader_of_error {k : ErrKind} (hfirst : s.cur.need s.cfg s.inMem 32 = .ok c)
    (hsecond : (c.dropped 32).need s.cfg s.inMem 32 = .error k) :
    datHeader s = .fail (.err k) (s.withCur (c.dropped 32)) := by
  rw [datHeader, needBits_of_ok hfirst, Res.ok_andThen, dropBits_of_le (by decide) (Cursor.need_bits hfirst).2,
    Res.ok_andThen]
  exact congrArg (Res.andThen · _) (readField_of_error (s := s.withCur (c.dropped 32)) hsecond)

/-- Settles O54: the first pull is the tolerated one, the second raises. -/
theorem datDecodeTruncatedHeader : Obligations.DatDecodeTruncatedHeader := by
  intro s hin hout hv hs hlen
  have hlimit := limit_toNat s.inLen
  have hskip := skipIndex_le s.cfg 0
  have hsecond : ((Cursor.holding 0 32 (skipIndex s.cfg 0 + 1) (s.inLen >>> 2) true).dropped 32).need s.cfg s.inMem 32 =
      .error .truncated := by
    rw [Cursor.dropped_holding_all]
    exact Cursor.need_emptyAt_of_exhausted (by decide) (by decide) (by omega) (by omega)
  have hheader := datHeader_of_error (s := s.withCur (Cursor.init s.inLen)) (Cursor.need_init_of_no_word hlen) hsecond
  have hrun := datRun_of_arguments hin hout hv
  rw [hheader, Res.fail_andThen] at hrun
  exact exec_datDecode_of_fail hs hrun rfl

/-! ### A declared size of 0 (R243 to R247, R256) -/

/-- Where 0 bytes are declared, `EFF` is 0, whatever the host asked for (R244). -/
theorem effectiveSize_zero (outSize : Word) : effectiveSize 0 outSize = 0 := by
  rw [effectiveSize_eq, if_pos (.inr (Nat.zero_le outSize.toNat))]

/-- The state behind a header that declares 0, with or without the tolerated pull used up (R243). -/
def afterZeroHeader (s : State) (exh : Bool) : State := startOutput 0 (s.withCur (.emptyAt 2 (s.inLen >>> 2) exh))

theorem afterZeroHeader_eq (s : State) (exh : Bool) : afterZeroHeader s exh =
    (((s.withCur (.emptyAt 2 (s.inLen >>> 2) exh)).withDec { s.dec with eff := 0, outPos := 0 }).withOutMem
      (if s.outPresent then s.outMem else [])).withOutLen (if s.outPresent then s.outLen else some 0) := by
  rw [afterZeroHeader, startOutput_eq, State.withCur_outSize, effectiveSize_zero]
  rfl

theorem afterZeroHeader_cfg (s : State) (exh : Bool) : (afterZeroHeader s exh).cfg = s.cfg := by rw [afterZeroHeader_eq]; rfl

theorem afterZeroHeader_cur (s : State) (exh : Bool) :
    (afterZeroHeader s exh).cur = .emptyAt 2 (s.inLen >>> 2) exh := by rw [afterZeroHeader_eq]; rfl

theorem afterHeader_of_zero (hzero : inWord s.inMem 1 = 0) : afterHeader s = afterZeroHeader s false := by
  rw [afterHeader, hzero, afterZeroHeader]

/-- The header of an input of one word: the tolerated pull declares 0 (R147, R243). -/
theorem datHeader_of_one_word (hstride : 3 ≤ s.cfg.skipStride) (h₄ : 4 ≤ s.inLen.toNat) (h₈ : s.inLen.toNat < 8) :
    datHeader (s.withCur (Cursor.init s.inLen)) = .ok () (afterZeroHeader s true) := by
  have hlimit := limit_toNat s.inLen
  have hword₀ := readsField_emptyAt (s := s.withCur (Cursor.init s.inLen)) (p := 0) (limit := s.inLen >>> 2) (exh := false)
    rfl (Nat.lt_of_lt_of_le (by decide) hstride) (by omega)
  have hneed : (Cursor.emptyAt 1 (s.inLen >>> 2) false).need s.cfg s.inMem 32 =
      .ok (.holding 0 32 2 (s.inLen >>> 2) true) :=
    Cursor.need_emptyAt_of_end (by decide) (by decide) (by decide) hstride (by omega)
  refine datHeader_eq_ok.mpr ⟨_, 0, _, _, hword₀, ⟨_, hneed, (Nat.zero_div _).symm, rfl⟩, ?_⟩
  rw [Cursor.dropped_holding_all]
  rfl

/-- The header of an input of at least two words, the second of them 0. -/
theorem datHeader_of_zero_word (hstride : 3 ≤ s.cfg.skipStride) (hlen : 8 ≤ s.inLen.toNat) (hzero : inWord s.inMem 1 = 0) :
    datHeader (s.withCur (Cursor.init s.inLen)) = .ok () (afterZeroHeader s false) := by
  rw [← afterHeader_of_zero hzero]
  exact datHeader_of_two_words rfl hstride hlen

/-- A `DAT_DECODE` whose header declares 0 reads no block: the const-add field of the call ends its work (R246, R256). -/
theorem exec_datDecode_of_nothing {exh : Bool} (hin : s.inPresent = true) (hout : s.outPresent = true → s.outSize ≠ 0)
    (hv : s.dictValid = true) (hheader : datHeader (s.withCur (Cursor.init s.inLen)) = .ok () (afterZeroHeader s exh))
    (hconst : ReadsConstAdd .perCall (afterZeroHeader s exh) t) :
    exec .datDecode s = .next ((t.withOutSize 0).withResult 0) := by
  have hpos : t.dec.outPos = 0 := by rw [hconst.dec_eq, afterZeroHeader_eq]; rfl
  have heff : t.dec.eff = 0 := by rw [hconst.dec_eq, afterZeroHeader_eq]; rfl
  show finish (datRun s) = _
  rw [datRun_of_arguments hin hout hv, hheader, Res.ok_andThen, constFieldAt_eq_ok.mpr hconst, Res.ok_andThen, heff]
  show finish (datResult t) = _
  rw [datResult, hpos]
  rfl

/-- A const-add field that cannot be read (R247). -/
theorem constFieldAt_of_error {p : ConstAddScope} {k : ErrKind} (hp : s.cfg.constAddScope = p)
    (h : s.cur.need s.cfg s.inMem 8 = .error k) : constFieldAt p s = .fail (.err k) s := by
  rw [constFieldAt, if_pos hp, constField, needBits_of_error h]
  rfl

/-- The call's const-add field behind a header that used the tolerated pull up (R147, R247). -/
theorem constFieldAt_perCall_truncated (hscope : s.cfg.constAddScope = .perCall) (h₈ : s.inLen.toNat < 8) :
    constFieldAt .perCall (afterZeroHeader s true) = .fail (.err .truncated) (afterZeroHeader s true) := by
  have hlimit := limit_toNat s.inLen
  refine constFieldAt_of_error (by rw [afterZeroHeader_cfg, hscope]) ?_
  rw [afterZeroHeader_cur]
  exact Cursor.need_emptyAt_of_exhausted (by decide) (by decide) (by decide) (by omega)

/-- Settles O55: with the field read per block nothing follows the header; with it read per call the third word follows,
which the tolerated pull supplies unless the header used it up. -/
theorem datDecodeOfNothing : Obligations.DatDecodeOfNothing := by
  intro s w hin hout hv hstride hw
  refine ⟨fun hscope hzero => ?_, fun hscope hstride₄ hlen hzero => ?_, fun hscope hs h₄ h₈ => ?_⟩
  · obtain ⟨exh, hheader⟩ : ∃ exh, datHeader (s.withCur (Cursor.init s.inLen)) = .ok () (afterZeroHeader s exh) := by
      obtain ⟨h₄, h₈⟩ | ⟨hlen, hzero⟩ := hzero
      · exact ⟨_, datHeader_of_one_word hstride h₄ h₈⟩
      · exact ⟨_, datHeader_of_zero_word hstride hlen hzero⟩
    have hno : (afterZeroHeader s exh).cfg.constAddScope ≠ .perCall := by
      rw [afterZeroHeader_cfg, hscope]
      decide
    refine ⟨_, exec_datDecode_of_nothing hin hout hv hheader ((readsConstAdd_of_ne hno).mpr rfl), ?_⟩
    cases hp : s.outPresent <;> simp [afterZeroHeader_eq, Cursor.emptyAt, hp]
  · have hconst := readsConstAdd_afterHeader s w hstride₄ hw
    rw [afterHeader_of_zero hzero, afterZeroHeader_cfg, hscope] at hconst
    refine ⟨_, exec_datDecode_of_nothing hin hout hv (datHeader_of_zero_word hstride hlen hzero) hconst, ?_⟩
    have hadd : w.toNat / 16777216 % 16 + 1 < 32 := by omega
    cases hp : s.outPresent <;>
      simp [afterConstAdd, afterHeader_of_zero hzero, afterZeroHeader_eq, thirdWord, Cursor.holding, hp, hadd]
  · have hrun := datRun_of_arguments hin hout hv
    rw [datHeader_of_one_word hstride h₄ h₈, Res.ok_andThen, constFieldAt_perCall_truncated hscope h₈,
      Res.fail_andThen] at hrun
    exact exec_datDecode_of_fail hs hrun (by rw [afterZeroHeader_eq]; rfl)

end Sys2Proof.Machine

/-! ## Errors, the stop state and the reset (R290 to R295, R304, R320)

The commands that write a host register write it last, behind everything in them that can raise. So wherever the work of an
instruction ends in a raise, the host's registers and IN are still those it began with. -/

namespace Sys2Proof.Machine

variable {α : Type} {i : Instr} {s t : State}

/-! ### Host registers are written last (R256, R293) -/

/-- Where the work `r` of an instruction in state s raises, it has left the host's registers and IN as they were in s; where
it ends with a value, it has left `ERR`. -/
def Res.WritesHostLast (s : State) : Res α → Prop
  | .ok _ t => t.err = s.err
  | .fail _ t => KeepsHost s t

theorem Res.Leads.writesHostLast {r : Res α} (h : r.Leads KeepsHost s) : r.WritesHostLast s := by
  cases r with
  | ok a t => exact KeepsHost.err h
  | fail c t => exact h

theorem Res.Leads.andThen_writesHostLast {β : Type} {r : Res α} {k : α → State → Res β} (hr : r.Leads KeepsHost s)
    (hk : ∀ a t, (k a t).WritesHostLast t) : (r.andThen k).WritesHostLast s := by
  cases r with
  | fail c t => exact hr
  | ok a t =>
    have hkeep : KeepsHost s t := hr
    have hlast := hk a t
    rw [Res.ok_andThen]
    cases hq : k a t with
    | ok b u => rw [hq] at hlast; exact Eq.trans hlast hkeep.err
    | fail c u => rw [hq] at hlast; exact hkeep.trans hlast

theorem putResult_writesHostLast (v : Word) (s : State) : (putResult v s).WritesHostLast s := rfl

theorem datArguments_keepsHost (s : State) : (datArguments s).Leads KeepsHost s := by
  obtain ⟨-, he⟩ | ⟨-, -, he⟩ := datArguments_cases s <;> rw [he] <;> exact KeepsHost.refl s

theorem KeepsHost.withCur (s : State) (c : Cursor) : KeepsHost s (s.withCur c) := by constructor <;> rfl

theorem curInit_keepsHost (s : State) : (curInit s).Leads KeepsHost s := KeepsHost.withCur s _

/-- R256: a `DAT_DECODE` writes `OUT_SIZE` and `RESULT` behind its blocks. -/
theorem datRun_writesHostLast (s : State) : (datRun s).WritesHostLast s :=
  (datArguments_keepsHost s).andThen_writesHostLast fun _ s₀ =>
  (dictInit_leads keepsHost_blockStable.toDictStable s₀).andThen_writesHostLast fun _ s₁ =>
  (curInit_keepsHost s₁).andThen_writesHostLast fun _ s₂ =>
  (datHeader_keepsHost s₂).andThen_writesHostLast fun _ s₃ =>
  (constFieldAt_leads keepsHost_blockStable _ s₃).andThen_writesHostLast fun _ s₄ =>
  (blockLoop_leads keepsHost_blockStable _ s₄).andThen_writesHostLast fun _ _ => rfl

/-- The primitives of an instruction that does not write `RESULT` write no host register at all (R25). -/
theorem keepsHost_execStable (hi : i.writesResult = false) : ExecStable i KeepsHost where
  toBlockStable := keepsHost_blockStable
  init s := KeepsHost.withCur s _
  result h := absurd (hi.symm.trans h) nofun
  outSize h := by subst h; cases hi
  output h := by subst h; cases hi

/-- Every instruction but `SOFT_RESET` writes the host's registers last. -/
theorem exec_writesHostLast (hi : i ≠ .softReset) (s : State) :
    exec i s = .next (reservedCommand s) ∨ ∃ r : Res Unit, exec i s = finish r ∧ r.WritesHostLast s := by
  by_cases hw : i.writesResult = true
  · cases i with
    | curRead nb =>
      exact .inr ⟨_, rfl, (readBits_leads keepsHost_blockStable.toCursorStable _ s).andThen_writesHostLast
        putResult_writesHostLast⟩
    | hufRead tr =>
      cases htr : operandTR tr with
      | none => exact .inl (by rw [exec, execHufRead, htr])
      | some t =>
        exact .inr ⟨_, exec_hufRead htr s, (readCode_leads keepsHost_blockStable.toDictStable t s).andThen_writesHostLast
          fun sy => putResult_writesHostLast (symbolWord sy)⟩
    | descRead tr =>
      have hdesc (t : SlotId) : ((desc t s).andThen fun n => putResult (BitVec.ofNat 32 n)).WritesHostLast s :=
        (desc_leads (keepsHost_descStable t) s).andThen_writesHostLast fun n => putResult_writesHostLast _
      cases tr with
      | rsv => exact .inl rfl
      | dict => exact .inr ⟨_, rfl, KeepsHost.refl s⟩
      | sym => exact .inr ⟨_, rfl, hdesc .sym⟩
      | copy => exact .inr ⟨_, rfl, hdesc .copy⟩
    | datDecode => exact .inr ⟨_, rfl, datRun_writesHostLast s⟩
    | _ => cases hw
  · obtain hr | ⟨r, hr, hworks⟩ := exec_cases (keepsHost_execStable (eq_false_of_ne_true hw)) hi s
    · exact .inl hr
    · exact .inr ⟨r, hr, hworks.leads.writesHostLast⟩

/-- An instruction that ends in an error has written `ERR` alone (R91), or has raised in a state whose host registers and IN
are those it began with (R292). -/
theorem exec_error_cases (he : exec i s = .next t) (hs : s.err = none) (ht : t.err ≠ none) :
    t = reservedCommand s ∨ ∃ c u, KeepsHost s u ∧ t = u.raise c := by
  have hi : i ≠ .softReset := by
    rintro rfl
    cases he
    exact ht rfl
  obtain hr | ⟨r, hr, hlast⟩ := exec_writesHostLast hi s <;> rw [hr] at he <;> cases he
  · exact .inl rfl
  · cases r with
    | ok _ u => exact absurd (Eq.trans hlast hs) ht
    | fail c u => exact .inr ⟨c, u, hlast, rfl⟩

/-- Settles O12: a raise keeps the host's registers and IN as the work before it left them, which is as it found them. -/
theorem failedInstructionKeepsHostRegisters : Obligations.FailedInstructionKeepsHostRegisters := by
  intro i s t he hs ht
  obtain rfl | ⟨c, u, h, rfl⟩ := exec_error_cases he hs ht
  · exact ⟨rfl, rfl, rfl, rfl, rfl, rfl⟩
  · exact ⟨h.outSize, h.result, h.inLen, h.inPresent, h.outPresent, h.inMem⟩

/-! ### Taking an error (R257, R292, R293) -/

/-- R257: of a host's OUT an error leaves the bytes from `EFF` on (log 12). -/
theorem outAfterError_read? (h : s.outPresent = true) (a : Nat) :
    (outAfterError s).read? a = if s.dec.eff.toNat ≤ a then s.outMem.read? a else none := by
  rw [outAfterError, if_pos h, Memory.read?_eraseBelow]

/-- Settles O11: what `raise` leaves, field by field, and OUT by `outAfterError_read?`. -/
theorem raiseKeepsDefinedState : Obligations.RaiseKeepsDefinedState := fun s c =>
  ⟨s.raise_err c, s.raise_inLen c, s.raise_inPresent c, s.raise_outPresent c, s.raise_outSize c, s.raise_result c,
    s.raise_inMem c, s.raise_cfg c, outAfterError_read?⟩

/-! ### The stop state and the way out of it (R294, R295, R304, R320) -/

/-- Settles O6: the stop state ignores the command word, and every other register access does what it does in any state. -/
theorem stopStateIgnoresCommands : Obligations.StopStateIgnoresCommands := by
  refine fun s rest herr => ⟨fun v hv hin => ?_, fun off v hoff hin => step_regWrite hin hoff, fun off => step_regRead⟩
  exact step_of_done hin (issueCommand_of_stopped (s := s.withInputs rest) herr hv)

/-- R320: a step that serves a hardware reset. -/
theorem step_hardReset {rest : List Input} (h : s.inputs = .hardReset :: rest) :
    step s = .next (s.withInputs rest).resetBlock := step_of_done h rfl

/-- R294, R304: a write of `SOFT_RESET` to `CMD` is executed in every state. -/
theorem step_softReset {rest : List Input} (h : s.inputs = .regWrite 0 0xFF000000 :: rest) :
    step s = .next (s.withInputs rest).resetBlock := step_of_run h (issueCommand_softReset _)

/-- R24: what `STATUS` reads after a reset, whatever the parameters. -/
theorem statusWord_resetBlock (s : State) : statusWord s.resetBlock = 0x000000E0 :=
  show statusWord State.reset = 0x000000E0 from statusWord_reset

/-- Settles O1: both triggers lead to `resetBlock`, which is the reset of R320. -/
theorem nopAndReset : Obligations.NopAndReset := by
  refine ⟨by decide, decode_softResetWord, fun s => rfl, fun s => ?_, fun s rest hin => ?_⟩
  · exact ⟨s.resetBlock, rfl, s.resetBlock_atReset, rfl, rfl, rfl, rfl, statusWord_resetBlock s⟩
  · obtain hin | hin := hin
    · exact step_hardReset hin
    · exact step_softReset hin

theorem writeReg_err (s : State) (off v : Word) : (writeReg s off v).err = s.err := by
  unfold writeReg supplyOut
  split_ifs <;> rfl

theorem hostPoke_err (s : State) (m : MemSel) (a : Word) (b : Byte) : (hostPoke s m a b).err = s.err := by
  cases m <;> rfl

/-- R295: in the stop state a step that is no reset keeps `ERR`. -/
theorem step_of_stopped (h : step s = .next t) (herr : s.err ≠ none) :
    t.err = s.err ∨ ∃ rest, (s.inputs = .hardReset :: rest ∨ s.inputs = .regWrite 0 0xFF000000 :: rest) ∧
      t = (s.withInputs rest).resetBlock := by
  obtain rfl | ⟨i, rest, hin, hdone | ⟨j, hrun, hexec⟩⟩ := step_cases h
  · exact .inl rfl
  · obtain rfl | ⟨hnone, -⟩ | ⟨off, v, rfl⟩ | ⟨v, rfl⟩ | ⟨m, a, b, -, rfl⟩ | ⟨v, rfl⟩ | ⟨rfl, rfl⟩ :=
      serve_done_cases hdone
    · exact .inl rfl
    · exact absurd hnone herr
    · exact .inl (writeReg_err _ off v)
    · exact .inl rfl
    · exact .inl (hostPoke_err _ m a b)
    · exact .inl rfl
    · exact .inr ⟨rest, .inl hin, rfl⟩
  · obtain ⟨-, ⟨rfl, rfl⟩ | ⟨-, hnone⟩⟩ := serve_run_cases hrun
    · cases hexec
      exact .inr ⟨rest, .inr hin, rfl⟩
    · exact absurd hnone herr

/-- Settles O7: a step that leaves the stop state is a reset, which keeps IN and OUT. -/
theorem onlyResetLeavesStopState : Obligations.OnlyResetLeavesStopState := by
  intro s t hstep herr ht
  obtain hkeep | ⟨rest, hin, rfl⟩ := step_of_stopped hstep herr
  · exact absurd (hkeep.symm.trans ht) herr
  · exact ⟨⟨rest, hin⟩, State.resetBlock_atReset _, rfl, rfl, rfl⟩

end Sys2Proof.Machine
